-- ==== Sys2Proof/Word.lean ====
section
/-! DEFINITION. The word types of CLHW and the signed 32-bit bounds (spec/00_scope.md R5, R6; spec/30_encoding.md R60, R62). -/

namespace Sys2Proof

/-- A register, a data-memory cell, a pixel word, an artifact word, a program index: 32 bits (R5 `XLEN`, R13, R60, R212). -/
abbrev Word := BitVec 32

/-- One operand field of an instruction word: 16 bits, read as signed (R5 `OPW`, R62). -/
abbrev Operand := BitVec 16

/-- An instruction word: 64 bits (R62). -/
abbrev IWord := BitVec 64

/-- A byte of a word that is moved between the host and the hardware (R41). -/
abbrev Byte := BitVec 8

/-- `INT_MIN` of R6. -/
abbrev intMin : Int := -2147483648

/-- `INT_MAX` of R6. -/
abbrev intMax : Int := 2147483647

end Sys2Proof
end

