-- ==== Sys2Proof/Config.lean ====
section
/-! DEFINITION. The implementation parameters (spec/00_scope.md R5) and the free values: constants without a body, so that
nothing can be proved about the value the spec leaves open. -/

namespace Sys2Proof

/-- `NREG` of R5. -/
abbrev Config.numRegs : Nat := 16
/-- `MEM_CELLS` of R5: data-memory addresses are 0..1023 (R16). -/
abbrev Config.memCells : Nat := 1024
/-- `STACK_DEPTH` of R5 (R17). -/
abbrev Config.stackDepth : Nat := 256
/-- `MAX_W` and `MAX_H` of R5: the largest grid width and height (R97). -/
abbrev Config.maxSide : Nat := 1024
/-- `PROG_CAP` of R5: instruction words the program store holds. -/
abbrev Config.progCap : Nat := 1048576
/-- `H10_MAX` of R5. -/
abbrev Config.h10Max : Nat := 3599
/-- `S10_MAX` and `V10_MAX` of R5. -/
abbrev Config.channelMax : Nat := 1000
/-- `SLOT_W` of R5: the width of one hue slot. -/
abbrev Config.slotWidth : Nat := 100
/-- `REG_DIV` of R5. -/
abbrev Config.regDiv : Nat := 64
/-- `IMM_BIAS` of R5. -/
abbrev Config.immBias : Int := 500
/-- `UQ_MAX` of R5. -/
abbrev Config.uqMax : Int := 1000
/-- `FORMAT_TAG` of R5: the header tag of CL-HSV/1 (R24). -/
abbrev Config.formatTag : Word := 1

/-- Free value (log 4): the content of program-store word `i` that nothing has written since the store last became
unspecified for the `gen`-th time (R33, R291, U2). -/
opaque Config.unwrittenWord (gen i : Nat) : IWord

/-- Free value (log 5): header field `field` (0 width, 1 height, 2 length) after the `gen`-th failed decode (U2). -/
opaque Config.unspecifiedHeader (gen field : Nat) : Word

/-- Free value (log 6): the host's answer to the `n`-th transaction on the handle, `HOST_OPS` of R5 (R201, U11). -/
opaque Config.handleAnswer (n k : Nat) (a b : Word) : Word × Word

/-- Free value (log 12): `x` and `y` of the error record of this DEC call when `pos_valid` is 0 (R116). It depends on the
whole call and on nothing else (R118). -/
opaque Config.unspecifiedPos {Call : Type} (call : Call) : BitVec 12 × BitVec 12

/-- Free value (log 14): the fault record's `aux` for a value outside 32 bits (R21, R180 (a)). -/
opaque Config.wideAux (v : Int) : Word

/-- Free value (log 15): the COD error record's `index` for a word index outside 32 bits (R222, R225, R228). -/
opaque Config.wideIndex (n : Nat) : Word

/-- Free value (log 16): `in_idx` after it has counted 2^32 - 1 values and one more is consumed (R22). -/
opaque Config.inIdxPastMax : Word

end Sys2Proof
end

