-- ==== Sys2Proof/Syntax.lean ====
section
/-! DEFINITION. The syntax of CL-HSV/1: one constructor of `Instr` per row of spec/opcode_table.json, the operand kinds,
formats and opcode classes of spec/30_encoding.md (R62, R66 to R69). -/

namespace Sys2Proof

/-- The source position an instruction word carries: row `y` and column `x`, 12 bits each (R62). -/
structure Pos where
  y : BitVec 12
  x : BitVec 12
deriving DecidableEq, Repr

/-- An instruction. Every constructor carries the whole instruction word but for the opcode: both operand fields
(named `u1`, `u2` where the kind is NONE and the field is ignored, R73) and the position. -/
inductive Instr where
  | nop (u1 u2 : Operand) (pos : Pos)
  | halt (u1 u2 : Operand) (pos : Pos)
  | debug (u1 u2 : Operand) (pos : Pos)
  | lit (rd imm : Operand) (pos : Pos)
  | add (rd rs : Operand) (pos : Pos)
  | sub (rd rs : Operand) (pos : Pos)
  | mul (rd rs : Operand) (pos : Pos)
  | div (rd rs : Operand) (pos : Pos)
  | mod (rd rs : Operand) (pos : Pos)
  | load (rd addr : Operand) (pos : Pos)
  | store (rs addr : Operand) (pos : Pos)
  | copy (rd rs : Operand) (pos : Pos)
  | jmp (tx ty : Operand) (pos : Pos)
  | jz (rs addr : Operand) (pos : Pos)
  | jnz (rs addr : Operand) (pos : Pos)
  | call (tx ty : Operand) (pos : Pos)
  | ret (u1 u2 : Operand) (pos : Pos)
  | print (rs fmt : Operand) (pos : Pos)
  | printi (fmt imm : Operand) (pos : Pos)
  | input (rd u2 : Operand) (pos : Pos)
  | host0 (ra rb : Operand) (pos : Pos)
  | host1 (ra rb : Operand) (pos : Pos)
  | host2 (ra rb : Operand) (pos : Pos)
  | host3 (ra rb : Operand) (pos : Pos)
  | host4 (ra rb : Operand) (pos : Pos)
  | nethook (u1 u2 : Operand) (pos : Pos)
deriving DecidableEq, Repr

/-- Operand kinds of R68. `unused` is the spec's NONE. -/
inductive Kind where
  | unused
  | reg
  | sel
  | imm
  | addr
  | pos
deriving DecidableEq, Repr

/-- Formats of R69: the pair of operand kinds an opcode has. -/
inductive Format where
  | n
  | ri
  | rr
  | ra
  | pp
  | rs
  | si
  | r
deriving DecidableEq, Repr

/-- Opcode classes of R66, in the order of their class ids 0 to 6. -/
inductive OpClass where
  | system
  | data
  | arith
  | mem
  | ctrl
  | io
  | ext
deriving DecidableEq, Repr

/-- The operand kinds of a format (R69). -/
def Format.kinds : Format → Kind × Kind
  | .n => (.unused, .unused)
  | .ri => (.reg, .imm)
  | .rr => (.reg, .reg)
  | .ra => (.reg, .addr)
  | .pp => (.pos, .pos)
  | .rs => (.reg, .sel)
  | .si => (.sel, .imm)
  | .r => (.reg, .unused)

/-- The format of each instruction (R67, R69). -/
def Instr.format : Instr → Format
  | .nop .. | .halt .. | .debug .. | .ret .. | .nethook .. => .n
  | .lit .. => .ri
  | .add .. | .sub .. | .mul .. | .div .. | .mod .. | .copy .. => .rr
  | .host0 .. | .host1 .. | .host2 .. | .host3 .. | .host4 .. => .rr
  | .load .. | .store .. | .jz .. | .jnz .. => .ra
  | .jmp .. | .call .. => .pp
  | .print .. => .rs
  | .printi .. => .si
  | .input .. => .r

/-- The first operand field, bits 55:40 of the word (R62). -/
def Instr.op1 : Instr → Operand
  | .nop a _ _ | .halt a _ _ | .debug a _ _ | .lit a _ _ | .add a _ _ | .sub a _ _ | .mul a _ _ | .div a _ _ | .mod a _ _
  | .load a _ _ | .store a _ _ | .copy a _ _ | .jmp a _ _ | .jz a _ _ | .jnz a _ _ | .call a _ _ | .ret a _ _
  | .print a _ _ | .printi a _ _ | .input a _ _ | .host0 a _ _ | .host1 a _ _ | .host2 a _ _ | .host3 a _ _
  | .host4 a _ _ | .nethook a _ _ => a

/-- The second operand field, bits 39:24 of the word (R62). -/
def Instr.op2 : Instr → Operand
  | .nop _ b _ | .halt _ b _ | .debug _ b _ | .lit _ b _ | .add _ b _ | .sub _ b _ | .mul _ b _ | .div _ b _ | .mod _ b _
  | .load _ b _ | .store _ b _ | .copy _ b _ | .jmp _ b _ | .jz _ b _ | .jnz _ b _ | .call _ b _ | .ret _ b _
  | .print _ b _ | .printi _ b _ | .input _ b _ | .host0 _ b _ | .host1 _ b _ | .host2 _ b _ | .host3 _ b _
  | .host4 _ b _ | .nethook _ b _ => b

/-- The position fields, bits 23:0 of the word (R62). -/
def Instr.pos : Instr → Pos
  | .nop _ _ p | .halt _ _ p | .debug _ _ p | .lit _ _ p | .add _ _ p | .sub _ _ p | .mul _ _ p | .div _ _ p | .mod _ _ p
  | .load _ _ p | .store _ _ p | .copy _ _ p | .jmp _ _ p | .jz _ _ p | .jnz _ _ p | .call _ _ p | .ret _ _ p
  | .print _ _ p | .printi _ _ p | .input _ _ p | .host0 _ _ p | .host1 _ _ p | .host2 _ _ p | .host3 _ _ p
  | .host4 _ _ p | .nethook _ _ p => p

end Sys2Proof
end

