-- ==== Sys2Proof/WellFormed.lean ====
section
/-! DEFINITION. The two static checks on an instruction: what the VM checks of an operand field before anything else
(spec/60_exceptions.md R253, items 4 and 5), and what a pixel can carry (spec/30_encoding.md R68, "Encodable v"). -/

namespace Sys2Proof

/-- The VM's static check of one operand field: a register index in 0..15, a selector in 0..1, anything else passes
(R253; addresses and targets are checked when they are used). -/
def Kind.legal : Kind → Operand → Bool
  | .reg, v => decide (0 ≤ v.toInt ∧ v.toInt ≤ 15)
  | .sel, v => decide (v.toInt = 0 ∨ v.toInt = 1)
  | .unused, _ => true
  | .imm, _ => true
  | .addr, _ => true
  | .pos, _ => true

/-- The values of a kind that some pixel channel decodes to and the encoder accepts (R68, R106); an unused operand must
be 0 (R73). -/
def Kind.encodable : Kind → Operand → Bool
  | .unused, v => decide (v.toInt = 0)
  | .reg, v => decide (0 ≤ v.toInt ∧ v.toInt ≤ 15)
  | .sel, v => decide (v.toInt = 0 ∨ v.toInt = 1)
  | .imm, v => decide (-500 ≤ v.toInt ∧ v.toInt ≤ 500)
  | .addr, v => decide (0 ≤ v.toInt ∧ v.toInt ≤ 1000)
  | .pos, v => decide (0 ≤ v.toInt ∧ v.toInt ≤ 1000)

/-- Both operand fields pass the VM's static checks (R253 items 4 and 5). -/
def Instr.wellFormed (i : Instr) : Bool :=
  i.format.kinds.1.legal i.op1 && i.format.kinds.2.legal i.op2

/-- Both operand fields can be carried by a pixel (R68, R113). -/
def Instr.pixelEncodable (i : Instr) : Bool :=
  i.format.kinds.1.encodable i.op1 && i.format.kinds.2.encodable i.op2

end Sys2Proof
end

