-- ==== Sys2Proof/Decode.lean ====
section
/-! DEFINITION. The instruction word (spec/30_encoding.md R62, R67): its fields, the decoder, total and rejecting by
name, and the encoder written from the same table. Also the words as bytes (spec/20_memory.md R41). -/

namespace Sys2Proof

/-- Why an instruction word names no instruction (R71, R72). -/
inductive DecodeError where
  /-- The opcode is one of the ten reserved slots (R71). -/
  | reservedOpcode (k : Nat)
  /-- The opcode is above 35 (R72). -/
  | unassignedOpcode (k : Nat)
  /-- Fewer than eight bytes are left to read a word from (R41, R63). -/
  | truncated
deriving DecidableEq, Repr

/-- Bits 63:56 (R62). -/
def opcodeField (w : IWord) : BitVec 8 := w.extractLsb' 56 8
/-- Bits 55:40 (R62). -/
def op1Field (w : IWord) : Operand := w.extractLsb' 40 16
/-- Bits 39:24 (R62). -/
def op2Field (w : IWord) : Operand := w.extractLsb' 24 16
/-- Bits 23:12 (R62). -/
def yField (w : IWord) : BitVec 12 := w.extractLsb' 12 12
/-- Bits 11:0 (R62). -/
def xField (w : IWord) : BitVec 12 := w.extractLsb' 0 12

/-- The position fields of a word (R62). -/
def posField (w : IWord) : Pos := ⟨yField w, xField w⟩

/-- The opcode number of an instruction, its hue slot (R64, R67). -/
def opcodeOf : Instr → Nat
  | .nop .. => 0
  | .halt .. => 1
  | .debug .. => 2
  | .lit .. => 3
  | .add .. => 6
  | .sub .. => 7
  | .mul .. => 8
  | .div .. => 9
  | .mod .. => 10
  | .load .. => 12
  | .store .. => 13
  | .copy .. => 14
  | .jmp .. => 18
  | .jz .. => 19
  | .jnz .. => 20
  | .call .. => 21
  | .ret .. => 22
  | .print .. => 24
  | .printi .. => 25
  | .input .. => 26
  | .host0 .. => 30
  | .host1 .. => 31
  | .host2 .. => 32
  | .host3 .. => 33
  | .host4 .. => 34
  | .nethook .. => 35

/-- The instruction of opcode `k` with these fields (R67); reserved slots and numbers above 35 are rejected (R71, R72). -/
def instrOfFields (k : Nat) (a b : Operand) (p : Pos) : Except DecodeError Instr :=
  match k with
  | 0 => .ok (.nop a b p)
  | 1 => .ok (.halt a b p)
  | 2 => .ok (.debug a b p)
  | 3 => .ok (.lit a b p)
  | 6 => .ok (.add a b p)
  | 7 => .ok (.sub a b p)
  | 8 => .ok (.mul a b p)
  | 9 => .ok (.div a b p)
  | 10 => .ok (.mod a b p)
  | 12 => .ok (.load a b p)
  | 13 => .ok (.store a b p)
  | 14 => .ok (.copy a b p)
  | 18 => .ok (.jmp a b p)
  | 19 => .ok (.jz a b p)
  | 20 => .ok (.jnz a b p)
  | 21 => .ok (.call a b p)
  | 22 => .ok (.ret a b p)
  | 24 => .ok (.print a b p)
  | 25 => .ok (.printi a b p)
  | 26 => .ok (.input a b p)
  | 30 => .ok (.host0 a b p)
  | 31 => .ok (.host1 a b p)
  | 32 => .ok (.host2 a b p)
  | 33 => .ok (.host3 a b p)
  | 34 => .ok (.host4 a b p)
  | 35 => .ok (.nethook a b p)
  | k => if k ≤ 35 then .error (.reservedOpcode k) else .error (.unassignedOpcode k)

/-- The decoder: opcode from bits 63:56 alone (R67), then the operand and position fields (R62, R134). -/
def decode (w : IWord) : Except DecodeError Instr :=
  instrOfFields (opcodeField w).toNat (op1Field w) (op2Field w) (posField w)

/-- The five fields as one word, `opcode ++ op1 ++ op2 ++ y ++ x` (R62). -/
def packWord (k : Nat) (a b : Operand) (p : Pos) : IWord :=
  BitVec.ofNat 8 k ++ a ++ b ++ p.y ++ p.x

/-- The word of an instruction (R62, R67). -/
def encode (i : Instr) : IWord := packWord (opcodeOf i) i.op1 i.op2 i.pos

/-- A 32-bit word as four bytes, least significant first (R41). -/
def bytesOfWord (w : Word) : List Byte :=
  [w.extractLsb' 0 8, w.extractLsb' 8 8, w.extractLsb' 16 8, w.extractLsb' 24 8]

/-- Four bytes, least significant first, as a 32-bit word (R41). -/
def wordOfBytes (b0 b1 b2 b3 : Byte) : Word := b3 ++ b2 ++ b1 ++ b0

/-- A 64-bit instruction word as bytes: the low 32-bit word (bits 31:0) first (R41). -/
def bytesOfIWord (w : IWord) : List Byte :=
  bytesOfWord (w.extractLsb' 0 32) ++ bytesOfWord (w.extractLsb' 32 32)

/-- Two 32-bit words, the low one first, as an instruction word (R41). -/
def iwordOfWords (lo hi : Word) : IWord := hi ++ lo

/-- The decoder on a program moved as bytes (R41): the instruction and the bytes after it. -/
def decodeBytes (bs : List Byte) : Except DecodeError (Instr × List Byte) :=
  match bs with
  | b0 :: b1 :: b2 :: b3 :: b4 :: b5 :: b6 :: b7 :: rest =>
    match decode (iwordOfWords (wordOfBytes b0 b1 b2 b3) (wordOfBytes b4 b5 b6 b7)) with
    | .ok i => .ok (i, rest)
    | .error e => .error e
  | _ => .error .truncated

/-- The instruction the decoder reads from the word `w` of an opcode-table row of `nbits` bits (the bits above `nbits`
are 0): laid out as bytes in the hardware's order (R41) and given to `decodeBytes`. -/
def decodeTableWord (nbits w : Nat) : Option Instr :=
  if w % 2 ^ nbits < 2 ^ 64 then
    match decodeBytes (bytesOfIWord (BitVec.ofNat 64 (w % 2 ^ nbits))) with
    | .ok (i, _) => some i
    | .error _ => none
  else none

end Sys2Proof
end

