-- ==== Sys2Proof/Machine/State.lean ====
section
/-! DEFINITION. The machine's state as plain data: everything spec/10_state.md R10 names, the host attachments
(R29, R30), the program store (R24, R25), and the model's own fields for the host interface (R304). -/

namespace Sys2Proof.Machine

/-- Sparse contents of a store: (address, element) pairs, addresses strictly rising. -/
abbrev Sparse (α : Type) := List (Nat × α)

/-- A memory of 32-bit cells (R16, R17): (address, cell) pairs; a cell that is not listed is 0 (log 1). -/
abbrev Memory := Sparse Word

/-- The run state (R18). -/
inductive RunState where
  | ready
  | running
  | halted
  | faulted
deriving DecidableEq, Repr

/-- The causes of a VM fault (R251). -/
inductive Cause where
  | invalidOpcode
  | registerOutOfBounds
  | memoryOutOfBounds
  | divideByZero
  | stackOverflow
  | stackUnderflow
  | invalidJumpTarget
  | pcOutOfRange
  | arithmeticOverflow
  | invalidOperand
  | invalidProgram
deriving DecidableEq, Repr

/-- The fault record (R21). -/
structure FaultRecord where
  cause : BitVec 8
  pc : Word
  posValid : Bool
  x : BitVec 12
  y : BitVec 12
  iw : IWord
  aux : Word
deriving DecidableEq, Repr

/-- The tag of an output element: 0 `INT`, 1 `CHR` (R19). -/
inductive OutTag where
  | int
  | chr
deriving DecidableEq, Repr

/-- An output element (R19, R190). -/
structure OutElem where
  tag : OutTag
  value : Word
deriving DecidableEq, Repr

/-- A debug event (R23). -/
structure DebugEvent where
  pc : Word
  x : BitVec 12
  y : BitVec 12
deriving DecidableEq, Repr

/-- The program store's header (R24). -/
structure Header where
  tag : Word
  width : Word
  height : Word
  length : Word
deriving DecidableEq, Repr

/-- One transaction on the handle as the host sees it: the operation number and the two arguments (R201). -/
structure HandleRequest where
  k : Fin 5
  a : Word
  b : Word
deriving DecidableEq, Repr

/-- The format flag of a decode call: 0 HSV words, 1 RGB words (R96). -/
inductive PixelFormat where
  | hsv
  | rgb
deriving DecidableEq, Repr

/-- The specific errors of DEC (R116). -/
inductive DecCode where
  | badDimensions
  | pixelCountMismatch
  | invalidColor
  | reservedOpcode
  | invalidOperandCombination
  | invalidOperand
deriving DecidableEq, Repr

/-- A failed check of DEC: its code, its position if it has one, its detail (R116, R117). The record the host gets of it is
a `DecRecord`. -/
structure DecError where
  code : BitVec 8
  pos : Option Pos
  detail : Word
deriving DecidableEq, Repr

/-- The error record of a DEC call, all five fields of R116; code 0 is a call that succeeded. -/
structure DecRecord where
  code : BitVec 8
  posValid : Bool
  x : BitVec 12
  y : BitVec 12
  detail : Word
deriving DecidableEq, Repr

/-- The specific errors of COD (R228). -/
inductive CodCode where
  | lengthMismatch
  | badMethod
  | badDimensions
  | badCounts
  | indexOutOfRange
  | badRunLength
  | runTotalMismatch
  | checksumMismatch
deriving DecidableEq, Repr

/-- The error record of a COD call (R228); code 0 is a call that succeeded. -/
structure CodError where
  code : BitVec 8
  index : Word
deriving DecidableEq, Repr

/-- A run budget: absent, or an unsigned 64-bit number of instructions (R130). -/
abbrev Budget := Option (BitVec 64)

/-- What a `run` call returns (R130). -/
inductive RunStatus where
  | halted
  | faulted
  | budgetExceeded
deriving DecidableEq, Repr

/-- A command of the host (R304). -/
inductive HostCommand where
  /-- `run(budget)` (R130). -/
  | run (budget : Budget)
  /-- `reset` (R290). -/
  | reset
  /-- Attach an input sequence, or detach it (R29). -/
  | attachInput (inp : Option (List Word))
  /-- Attach or detach the handle, with the answers it will give (R30, log 6). -/
  | attachHandle (attached : Bool) (answers : List (Word × Word))
  /-- Write one word of the program store by hand (R292). -/
  | writeProg (index : Word) (word : IWord)
  /-- Write the program header by hand (R292). -/
  | writeHeader (hdr : Header)
  /-- DEC decode call (R96). -/
  | decode (fmt : PixelFormat) (w h : Word) (px : List Word)
  /-- DEC encode call (R112). -/
  | encode (ins : List IWord) (w : Word)
  /-- COD encode call (R210). -/
  | codEncode (method w h : Word) (g : List Word)
  /-- COD decode call (R210). -/
  | codDecode (bytes : List Byte)
deriving DecidableEq, Repr

/-- What the last call that returns something returned (R304). -/
inductive Reply where
  /-- A `run` call ended (R130). -/
  | runStatus (st : RunStatus)
  /-- A decode call published a program (R109), with the record of R116's row 0. -/
  | programPublished (record : DecRecord)
  /-- A DEC call failed, with its record (R116). -/
  | decError (record : DecRecord)
  /-- An encode call gave a grid (R113), with the record of R116's row 0. -/
  | grid (record : DecRecord) (h : Word) (px : List Word)
  /-- A COD encode call gave an artifact (R220), with the record of R228's row 0. -/
  | artifact (record : CodError) (bytes : List Byte)
  /-- A COD decode call gave a grid (R227), with the record of R228's row 0. -/
  | restored (record : CodError) (w h : Word) (g : List Word)
  /-- A COD call failed, with its record (R228). -/
  | codError (record : CodError)
deriving DecidableEq, Repr

/-- A `run` call in progress: what is left of its budget (R132's `budget - n`). -/
structure RunCall where
  left : Budget
deriving DecidableEq, Repr

/-- The machine's state. The first group is the VM's (R10 to R23), then the program store (R24, R25), the host
attachments (R29, R30), and the model's own fields (log 5, 6, 7). -/
structure State where
  /-- The general registers `x[0..15]` (R11). -/
  x : Vector Word 16
  /-- The program counter (R13). -/
  pc : Word
  /-- Data memory (R16). -/
  mem : Memory
  /-- The call stack's entries (R17). -/
  cs : Memory
  /-- The number of call-stack entries in use (R17). -/
  sp : BitVec 9
  /-- The run state (R18). -/
  state : RunState
  /-- The output sequence (R19). -/
  out : List OutElem
  /-- The cycle counter (R20). -/
  cycles : BitVec 64
  /-- The fault record (R21). -/
  fault : FaultRecord
  /-- The input cursor `in_idx` (R22). -/
  inIdx : Word
  /-- The debug events (R23). -/
  dbg : List DebugEvent
  /-- The program store's header (R24). -/
  hdr : Header
  /-- The program store's words that something has written (R25). -/
  prog : Sparse IWord
  /-- The model's own: how often a failed decode has left the store unspecified (log 5). -/
  storeGen : Nat
  /-- The input source (R29): absent, or the finite sequence. -/
  inp : Option (List Word)
  /-- Whether a handle is attached (R30). -/
  hasHandle : Bool
  /-- The model's own: the answers the handle gives next (log 6). -/
  answers : List (Word × Word)
  /-- The model's own: the transactions made on the handle, oldest first (log 6). -/
  requests : List HandleRequest
  /-- The model's own: the host commands not yet carried out (log 7). -/
  cmds : List HostCommand
  /-- The model's own: the `run` call in progress (log 7). -/
  call : Option RunCall
  /-- The model's own: what the last call that returns something returned (log 7). -/
  reply : Option Reply
deriving DecidableEq, Repr

/-- Why the machine stops. A VM fault of the spec is none of these: it is taken as R256 says, a next state (log 13). -/
inductive Fault where
  /-- Raised by the host command `writeProg` for an index at or above `PROG_CAP`, a place the program store does not
  have (R5, R40). Safe: nothing is claimed about such a write (log 11). -/
  | programIndexOutOfStore (index : Nat)
deriving DecidableEq, Repr

/-- What the model does not do. No instruction ends in one of these. -/
inductive Refusal where
  /-- Raised by an arm of `exec` that has no meaning yet. Safe. No arm of this model raises it. -/
  | notModelled (mnemonic : String)
  /-- Raised by a host command that writes the program store (by hand or by a DEC decode) while `state` is Running: the
  host must not do it and the spec gives no effect (R301, U3 `refuse`). Safe (log 10). -/
  | storeWriteWhileRunning
  /-- Raised by a host command that changes the input source or the handle's attachment while `state` is Running: the
  host must not do it and the spec gives no effect (R302, U4 `refuse`). Safe (log 10). -/
  | attachWhileRunning
deriving DecidableEq, Repr

/-- The fault record of a VM that has not faulted: all fields 0 (R33). -/
def FaultRecord.none : FaultRecord :=
  { cause := 0, pc := 0, posValid := false, x := 0, y := 0, iw := 0, aux := 0 }

/-- The machine after power-on and VM reset (R33, R290, R291): every value is the spec's but for `cs` (log 2), the
header's width, height and length (log 3) and the model's own fields (log 5, 6, 7). -/
def State.reset : State :=
  { x := Vector.replicate 16 0#32
    pc := 0
    mem := []
    cs := []
    sp := 0
    state := .ready
    out := []
    cycles := 0
    fault := FaultRecord.none
    inIdx := 0
    dbg := []
    hdr := { tag := 0, width := 0, height := 0, length := 0 }
    prog := []
    storeGen := 0
    inp := .none
    hasHandle := false
    answers := []
    requests := []
    cmds := []
    call := .none
    reply := .none }

end Sys2Proof.Machine
end

