-- ==== Sys2Proof/Machine/Registry.lean ====
section
/-! DEFINITION. The Instruction Registry (spec/40_registry_decoder.md R90 to R107): the table of 36 hue slots, `classify`,
`select`, the operand quantization and its inverse. -/

namespace Sys2Proof.Machine

/-- One row of the Registry (R90). -/
structure RegistryEntry where
  assigned : Bool
  cls : OpClass
  mnemonic : String
  kind1 : Kind
  kind2 : Kind
  legalSel : List Int
deriving DecidableEq, Repr

/-- A row for an assigned slot of format `f`; `legal_sel` is {0, 1} where an operand is a SEL (R90). -/
def assignedRow (cls : OpClass) (mnemonic : String) (f : Format) : RegistryEntry :=
  { assigned := true, cls := cls, mnemonic := mnemonic, kind1 := f.kinds.1, kind2 := f.kinds.2
    legalSel := if f.kinds.1 = .sel ∨ f.kinds.2 = .sel then [0, 1] else [] }

/-- A row for a reserved slot (R71): it has a class and names no instruction. -/
def reservedRow (cls : OpClass) : RegistryEntry :=
  { assigned := false, cls := cls, mnemonic := "reserved", kind1 := .unused, kind2 := .unused, legalSel := [] }

/-- `REGISTRY[0..35]` (R67, R90). -/
def registry : List RegistryEntry :=
  [ assignedRow .system "NOP" .n, assignedRow .system "HALT" .n, assignedRow .system "DEBUG" .n
  , assignedRow .data "LIT" .ri, reservedRow .data, reservedRow .data
  , assignedRow .arith "ADD" .rr, assignedRow .arith "SUB" .rr, assignedRow .arith "MUL" .rr
  , assignedRow .arith "DIV" .rr, assignedRow .arith "MOD" .rr, reservedRow .arith
  , assignedRow .mem "LOAD" .ra, assignedRow .mem "STORE" .ra, assignedRow .mem "COPY" .rr
  , reservedRow .mem, reservedRow .mem, reservedRow .mem
  , assignedRow .ctrl "JMP" .pp, assignedRow .ctrl "JZ" .ra, assignedRow .ctrl "JNZ" .ra
  , assignedRow .ctrl "CALL" .pp, assignedRow .ctrl "RET" .n, reservedRow .ctrl
  , assignedRow .io "PRINT" .rs, assignedRow .io "PRINTI" .si, assignedRow .io "INPUT" .r
  , reservedRow .io, reservedRow .io, reservedRow .io
  , assignedRow .ext "HOST0" .rr, assignedRow .ext "HOST1" .rr, assignedRow .ext "HOST2" .rr
  , assignedRow .ext "HOST3" .rr, assignedRow .ext "HOST4" .rr, assignedRow .ext "NETHOOK" .n ]

/-- The row of slot `k`; there is no slot above 35, and such a number is treated as not assigned (R72, R113). -/
def registryRow (k : Nat) : RegistryEntry := registry.getD k (reservedRow .ext)

/-- The class ids of R66. -/
def OpClass.id : OpClass → Nat
  | .system => 0
  | .data => 1
  | .arith => 2
  | .mem => 3
  | .ctrl => 4
  | .io => 5
  | .ext => 6

/-- The hue slot of `H10` (R64): lower bound inclusive, upper bound exclusive (R65). -/
def hueSlot (h10 : Nat) : Nat := h10 / Config.slotWidth

/-- `classify(H10)` (R91), for `H10` in 0..3599. -/
def classify (h10 : Nat) : OpClass :=
  if hueSlot h10 ≤ 2 then .system
  else if hueSlot h10 ≤ 5 then .data
  else if hueSlot h10 ≤ 11 then .arith
  else if hueSlot h10 ≤ 17 then .mem
  else if hueSlot h10 ≤ 23 then .ctrl
  else if hueSlot h10 ≤ 29 then .io
  else .ext

/-- The result of `select` (R92). -/
inductive Selected where
  | opcode (k : Nat)
  | reserved (k : Nat)
deriving DecidableEq, Repr

/-- `select(H10)` (R92). -/
def select (h10 : Nat) : Selected :=
  if (registryRow (hueSlot h10)).assigned then .opcode (hueSlot h10) else .reserved (hueSlot h10)

/-- The quantization `q(kind, c)` (R93, R94, R103 to R105). -/
def quantize : Kind → Nat → Int
  | .unused, _ => 0
  | .reg, c => ((c / Config.regDiv : Nat) : Int)
  | .sel, c => ((c / Config.regDiv : Nat) : Int)
  | .imm, c => (c : Int) - Config.immBias
  | .addr, c => (c : Int)
  | .pos, c => (c : Int)

/-- `quantize_operand(opcode, S10, V10)` (R93): the two operands, or the number of the operand that is an
`InvalidOperandError`. -/
def quantizeOperand (k s10 v10 : Nat) : Except Nat (Int × Int) :=
  if (registryRow k).kind1 = .sel ∧ quantize (registryRow k).kind1 s10 ∉ (registryRow k).legalSel then .error 1
  else if (registryRow k).kind2 = .sel ∧ quantize (registryRow k).kind2 v10 ∉ (registryRow k).legalSel then .error 2
  else .ok (quantize (registryRow k).kind1 s10, quantize (registryRow k).kind2 v10)

/-- `dequantize(kind, legal_sel, v)` (R106): the lowest channel value that decodes to `v`; `none` is
`InvalidOperandError`. -/
def dequantize (kind : Kind) (legalSel : List Int) (v : Int) : Option Nat :=
  match kind with
  | .unused => if v = 0 then some 0 else none
  | .reg => if 0 ≤ v ∧ v ≤ 15 then some (64 * v).toNat else none
  | .sel => if v ∈ legalSel then some (64 * v).toNat else none
  | .imm => if -500 ≤ v ∧ v ≤ 500 then some (v + 500).toNat else none
  | .addr => if 0 ≤ v ∧ v ≤ Config.uqMax then some v.toNat else none
  | .pos => if 0 ≤ v ∧ v ≤ Config.uqMax then some v.toNat else none

end Sys2Proof.Machine
end

