-- ==== Sys2Proof/Machine/ColorDecoder.lean ====
section
/-! DEFINITION. The Color Decoder/Encoder DEC (spec/40_registry_decoder.md R96 to R118): the RGB front end, decode of a
pixel grid into instruction words, encode of instruction words into a pixel grid, and the error record. -/

namespace Sys2Proof.Machine

/-- `H10` of an HSV pixel word (R60). -/
def hueOf (p : Word) : BitVec 12 := p.extractLsb' 20 12
/-- `S10` of an HSV pixel word (R60). -/
def satOf (p : Word) : BitVec 10 := p.extractLsb' 10 10
/-- `V10` of an HSV pixel word (R60). -/
def valOf (p : Word) : BitVec 10 := p.extractLsb' 0 10
/-- `R` of an RGB pixel word (R61). -/
def redOf (p : Word) : BitVec 8 := p.extractLsb' 16 8
/-- `G` of an RGB pixel word (R61). -/
def greenOf (p : Word) : BitVec 8 := p.extractLsb' 8 8
/-- `B` of an RGB pixel word (R61). -/
def blueOf (p : Word) : BitVec 8 := p.extractLsb' 0 8

/-- An HSV pixel word, `H10 ++ S10 ++ V10` (R60). -/
def hsvWord (h s v : Nat) : Word := BitVec.ofNat 12 h ++ BitVec.ofNat 10 s ++ BitVec.ofNat 10 v

/-- The hue of R98, with `d` the difference of the largest and smallest channel; `/` rounds toward minus infinity for the
positive divisors it has here. Red wins a tie over green, green over blue. -/
def hueOfRgb (r g b : Nat) : Int :=
  let m := max r (max g b)
  let d : Int := (m : Int) - (min r (min g b) : Nat)
  if d = 0 then 0
  else if m = r then
    (if 600 * ((g : Int) - b) / d < 0 then 600 * ((g : Int) - b) / d + 3600 else 600 * ((g : Int) - b) / d)
  else if m = g then 1200 + 600 * ((b : Int) - r) / d
  else 2400 + 600 * ((r : Int) - g) / d

/-- The saturation of R98. -/
def satOfRgb (r g b : Nat) : Nat :=
  if max r (max g b) = 0 then 0 else 1000 * (max r (max g b) - min r (min g b)) / max r (max g b)

/-- The value of R98. -/
def valOfRgb (r g b : Nat) : Nat := 1000 * max r (max g b) / 255

/-- `rgb_to_hsv(word)` (R98). Bits 31:24 are not read. -/
def rgbToHsv (p : Word) : Word :=
  hsvWord (hueOfRgb (redOf p).toNat (greenOf p).toNat (blueOf p).toNat).toNat
    (satOfRgb (redOf p).toNat (greenOf p).toNat (blueOf p).toNat)
    (valOfRgb (redOf p).toNat (greenOf p).toNat (blueOf p).toNat)

/-- The codes of R116; 0 is no error. -/
def DecCode.code : DecCode → BitVec 8
  | .badDimensions => 1
  | .pixelCountMismatch => 2
  | .invalidColor => 3
  | .reservedOpcode => 4
  | .invalidOperandCombination => 5
  | .invalidOperand => 6

/-- The position of index `i` in a grid of width `w` (R110). -/
def posOfIndex (w i : Nat) : Pos := ⟨BitVec.ofNat 12 (i / w), BitVec.ofNat 12 (i % w)⟩

/-- An error of the whole call (R116, `pos_valid` = 0). -/
def decCallError (c : DecCode) (detail : Nat) : DecError :=
  { code := c.code, pos := none, detail := BitVec.ofNat 32 detail }

/-- An error at index `i` of a grid of width `w` (R116, `pos_valid` = 1). -/
def decPixelError (c : DecCode) (w i detail : Nat) : DecError :=
  { code := c.code, pos := some (posOfIndex w i), detail := BitVec.ofNat 32 detail }

/-- The error record of a DEC call that ended with the failure `e?`, or with none (R116): row 0 of its table is a call that
succeeded, `pos_valid` 0 and `detail` 0. `x` and `y` with `pos_valid` 0 are a free value of the call (DESIGN CHOICE, safe,
log 12). -/
def decRecord (call : HostCommand) (e? : Option DecError) : DecRecord :=
  match e? with
  | none =>
    { code := 0, posValid := false, x := (Config.unspecifiedPos call).1, y := (Config.unspecifiedPos call).2, detail := 0 }
  | some { code, pos := none, detail } =>
    { code := code, posValid := false, x := (Config.unspecifiedPos call).1, y := (Config.unspecifiedPos call).2
      detail := detail }
  | some { code, pos := some p, detail } => { code := code, posValid := true, x := p.x, y := p.y, detail := detail }

/-- The colour range check (R100): the number of the first component out of range. -/
def colorRangeError (p : Word) : Option Nat :=
  if Config.h10Max < (hueOf p).toNat then some 0
  else if Config.channelMax < (satOf p).toNat then some 1
  else if Config.channelMax < (valOf p).toNat then some 2
  else none

/-- The instruction word of slot `k` with these operands, at index `i` of a grid of width `w` (R108). -/
def stampedWord (k : Nat) (ops : Int × Int) (w i : Nat) : IWord :=
  packWord k (BitVec.ofInt 16 ops.1) (BitVec.ofInt 16 ops.2) (posOfIndex w i)

/-- `decode_pixel` on an HSV word (R108): colour range (R100), reserved slot (R101), operands (R93, R102). -/
def decodeHsvPixel (w i : Nat) (p : Word) : Except DecError IWord :=
  match colorRangeError p with
  | some d => .error (decPixelError .invalidColor w i d)
  | none =>
    match select (hueOf p).toNat with
    | .reserved k => .error (decPixelError .reservedOpcode w i k)
    | .opcode k =>
      match quantizeOperand k (satOf p).toNat (valOf p).toNat with
      | .error j => .error (decPixelError .invalidOperandCombination w i j)
      | .ok ops => .ok (stampedWord k ops w i)

/-- The HSV word of a pixel in either format (R98, R108). -/
def toHsv : PixelFormat → Word → Word
  | .hsv, p => p
  | .rgb, p => rgbToHsv p

/-- The pixels from index `i` on, in row-major order; the first failure ends the call (R109, R111). -/
def decodePixels (fmt : PixelFormat) (w : Nat) (i : Nat) : List Word → Except DecError (List IWord)
  | [] => .ok []
  | p :: px =>
    match decodeHsvPixel w i (toHsv fmt p) with
    | .error e => .error e
    | .ok iw =>
      match decodePixels fmt w (i + 1) px with
      | .error e => .error e
      | .ok rest => .ok (iw :: rest)

/-- The decode of a grid (R97, R109, R117): the instruction words in order, or the one error. -/
def decodeGrid (fmt : PixelFormat) (w h : Nat) (px : List Word) : Except DecError (List IWord) :=
  if w = 0 ∨ Config.maxSide < w then .error (decCallError .badDimensions 0)
  else if h = 0 ∨ Config.maxSide < h then .error (decCallError .badDimensions 1)
  else if px.length ≠ w * h then .error (decCallError .pixelCountMismatch px.length)
  else decodePixels fmt w 0 px

/-- The padding pixel: black, the canonical pixel of `NOP` (R75, R114). -/
def paddingPixel : Word := 0#32

/-- The canonical pixel of an instruction word at index `i` of a grid of width `w` (R75, R113). -/
def encodePixel (w i : Nat) (iw : IWord) : Except DecError Word :=
  if (registryRow (opcodeField iw).toNat).assigned then
    match dequantize (registryRow (opcodeField iw).toNat).kind1 (registryRow (opcodeField iw).toNat).legalSel
        (op1Field iw).toInt with
    | none => .error (decPixelError .invalidOperand w i 1)
    | some c1 =>
      match dequantize (registryRow (opcodeField iw).toNat).kind2 (registryRow (opcodeField iw).toNat).legalSel
          (op2Field iw).toInt with
      | none => .error (decPixelError .invalidOperand w i 2)
      | some c2 => .ok (hsvWord (Config.slotWidth * (opcodeField iw).toNat) c1 c2)
  else .error (decPixelError .reservedOpcode w i (opcodeField iw).toNat)

/-- The pixels of the instruction words from index `i` on; the first failure ends the call (R113, R117). -/
def encodePixels (w : Nat) (i : Nat) : List IWord → Except DecError (List Word)
  | [] => .ok []
  | iw :: ins =>
    match encodePixel w i iw with
    | .error e => .error e
    | .ok p =>
      match encodePixels w (i + 1) ins with
      | .error e => .error e
      | .ok rest => .ok (p :: rest)

/-- `ceil(len / w)` of R6 and R113. -/
def gridHeight (len w : Nat) : Nat := (len + w - 1) / w

/-- The encode of an instruction list (R112, R113): the height and the grid, padded with black (R114), or the one
error. -/
def encodeGrid (ins : List IWord) (w : Nat) : Except DecError (Nat × List Word) :=
  if w = 0 ∨ Config.maxSide < w then .error (decCallError .badDimensions 0)
  else if ins.length = 0 then .error (decCallError .badDimensions 2)
  else if Config.maxSide < gridHeight ins.length w then .error (decCallError .badDimensions 1)
  else
    match encodePixels w 0 ins with
    | .error e => .error e
    | .ok px =>
      .ok (gridHeight ins.length w, px ++ List.replicate (w * gridHeight ins.length w - ins.length) paddingPixel)

end Sys2Proof.Machine
end

