-- ==== Sys2Proof/Machine/PaletteRle.lean ====
section
/-! DEFINITION. The palette-RLE codec COD (spec/48_codec.md R210 to R233): palette reduction, row-wise run-length
encoding, the three methods, the artifact as words and bytes, and the decoder with its error record. -/

namespace Sys2Proof.Machine

/-- The codes of R228; 0 is no error. -/
def CodCode.code : CodCode → BitVec 8
  | .lengthMismatch => 1
  | .badMethod => 2
  | .badDimensions => 3
  | .badCounts => 4
  | .indexOutOfRange => 5
  | .badRunLength => 6
  | .runTotalMismatch => 7
  | .checksumMismatch => 8

/-- A word index as the error record holds it, 32 bits (R228); past that the spec gives no value (DESIGN CHOICE, safe,
log 15). -/
def indexWord (n : Nat) : Word := if n < 4294967296 then BitVec.ofNat 32 n else Config.wideIndex n

/-- A COD error record (R228). -/
def codFail (c : CodCode) (index : Nat) : CodError := { code := c.code, index := indexWord index }

/-- The record of a COD call that succeeded (R228, row 0). -/
def codSuccess : CodError := { code := 0, index := 0 }

/-- The place of the first entry equal to `p` (R213). -/
def placeOf (p : Word) : List Word → Option Nat
  | [] => none
  | q :: pal => if p = q then some 0 else (placeOf p pal).map (· + 1)

/-- `palette_reduce` from a palette already collected (R213). -/
def paletteFrom (pal : List Word) : List Word → List Word × List Nat
  | [] => (pal, [])
  | p :: g =>
    match placeOf p pal with
    | some j => ((paletteFrom pal g).1, j :: (paletteFrom pal g).2)
    | none => ((paletteFrom (pal ++ [p]) g).1, pal.length :: (paletteFrom (pal ++ [p]) g).2)

/-- `palette_reduce(g)` (R213): the distinct pixels in first-seen order, and every pixel's index. -/
def paletteReduce (g : List Word) : List Word × List Nat := paletteFrom [] g

/-- The maximal runs of one row (R214). -/
def rowRuns : List Word → List (Word × Nat)
  | [] => []
  | v :: rest =>
    match rowRuns rest with
    | [] => [(v, 1)]
    | (u, n) :: runs => if v = u then (v, n + 1) :: runs else (v, 1) :: (u, n) :: runs

/-- `rle_encode(s, w)` over `h` rows (R214): runs never cross a row end. -/
def rleEncode (w : Nat) : Nat → List Word → List (Word × Nat)
  | 0, _ => []
  | h + 1, s => rowRuns (s.take w) ++ rleEncode w h (s.drop w)

/-- Palette indices as words (R217, R219). -/
def indexWords (idx : List Nat) : List Word := idx.map (BitVec.ofNat 32)

/-- `hybrid_encode(g)` (R215): the palette and the runs of its indices. -/
def hybridEncode (w h : Nat) (g : List Word) : List Word × List (Word × Nat) :=
  ((paletteReduce g).1, rleEncode w h (indexWords (paletteReduce g).2))

/-- Runs as body words: value, then length (R218, R219). -/
def runWords : List (Word × Nat) → List Word
  | [] => []
  | (v, n) :: runs => v :: BitVec.ofNat 32 n :: runWords runs

/-- The integrity word (R216): the sum of all pixel words modulo 2^32. -/
def checkWord : List Word → Word
  | [] => 0
  | p :: g => p + checkWord g

/-- The three methods (R212). -/
inductive Method where
  | palette
  | rle
  | hybrid
deriving DecidableEq, Repr

/-- The method word of R212; `none` above 2. -/
def methodOfWord (m : Word) : Option Method :=
  if m = 0 then some .palette else if m = 1 then some .rle else if m = 2 then some .hybrid else none

/-- `A[0]` (R212). -/
def Method.word : Method → Word
  | .palette => 0
  | .rle => 1
  | .hybrid => 2

/-- The artifact's words (R212): header, palette, body. -/
def artifactWords (m : Method) (w h : Word) (pal : List Word) (items : Nat) (check : Word) (body : List Word) : List Word :=
  m.word :: w :: h :: BitVec.ofNat 32 pal.length :: BitVec.ofNat 32 items :: check :: (pal ++ body)

/-- The artifact of a grid by method (R217, R218, R219). -/
def buildArtifact (m : Method) (w h : Word) (g : List Word) : List Word :=
  match m with
  | .palette =>
    artifactWords .palette w h (paletteReduce g).1 (paletteReduce g).2.length (checkWord g)
      (indexWords (paletteReduce g).2)
  | .rle =>
    artifactWords .rle w h [] (rleEncode w.toNat h.toNat g).length (checkWord g)
      (runWords (rleEncode w.toNat h.toNat g))
  | .hybrid =>
    artifactWords .hybrid w h (hybridEncode w.toNat h.toNat g).1 (hybridEncode w.toNat h.toNat g).2.length (checkWord g)
      (runWords (hybridEncode w.toNat h.toNat g).2)

/-- Words as bytes, least significant byte first (R41, R212). -/
def bytesOfWords : List Word → List Byte
  | [] => []
  | w :: ws => bytesOfWord w ++ bytesOfWords ws

/-- Bytes as words (R41, R222), when their number is a multiple of 4. -/
def wordsOfBytes : List Byte → List Word
  | b0 :: b1 :: b2 :: b3 :: rest => wordOfBytes b0 b1 b2 b3 :: wordsOfBytes rest
  | _ => []

/-- A side no grid has (R220, R223). -/
def badSide (n : Word) : Bool := decide (n = 0 ∨ Config.maxSide < n.toNat)

/-- `cod_encode(method, w, h, g)` (R220). -/
def codEncode (method w h : Word) (g : List Word) : Except CodError (List Byte) :=
  match methodOfWord method with
  | none => .error (codFail .badMethod 0)
  | some m =>
    if badSide w then .error (codFail .badDimensions 1)
    else if badSide h then .error (codFail .badDimensions 2)
    else if g.length ≠ w.toNat * h.toNat then .error (codFail .lengthMismatch (g.length % 4294967296))
    else .ok (bytesOfWords (buildArtifact m w h g))

/-- The palette entry an index word names, `b` being the word's own position (R226). -/
def paletteEntry (pal : List Word) (b : Nat) (j : Word) : Except CodError Word :=
  match pal[j.toNat]? with
  | some p => .ok p
  | none => .error (codFail .indexOutOfRange b)

/-- The body scan of method 0 (R226), `b` being the position of the next body word. -/
def scanIndices (pal : List Word) (b : Nat) : List Word → Except CodError (List Word)
  | [] => .ok []
  | j :: body =>
    match paletteEntry pal b j with
    | .error e => .error e
    | .ok p =>
      match scanIndices pal (b + 1) body with
      | .error e => .error e
      | .ok g => .ok (p :: g)

/-- The body scan of methods 1 and 2 (R226): `value` reads a run's pixel (R226), `total` is `w·h`, `words` the artifact's
length, `b` the position of the next body word and `t` the pixels filled so far. A body is a whole number of runs (R225). -/
def scanRuns (value : Nat → Word → Except CodError Word) (total words b t : Nat) : List Word → Except CodError (List Word)
  | v :: len :: body =>
    match value b v with
    | .error e => .error e
    | .ok p =>
      if len = 0 then .error (codFail .badRunLength (b + 1))
      else if total < t + len.toNat then .error (codFail .runTotalMismatch (b + 1))
      else
        match scanRuns value total words (b + 2) (t + len.toNat) body with
        | .error e => .error e
        | .ok g => .ok (List.replicate len.toNat p ++ g)
  | _ => if t ≠ total then .error (codFail .runTotalMismatch words) else .ok []

/-- The expected length of the artifact (R225). -/
def expectedLength (m : Method) (p n : Nat) : Nat :=
  match m with
  | .palette => 6 + p + n
  | .rle => 6 + p + 2 * n
  | .hybrid => 6 + p + 2 * n

/-- The checks on the counts (R223): the position of the word that fails. -/
def countsError (m : Method) (total p n : Nat) : Option Nat :=
  match m with
  | .palette => if p = 0 ∨ total < p then some 3 else if n ≠ total then some 4 else none
  | .rle => if p ≠ 0 then some 3 else if n = 0 ∨ total < n then some 4 else none
  | .hybrid => if p = 0 ∨ total < p then some 3 else if n = 0 ∨ total < n then some 4 else none

/-- The body scan by method (R226); `rest` is the palette and the body. -/
def expandBody (m : Method) (total words p : Nat) (rest : List Word) : Except CodError (List Word) :=
  match m with
  | .palette => scanIndices (rest.take p) (6 + p) (rest.drop p)
  | .rle => scanRuns (fun _ v => .ok v) total words (6 + p) 0 (rest.drop p)
  | .hybrid => scanRuns (paletteEntry (rest.take p)) total words (6 + p) 0 (rest.drop p)

/-- The decode of an artifact's words (R222 to R227). -/
def decodeArtifact (a : List Word) : Except CodError (Word × Word × List Word) :=
  match a with
  | mw :: w :: h :: p :: n :: check :: rest =>
    match methodOfWord mw with
    | none => .error (codFail .badMethod 0)
    | some m =>
      if badSide w then .error (codFail .badDimensions 1)
      else if badSide h then .error (codFail .badDimensions 2)
      else
        match countsError m (w.toNat * h.toNat) p.toNat n.toNat with
        | some j => .error (codFail .badCounts j)
        | none =>
          if a.length ≠ expectedLength m p.toNat n.toNat then .error (codFail .lengthMismatch a.length)
          else
            match expandBody m (w.toNat * h.toNat) a.length p.toNat rest with
            | .error e => .error e
            | .ok g => if checkWord g ≠ check then .error (codFail .checksumMismatch 5) else .ok (w, h, g)
  | _ => .error (codFail .lengthMismatch a.length)

/-- `cod_decode(bytes)` (R222): the framing check first of all. -/
def codDecode (bytes : List Byte) : Except CodError (Word × Word × List Word) :=
  if bytes.length % 4 ≠ 0 then .error (codFail .lengthMismatch (bytes.length / 4))
  else decodeArtifact (wordsOfBytes bytes)

/-- The source's text form of an artifact, for reference only (R232): the hardware does not read or write it. A palette
entry is its three components in tenths; `runs` is given for the hybrid method alone. -/
structure TextForm where
  dims : Word × Word
  palette : List (Nat × Nat × Nat)
  runs : Option (List (Word × Word))
  method : String
deriving DecidableEq, Repr

/-- The name of a method (R212, R232). -/
def Method.name : Method → String
  | .palette => "palette"
  | .rle => "rle"
  | .hybrid => "hybrid"

/-- Body words taken two by two (R232). -/
def wordPairs : List Word → List (Word × Word)
  | a :: b :: rest => (a, b) :: wordPairs rest
  | _ => []

/-- The text form of an artifact's words (R232). -/
def textForm (a : List Word) : Option TextForm :=
  match a with
  | mw :: w :: h :: p :: _ :: _ :: rest =>
    (methodOfWord mw).map fun m =>
      { dims := (w, h)
        palette := (rest.take p.toNat).map fun c =>
          ((c.extractLsb' 20 12).toNat, (c.extractLsb' 10 10).toNat, (c.extractLsb' 0 10).toNat)
        runs := if m = .hybrid then some (wordPairs (rest.drop p.toNat)) else none
        method := m.name }
  | _ => none

end Sys2Proof.Machine
end

