-- ==== Sys2Proof/Machine/Flags.lean ====
section
/-! DEFINITION. The machine has no flags, no condition codes and no predicate registers (spec/10_state.md R31). What
other machines flag is checked here: overflow of the exact result (spec/43_arithmetic.md R166), and the test of a general
register that stands in for a condition (spec/45_control.md R182, R183). -/

namespace Sys2Proof.Machine

/-- `fits32` of R7: the exact result can be held in a register. -/
def fits32 (v : Int) : Bool := decide (intMin ≤ v ∧ v ≤ intMax)

/-- The condition of `JZ`, and its negation that of `JNZ` (R182, R183). -/
def isZero (v : Word) : Bool := decide (v.toInt = 0)

end Sys2Proof.Machine
end

