-- ==== Sys2Proof/Machine/Cells.lean ====
section
/-! DEFINITION. Stores of addressed elements in one canonical form: the data memory and the call stack (cells that read 0
when nothing is listed, spec/20_memory.md R45) and the program store (spec/20_memory.md R40). -/

namespace Sys2Proof.Machine

/-- The element listed at address `a`. -/
def sparseGet? {α : Type} (m : Sparse α) (a : Nat) : Option α :=
  match m with
  | [] => none
  | (b, v) :: rest => if a = b then some v else sparseGet? rest a

/-- List `v` at address `a`, in place of what was listed there. -/
def sparseSet {α : Type} (m : Sparse α) (a : Nat) (v : α) : Sparse α :=
  match m with
  | [] => [(a, v)]
  | (b, u) :: rest =>
    if a < b then (a, v) :: (b, u) :: rest
    else if a = b then (a, v) :: rest
    else (b, u) :: sparseSet rest a v

/-- List nothing at address `a`. -/
def sparseErase {α : Type} (m : Sparse α) (a : Nat) : Sparse α :=
  match m with
  | [] => []
  | (b, u) :: rest => if a = b then sparseErase rest a else (b, u) :: sparseErase rest a

/-- Every listed address is at least `lo` and below `limit`, and the addresses rise strictly. -/
def sparseRising {α : Type} (lo limit : Nat) (m : Sparse α) : Bool :=
  match m with
  | [] => true
  | (b, _) :: rest => decide (lo ≤ b ∧ b < limit) && sparseRising (b + 1) limit rest

/-- What a cell that is not listed reads as: 0, its value at reset (R33, R45; log 1, log 2). -/
def unlistedCell : Word := 0#32

/-- The content of cell `a` (R45). -/
def Memory.read (m : Memory) (a : Nat) : Word := (sparseGet? m a).getD unlistedCell

/-- Cell `a` takes `v` (R44); a cell that takes what an unlisted one reads as is not listed. -/
def Memory.write (m : Memory) (a : Nat) (v : Word) : Memory :=
  if v = unlistedCell then sparseErase m a else sparseSet m a v

/-- The canonical form of a memory of `limit` cells: addresses strictly rising and below `limit`, no cell listed with the
value an unlisted one reads as. -/
def Memory.wf (limit : Nat) (m : Memory) : Bool :=
  sparseRising 0 limit m && m.all (fun c => decide (c.2 ≠ unlistedCell))

end Sys2Proof.Machine
end

