-- ==== Sys2Proof/Machine/Ops.lean ====
section
/-! DEFINITION. The named operations every instruction rule uses (spec/00_scope.md R7): registers, data memory, the call
stack, output, completion, and taking a fault (spec/60_exceptions.md R256). There is no return from a fault (R258). -/

namespace Sys2Proof.Machine

/-- The outcome of a step of this machine. -/
abbrev Result := Host.Outcome State Fault Refusal

/-- `x[r]` (R7, R11). -/
def State.reg (s : State) (r : Fin 16) : Word := s.x[r.val]

/-- `x[r] <- v` (R7, R11). No register is hardwired. -/
def State.setReg (s : State) (r : Fin 16) (v : Word) : State := { s with x := s.x.set r.val v }

/-- The content of data-memory cell `a` (R16, R44). -/
def State.cell (s : State) (a : Nat) : Word := Memory.read s.mem a

/-- Data-memory cell `a` takes `v` (R16, R44). -/
def State.setCell (s : State) (a : Nat) (v : Word) : State := { s with mem := Memory.write s.mem a v }

/-- Call-stack entry `n` (R17). -/
def State.entry (s : State) (n : Nat) : Word := Memory.read s.cs n

/-- `push` of R17, the stack not being full: `cs[sp] <- v ; sp <- sp + 1`. -/
def State.push (s : State) (v : Word) : State :=
  { s with cs := Memory.write s.cs s.sp.toNat v, sp := s.sp + 1 }

/-- `pop` of R17, the stack not being empty: `sp <- sp - 1`; the value popped is `s.entry (s.sp.toNat - 1)`. -/
def State.pop (s : State) : State := { s with sp := s.sp - 1 }

/-- `emit(tag, v)` (R7, R19): the element is appended to the output and handed to the sink in this step (R300). -/
def State.emit (s : State) (tag : OutTag) (v : Word) : State := { s with out := s.out ++ [{ tag := tag, value := v }] }

/-- The cause codes of R251; 0 is no fault. -/
def Cause.code : Cause → BitVec 8
  | .invalidOpcode => 1
  | .registerOutOfBounds => 2
  | .memoryOutOfBounds => 3
  | .divideByZero => 4
  | .stackOverflow => 5
  | .stackUnderflow => 6
  | .invalidJumpTarget => 7
  | .pcOutOfRange => 8
  | .arithmeticOverflow => 9
  | .invalidOperand => 10
  | .invalidProgram => 11

/-- `aux` as a signed 32-bit integer (R21, R256). An unsigned value from 2^31 to 2^32 - 1 is stored as its bit pattern
(DESIGN CHOICE, unsafe, log 14); one that no 32-bit pattern stands for, read as signed or as unsigned, is a free value
(DESIGN CHOICE, safe, log 14). -/
def auxWord (v : Int) : Word :=
  if -2147483648 ≤ v ∧ v < 4294967296 then BitVec.ofInt 32 v else Config.wideAux v

/-- The fault record of R21 and R256: `iw?` is the instruction word, if one was fetched. -/
def faultRecord (iw? : Option IWord) (c : Cause) (aux : Int) (pc : Word) : FaultRecord :=
  match iw? with
  | some iw => { cause := c.code, pc := pc, posValid := true, x := xField iw, y := yField iw, iw := iw, aux := auxWord aux }
  | none => { cause := c.code, pc := pc, posValid := false, x := 0, y := 0, iw := 0, aux := auxWord aux }

/-- Taking a fault (R256): the record is written and `state` becomes Faulted; everything else keeps its value, `pc` and
`cycles` among it. There is no handler and no vector. -/
def enterFault (iw? : Option IWord) (c : Cause) (aux : Int) (s : State) : State :=
  { s with fault := faultRecord iw? c aux s.pc, state := .faulted }

/-- `raise <Cause>(aux)` in the instruction `i` (R7, R256). The word fetched is the instruction's own (log 13). -/
def raise (i : Instr) (c : Cause) (aux : Int) (s : State) : Result :=
  .next (enterFault (some (encode i)) c aux s)

/-- Completion of an instruction that does not redirect (R14, R135): `pc <- pc + 1`, `cycles <- cycles + 1`. -/
def complete (s : State) : Result := .next { s with pc := s.pc + 1, cycles := s.cycles + 1 }

/-- Completion of an instruction that redirects to `t` (R14, R135). -/
def completeAt (t : Word) (s : State) : Result := .next { s with pc := t, cycles := s.cycles + 1 }

/-- Completion of `HALT` (R135, R151): `pc` keeps its value, `cycles <- cycles + 1`, `state <- Halted`. -/
def completeHalt (s : State) : Result := .next { s with cycles := s.cycles + 1, state := .halted }

/-- `in_idx <- in_idx + 1` (R22, R193); past its 32 bits the spec gives no value (DESIGN CHOICE, safe, log 16). -/
def nextInIdx (n : Word) : Word := if n = 4294967295#32 then Config.inIdxPastMax else n + 1

/-- The value `INPUT` reads next, if a source is attached and not exhausted (R193). -/
def State.nextInput (s : State) : Option Word :=
  match s.inp with
  | some vs => vs[s.inIdx.toNat]?
  | none => none

/-- The handle's answer to the transaction `(k, a, b)` (R201): the next of the answers the host has fixed, and a free
value once they are used up (DESIGN CHOICE, safe, log 6). -/
def State.handleAnswer (s : State) (k : Fin 5) (a b : Word) : Word × Word :=
  match s.answers with
  | ans :: _ => ans
  | [] => Config.handleAnswer s.requests.length k.val a b

/-- One transaction with the handle (R201): the request is made and the answer is used up. -/
def State.transact (s : State) (k : Fin 5) (a b : Word) : State :=
  { s with answers := s.answers.tail, requests := s.requests ++ [{ k := k, a := a, b := b }] }

end Sys2Proof.Machine
end

