-- ==== Sys2Proof/Machine/Operands.lean ====
section
/-! DEFINITION. The operand forms of the VM (spec/30_encoding.md R68, R70; spec/44_memory_ops.md R173;
spec/45_control.md R180): each check raises the fault its rule names, or goes on with the value checked. Every check is
made before the instruction's first write (spec/60_exceptions.md R253). -/

namespace Sys2Proof.Machine

/-- `op1`, `op2` of R7: the operand field read as signed 16 bits. -/
def opValue (op : Operand) : Int := op.toInt

/-- The register a REG operand names, if `regchk` passes (R7). -/
def regIndex (op : Operand) : Option (Fin 16) :=
  if h : 0 ≤ opValue op ∧ opValue op ≤ 15 then some ⟨(opValue op).toNat, by omega⟩ else none

/-- `regchk(op)` in the instruction `i`, then `k` with the register (R7). -/
def withReg (i : Instr) (op : Operand) (s : State) (k : Fin 16 → Result) : Result :=
  match regIndex op with
  | some r => k r
  | none => raise i .registerOutOfBounds (opValue op) s

/-- The output tag a SEL operand selects: 0 `int`, 1 `chr` (R190). -/
def selTag (op : Operand) : Option OutTag :=
  if opValue op = 0 then some .int else if opValue op = 1 then some .chr else none

/-- The selector check of `PRINT` and `PRINTI`, then `k` with the tag (R191, R192). -/
def withSel (i : Instr) (op : Operand) (s : State) (k : OutTag → Result) : Result :=
  match selTag op with
  | some t => k t
  | none => raise i .invalidOperand (opValue op) s

/-- An immediate as a register value: it always fits (R70, R153). -/
def immWord (op : Operand) : Word := BitVec.ofInt 32 (opValue op)

/-- The data-memory cell a signed address names, if it exists (R7, R43): never wrapped or masked. -/
def cellIndex (a : Int) : Option Nat :=
  if 0 ≤ a ∧ a ≤ 1023 then some a.toNat else none

/-- The bounds check of `MemRead` and `MemWrite` (R7, R43), then `k` with the cell. -/
def withCell (i : Instr) (a : Int) (s : State) (k : Nat → Result) : Result :=
  match cellIndex a with
  | some n => k n
  | none => raise i .memoryOutOfBounds a s

/-- The checks of `resolve_pos` (R180 (a)): the target index, or the `aux` of the `InvalidJumpTarget` fault. -/
def resolvePos (hdr : Header) (tx ty : Int) : Except Int Nat :=
  if tx < 0 ∨ ty < 0 then .error (-1)
  else if (hdr.width.toNat : Int) ≤ tx ∨ (hdr.height.toNat : Int) ≤ ty then .error (ty * 4096 + tx)
  else if (hdr.length.toNat : Int) ≤ ty * hdr.width.toNat + tx then .error (ty * hdr.width.toNat + tx)
  else .ok (ty * hdr.width.toNat + tx).toNat

/-- The target of a position-form jump (R180 (a)), then `k` with it. -/
def withPosTarget (i : Instr) (tx ty : Operand) (s : State) (k : Word → Result) : Result :=
  match resolvePos s.hdr (opValue tx) (opValue ty) with
  | .ok t => k (BitVec.ofNat 32 t)
  | .error aux => raise i .invalidJumpTarget aux s

/-- The target of an address-form jump that is taken (R180 (b)), then `k` with it. -/
def withAddrTarget (i : Instr) (addr : Operand) (s : State) (k : Word → Result) : Result :=
  if 0 ≤ opValue addr ∧ opValue addr < s.hdr.length.toNat then k (BitVec.ofInt 32 (opValue addr))
  else raise i .invalidJumpTarget (opValue addr) s

/-- The exact result `r` of an arithmetic instruction is written to `x[rd]` if it fits, else `ArithmeticOverflow(0)`
(R166). -/
def writeExact (i : Instr) (rd : Fin 16) (r : Int) (s : State) : Result :=
  if fits32 r then complete (s.setReg rd (BitVec.ofInt 32 r)) else raise i .arithmeticOverflow 0 s

/-- The checks every arithmetic instruction makes first (R160): `regchk(op1)`, then `regchk(op2)`. -/
def withRegPair (i : Instr) (op1 op2 : Operand) (s : State) (k : Fin 16 → Fin 16 → Result) : Result :=
  withReg i op1 s fun ra => withReg i op2 s fun rb => k ra rb

end Sys2Proof.Machine
end

