-- ==== Sys2Proof/Machine/Arithmetic.lean ====
section
/-! DEFINITION. The arithmetic instructions (spec/43_arithmetic.md R160 to R167), on the exact signed integers. -/

namespace Sys2Proof.Machine

/-- `ADD rd, rs` (R161). -/
def execAdd (rd rs : Operand) (pos : Pos) (s : State) : Result :=
  withRegPair (.add rd rs pos) rd rs s fun a b =>
    writeExact (.add rd rs pos) a ((s.reg a).toInt + (s.reg b).toInt) s

/-- `SUB rd, rs` (R162). -/
def execSub (rd rs : Operand) (pos : Pos) (s : State) : Result :=
  withRegPair (.sub rd rs pos) rd rs s fun a b =>
    writeExact (.sub rd rs pos) a ((s.reg a).toInt - (s.reg b).toInt) s

/-- `MUL rd, rs` (R163). -/
def execMul (rd rs : Operand) (pos : Pos) (s : State) : Result :=
  withRegPair (.mul rd rs pos) rd rs s fun a b =>
    writeExact (.mul rd rs pos) a ((s.reg a).toInt * (s.reg b).toInt) s

/-- The quotient rounded toward zero (R167). -/
def truncQuot (a b : Int) : Int := Int.tdiv a b

/-- The remainder that goes with it: zero, or of the dividend's sign (R167). -/
def truncRem (a b : Int) : Int := a - b * truncQuot a b

/-- `DivideByZero(0)` if the divisor is 0, before overflow is looked at (R160, R164, R165). -/
def withDivisor (i : Instr) (b : Int) (s : State) (k : Result) : Result :=
  if b = 0 then raise i .divideByZero 0 s else k

/-- `DIV rd, rs` (R164, R167). -/
def execDiv (rd rs : Operand) (pos : Pos) (s : State) : Result :=
  withRegPair (.div rd rs pos) rd rs s fun a b =>
    withDivisor (.div rd rs pos) (s.reg b).toInt s
      (writeExact (.div rd rs pos) a (truncQuot (s.reg a).toInt (s.reg b).toInt) s)

/-- `MOD rd, rs` (R165, R167). It cannot overflow. -/
def execMod (rd rs : Operand) (pos : Pos) (s : State) : Result :=
  withRegPair (.mod rd rs pos) rd rs s fun a b =>
    withDivisor (.mod rd rs pos) (s.reg b).toInt s
      (complete (s.setReg a (BitVec.ofInt 32 (truncRem (s.reg a).toInt (s.reg b).toInt))))

end Sys2Proof.Machine
end

