-- ==== Sys2Proof/Machine/Control.lean ====
section
/-! DEFINITION. The control-flow instructions (spec/45_control.md R180 to R185). -/

namespace Sys2Proof.Machine

/-- `JMP (tx, ty)` (R181). -/
def execJmp (tx ty : Operand) (pos : Pos) (s : State) : Result :=
  withPosTarget (.jmp tx ty pos) tx ty s fun t => completeAt t s

/-- `JZ rs, @addr` (R182): the target is checked only when the branch is taken. -/
def execJz (rs addr : Operand) (pos : Pos) (s : State) : Result :=
  withReg (.jz rs addr pos) rs s fun r =>
    if isZero (s.reg r) then withAddrTarget (.jz rs addr pos) addr s fun t => completeAt t s
    else complete s

/-- `JNZ rs, @addr` (R183): the target is checked only when the branch is taken. -/
def execJnz (rs addr : Operand) (pos : Pos) (s : State) : Result :=
  withReg (.jnz rs addr pos) rs s fun r =>
    if isZero (s.reg r) then complete s
    else withAddrTarget (.jnz rs addr pos) addr s fun t => completeAt t s

/-- `CALL (tx, ty)` (R184): the target first, then `push(pc + 1)`. -/
def execCall (tx ty : Operand) (pos : Pos) (s : State) : Result :=
  withPosTarget (.call tx ty pos) tx ty s fun t =>
    if s.sp = 256#9 then raise (.call tx ty pos) .stackOverflow s.sp.toNat s
    else completeAt t (s.push (s.pc + 1))

/-- `RET` (R185): the popped value is not checked. -/
def execRet (u1 u2 : Operand) (pos : Pos) (s : State) : Result :=
  if s.sp = 0#9 then raise (.ret u1 u2 pos) .stackUnderflow s.sp.toNat s
  else completeAt (s.entry (s.sp.toNat - 1)) s.pop

end Sys2Proof.Machine
end

