-- ==== Sys2Proof/Machine/Extension.lean ====
section
/-! DEFINITION. The extension band (spec/47_extension.md R200 to R208). -/

namespace Sys2Proof.Machine

/-- The host transaction `HOSTk ra, rb` (R201): the register checks are made with or without a handle; without one
nothing else happens; with one, both answers are written, the second write the later one. -/
def hostTransaction (k : Fin 5) (i : Instr) (op1 op2 : Operand) (s : State) : Result :=
  withRegPair i op1 op2 s fun ra rb =>
    if s.hasHandle then
      complete (((s.transact k (s.reg ra) (s.reg rb)).setReg ra (s.handleAnswer k (s.reg ra) (s.reg rb)).1).setReg rb
        (s.handleAnswer k (s.reg ra) (s.reg rb)).2)
    else complete s

/-- `HOST0 ra, rb` (R202). -/
def execHost0 (ra rb : Operand) (pos : Pos) (s : State) : Result := hostTransaction 0 (.host0 ra rb pos) ra rb s

/-- `HOST1 ra, rb` (R203). -/
def execHost1 (ra rb : Operand) (pos : Pos) (s : State) : Result := hostTransaction 1 (.host1 ra rb pos) ra rb s

/-- `HOST2 ra, rb` (R204). -/
def execHost2 (ra rb : Operand) (pos : Pos) (s : State) : Result := hostTransaction 2 (.host2 ra rb pos) ra rb s

/-- `HOST3 ra, rb` (R205). -/
def execHost3 (ra rb : Operand) (pos : Pos) (s : State) : Result := hostTransaction 3 (.host3 ra rb pos) ra rb s

/-- `HOST4 ra, rb` (R206). -/
def execHost4 (ra rb : Operand) (pos : Pos) (s : State) : Result := hostTransaction 4 (.host4 ra rb pos) ra rb s

/-- `NETHOOK` (R207): a no-op hook, with or without a handle. -/
def execNethook (_u1 _u2 : Operand) (_pos : Pos) (s : State) : Result := complete s

end Sys2Proof.Machine
end

