-- ==== Sys2Proof/Machine/InputOutput.lean ====
section
/-! DEFINITION. The I/O instructions (spec/46_io.md R190 to R193). -/

namespace Sys2Proof.Machine

/-- `PRINT rs, fmt` (R191). -/
def execPrint (rs fmt : Operand) (pos : Pos) (s : State) : Result :=
  withReg (.print rs fmt pos) rs s fun r =>
    withSel (.print rs fmt pos) fmt s fun t => complete (s.emit t (s.reg r))

/-- `PRINTI fmt, #imm` (R192). -/
def execPrinti (fmt imm : Operand) (pos : Pos) (s : State) : Result :=
  withSel (.printi fmt imm pos) fmt s fun t => complete (s.emit t (immWord imm))

/-- `INPUT rd` (R193): with no source, or an exhausted one, nothing but the completion. -/
def execInput (rd u2 : Operand) (pos : Pos) (s : State) : Result :=
  withReg (.input rd u2 pos) rd s fun r =>
    match s.nextInput with
    | some v => complete { s.setReg r v with inIdx := nextInIdx s.inIdx }
    | none => complete s

end Sys2Proof.Machine
end

