-- ==== Sys2Proof/Machine/MemoryOps.lean ====
section
/-! DEFINITION. The memory instructions (spec/44_memory_ops.md R170 to R173). -/

namespace Sys2Proof.Machine

/-- `LOAD rd, [addr]` (R170): direct address. -/
def execLoad (rd addr : Operand) (pos : Pos) (s : State) : Result :=
  withReg (.load rd addr pos) rd s fun r =>
    withCell (.load rd addr pos) (opValue addr) s fun a => complete (s.setReg r (s.cell a))

/-- `STORE rs, [addr]` (R171): direct address. -/
def execStore (rs addr : Operand) (pos : Pos) (s : State) : Result :=
  withReg (.store rs addr pos) rs s fun r =>
    withCell (.store rs addr pos) (opValue addr) s fun a => complete (s.setCell a (s.reg r))

/-- `COPY [rd], [rs]` (R172): both addresses are register values; the source is checked first. -/
def execCopy (rd rs : Operand) (pos : Pos) (s : State) : Result :=
  withRegPair (.copy rd rs pos) rd rs s fun a b =>
    withCell (.copy rd rs pos) (s.reg b).toInt s fun src =>
      withCell (.copy rd rs pos) (s.reg a).toInt s fun dst => complete (s.setCell dst (s.cell src))

end Sys2Proof.Machine
end

