-- ==== Sys2Proof/Machine/SystemData.lean ====
section
/-! DEFINITION. The system and data-literal instructions (spec/42_system_data.md R150 to R153). -/

namespace Sys2Proof.Machine

/-- `NOP` (R150). -/
def execNop (_u1 _u2 : Operand) (_pos : Pos) (s : State) : Result := complete s

/-- `HALT` (R151). -/
def execHalt (_u1 _u2 : Operand) (_pos : Pos) (s : State) : Result := completeHalt s

/-- `DEBUG` (R152): the event `(pc, x, y)` is recorded; the machine does not stop. -/
def execDebug (_u1 _u2 : Operand) (pos : Pos) (s : State) : Result :=
  complete { s with dbg := s.dbg ++ [{ pc := s.pc, x := pos.x, y := pos.y }] }

/-- `LIT rd, #imm` (R153). -/
def execLit (rd imm : Operand) (pos : Pos) (s : State) : Result :=
  withReg (.lit rd imm pos) rd s fun r => complete (s.setReg r (immWord imm))

end Sys2Proof.Machine
end

