-- ==== Sys2Proof/Machine/Dispatch.lean ====
section
/-! DEFINITION. The dispatch on the instruction (spec/41_vm_cycle.md R134): one arm per constructor of `Instr`. -/

namespace Sys2Proof.Machine

def exec (i : Instr) (s : State) : Host.Outcome State Fault Refusal :=
  match i with
  | .nop u1 u2 pos => Sys2Proof.Machine.execNop u1 u2 pos s
  | .halt u1 u2 pos => Sys2Proof.Machine.execHalt u1 u2 pos s
  | .debug u1 u2 pos => Sys2Proof.Machine.execDebug u1 u2 pos s
  | .lit rd imm pos => Sys2Proof.Machine.execLit rd imm pos s
  | .add rd rs pos => Sys2Proof.Machine.execAdd rd rs pos s
  | .sub rd rs pos => Sys2Proof.Machine.execSub rd rs pos s
  | .mul rd rs pos => Sys2Proof.Machine.execMul rd rs pos s
  | .div rd rs pos => Sys2Proof.Machine.execDiv rd rs pos s
  | .mod rd rs pos => Sys2Proof.Machine.execMod rd rs pos s
  | .load rd addr pos => Sys2Proof.Machine.execLoad rd addr pos s
  | .store rs addr pos => Sys2Proof.Machine.execStore rs addr pos s
  | .copy rd rs pos => Sys2Proof.Machine.execCopy rd rs pos s
  | .jmp tx ty pos => Sys2Proof.Machine.execJmp tx ty pos s
  | .jz rs addr pos => Sys2Proof.Machine.execJz rs addr pos s
  | .jnz rs addr pos => Sys2Proof.Machine.execJnz rs addr pos s
  | .call tx ty pos => Sys2Proof.Machine.execCall tx ty pos s
  | .ret u1 u2 pos => Sys2Proof.Machine.execRet u1 u2 pos s
  | .print rs fmt pos => Sys2Proof.Machine.execPrint rs fmt pos s
  | .printi fmt imm pos => Sys2Proof.Machine.execPrinti fmt imm pos s
  | .input rd u2 pos => Sys2Proof.Machine.execInput rd u2 pos s
  | .host0 ra rb pos => Sys2Proof.Machine.execHost0 ra rb pos s
  | .host1 ra rb pos => Sys2Proof.Machine.execHost1 ra rb pos s
  | .host2 ra rb pos => Sys2Proof.Machine.execHost2 ra rb pos s
  | .host3 ra rb pos => Sys2Proof.Machine.execHost3 ra rb pos s
  | .host4 ra rb pos => Sys2Proof.Machine.execHost4 ra rb pos s
  | .nethook u1 u2 pos => Sys2Proof.Machine.execNethook u1 u2 pos s

end Sys2Proof.Machine
end

