-- ==== Sys2Proof/Machine/RunControl.lean ====
section
/-! DEFINITION. The VM's run control (spec/41_vm_cycle.md R130 to R137) and VM reset (spec/70_reset_and_hazards.md R290).
One turn of a `run` call is one turn of R132's loop (log 8). -/

namespace Sys2Proof.Machine

/-- `ProgRead(i)` (R7): the instruction word at index `i`; a word that nothing has written is a free value (U2, log 4). -/
def progRead (s : State) (i : Nat) : IWord :=
  match sparseGet? s.prog i with
  | some w => w
  | none => Config.unwrittenWord s.storeGen i

/-- The fetch (R133): `none` when `pc` is outside the program. -/
def fetch (s : State) : Option IWord :=
  if s.hdr.length.toNat ≤ s.pc.toNat then none else some (progRead s s.pc.toNat)

/-- `step()` of R132: fetch (R133), dispatch (R134), execution. -/
def vmCycle (s : State) : Result :=
  match fetch s with
  | none => .next (enterFault none .pcOutOfRange s.pc.toNat s)
  | some w =>
    match decode w with
    | .ok i => exec i s
    | .error _ => .next (enterFault (some w) .invalidOpcode (opcodeField w).toNat s)

/-- The next state of a result, changed by `f`. -/
def mapNext (f : State → State) (r : Result) : Result :=
  match r with
  | .next s => .next (f s)
  | .fault e => .fault e
  | .refused e => .refused e

/-- `n <- n + 1` of R132, counted down on what is left of the budget. -/
def countTurn (s : State) : State :=
  { s with call := s.call.map fun c => { left := c.left.map fun n => n - 1 } }

/-- The `run` call returns (R130, R132, R136). -/
def returnStatus (st : RunStatus) (s : State) : State :=
  { s with call := none, reply := some (.runStatus st) }

/-- The program header is one `run` accepts (R131). -/
def headerAccepted (hdr : Header) : Bool :=
  decide (hdr.tag = Config.formatTag ∧ hdr.length.toNat ≤ Config.progCap)

/-- The start of a run from Ready (R131): `InvalidProgram` and return, or Running. -/
def startRun (s : State) : State :=
  if headerAccepted s.hdr then { s with state := .running }
  else
    returnStatus .faulted
      { s with fault := faultRecord none .invalidProgram s.hdr.tag.toInt 0, state := .faulted }

/-- One turn of a `run` call (R131, R132, R136, R137). -/
def runTurn (c : RunCall) (s : State) : Result :=
  match s.state with
  | .ready => .next (startRun s)
  | .running => if c.left = some 0 then .next (returnStatus .budgetExceeded s) else mapNext countTurn (vmCycle s)
  | .halted => .next (returnStatus .halted s)
  | .faulted => .next (returnStatus .faulted s)

/-- VM `reset` (R290, R33): every piece of VM state takes its reset value; the program store, the attachments and the
handle are not touched. `cs`, which the rule leaves unspecified, becomes 0 (U1, log 2). -/
def vmReset (s : State) : State :=
  { s with
    x := State.reset.x
    pc := State.reset.pc
    mem := State.reset.mem
    cs := State.reset.cs
    sp := State.reset.sp
    state := State.reset.state
    out := State.reset.out
    cycles := State.reset.cycles
    fault := State.reset.fault
    inIdx := State.reset.inIdx
    dbg := State.reset.dbg }

/-- What the host can read of the VM (R34), which holds the result of a run (R138): `cs` is read below `sp` only. -/
structure HostView where
  x : Vector Word 16
  mem : Memory
  pc : Word
  sp : BitVec 9
  cs : List Word
  state : RunState
  cycles : BitVec 64
  fault : FaultRecord
  out : List OutElem
  dbg : List DebugEvent
  inIdx : Word
deriving DecidableEq, Repr

/-- The readable state, absent while `state` is Running and a `run` call is in progress (R34). -/
def hostView (s : State) : Option HostView :=
  if s.state = .running ∧ s.call.isSome then none
  else
    some
      { x := s.x, mem := s.mem, pc := s.pc, sp := s.sp, cs := (List.range s.sp.toNat).map s.entry, state := s.state
        cycles := s.cycles, fault := s.fault, out := s.out, dbg := s.dbg, inIdx := s.inIdx }

/-- The numbers of the four run states (R18). -/
def RunState.code : RunState → BitVec 2
  | .ready => 0
  | .running => 1
  | .halted => 2
  | .faulted => 3

/-- The numbers of the two output tags (R19, R190). -/
def OutTag.code : OutTag → BitVec 1
  | .int => 0
  | .chr => 1

end Sys2Proof.Machine
end

