-- ==== Sys2Proof/Machine/HostCalls.lean ====
section
/-! DEFINITION. The host's commands (spec/70_reset_and_hazards.md R292, R300 to R304), each carried out as one step between
two calls (log 7). -/

namespace Sys2Proof.Machine

/-- The words of a decoded program as the store lists them, index 0 first (R109). -/
def listedFrom (i : Nat) : List IWord → Sparse IWord
  | [] => []
  | w :: ws => (i, w) :: listedFrom (i + 1) ws

/-- The store after `prog[0..]` have taken these words (R109): the words at higher indices stay. -/
def storeProgram (words : List IWord) (prog : Sparse IWord) : Sparse IWord :=
  listedFrom 0 words ++ prog.filter fun c => decide (words.length ≤ c.1)

/-- A successful decode publishes the program (R109): the words, the header, the tag last. The call's record is `record`. -/
def publishProgram (record : DecRecord) (w h : Word) (words : List IWord) (s : State) : State :=
  { s with
    prog := storeProgram words s.prog
    hdr := { tag := Config.formatTag, width := w, height := h, length := BitVec.ofNat 32 (w.toNat * h.toNat) }
    reply := some (.programPublished record) }

/-- A failed decode leaves `hdr.tag` = 0 and no program (R111); the rest of the store is unspecified (U2): the words and
the other header fields are free values (log 5). The call's record is `record` (R116). -/
def failDecode (record : DecRecord) (s : State) : State :=
  { s with
    prog := []
    storeGen := s.storeGen + 1
    hdr :=
      { tag := 0
        width := Config.unspecifiedHeader (s.storeGen + 1) 0
        height := Config.unspecifiedHeader (s.storeGen + 1) 1
        length := Config.unspecifiedHeader (s.storeGen + 1) 2 }
    reply := some (.decError record) }

/-- The DEC decode call (R96, R109, R111), with its record (R116). -/
def decodeCall (fmt : PixelFormat) (w h : Word) (px : List Word) (s : State) : State :=
  match decodeGrid fmt w.toNat h.toNat px with
  | .ok words => publishProgram (decRecord (.decode fmt w h px) none) w h words s
  | .error e => failDecode (decRecord (.decode fmt w h px) (some e)) s

/-- The DEC encode call (R112, R113), with its record (R116). -/
def encodeCall (ins : List IWord) (w : Word) (s : State) : State :=
  match encodeGrid ins w.toNat with
  | .ok (h, px) => { s with reply := some (.grid (decRecord (.encode ins w) none) (BitVec.ofNat 32 h) px) }
  | .error e => { s with reply := some (.decError (decRecord (.encode ins w) (some e))) }

/-- The COD encode call (R220), with its record (R228). -/
def codEncodeCall (method w h : Word) (g : List Word) (s : State) : State :=
  match codEncode method w h g with
  | .ok bytes => { s with reply := some (.artifact codSuccess bytes) }
  | .error e => { s with reply := some (.codError e) }

/-- The COD decode call (R222 to R227), with its record (R228). -/
def codDecodeCall (bytes : List Byte) (s : State) : State :=
  match codDecode bytes with
  | .ok (w, h, g) => { s with reply := some (.restored codSuccess w h g) }
  | .error e => { s with reply := some (.codError e) }

/-- A change of the program store, which the host must not make while `state` is Running (R301, U3, log 10). -/
def unlessRunning (r : Refusal) (s : State) (k : Result) : Result :=
  if s.state = .running then .refused r else k

/-- The host writes one program word by hand (R292); the store has `PROG_CAP` words (R5, log 11). -/
def writeProgCall (index : Word) (word : IWord) (s : State) : Result :=
  unlessRunning .storeWriteWhileRunning s
    (if index.toNat < Config.progCap then .next { s with prog := sparseSet s.prog index.toNat word }
     else .fault (.programIndexOutOfStore index.toNat))

/-- A host command is carried out (R304). -/
def hostCommand (c : HostCommand) (s : State) : Result :=
  match c with
  | .run budget => .next { s with call := some { left := budget } }
  | .reset => .next (vmReset s)
  | .attachInput inp => unlessRunning .attachWhileRunning s (.next { s with inp := inp })
  | .attachHandle attached answers =>
    unlessRunning .attachWhileRunning s (.next { s with hasHandle := attached, answers := answers })
  | .writeProg index word => writeProgCall index word s
  | .writeHeader hdr => unlessRunning .storeWriteWhileRunning s (.next { s with hdr := hdr })
  | .decode fmt w h px => unlessRunning .storeWriteWhileRunning s (.next (decodeCall fmt w h px s))
  | .encode ins w => .next (encodeCall ins w s)
  | .codEncode method w h g => .next (codEncodeCall method w h g s)
  | .codDecode bytes => .next (codDecodeCall bytes s)

/-- The machine's turn between two calls: the next host command, or nothing (R267, log 9). -/
def hostTurn (s : State) : Result :=
  match s.cmds with
  | [] => .next s
  | c :: rest => hostCommand c { s with cmds := rest }

/-- One step of the whole machine (log 8): a turn of the `run` call in progress, which nothing can interrupt (R130), else
the host's turn. -/
def machineStep (s : State) : Result :=
  match s.call with
  | some c => runTurn c s
  | none => hostTurn s

/-- The word `w` of a table row of `nbits` bits where the machine fetches next: a program store that holds it at `pc`, in
a `run` call without a budget (log 7). Words outside 64 bits are cut to the instruction's length. -/
def placeWord (s : State) (nbits w : Nat) : State :=
  { s with
    prog := sparseSet s.prog s.pc.toNat (BitVec.ofNat 64 (w % 2 ^ nbits))
    hdr :=
      { s.hdr with
        tag := Config.formatTag
        length := if s.pc.toNat < s.hdr.length.toNat then s.hdr.length else s.pc + 1 }
    state := .running
    call := some { left := none } }

end Sys2Proof.Machine
end

