-- ==== Sys2Proof/Machine/Step.lean ====
section
/-! DEFINITION. The step of the machine and the placing of one instruction where it fetches next; both call
Sys2Proof/Machine/HostCalls.lean. -/

namespace Sys2Proof.Machine

/-- One step: a turn of the `run` call in progress (R132), or the next host command (R304), or nothing. -/
def step (s : State) : Host.Outcome State Fault Refusal := machineStep s

/-- `s` with the instruction of a table row stored where `step` fetches next, in a run without a budget (log 7). -/
def State.withFetchWord (s : State) (nbits w : Nat) : State := placeWord s nbits w

end Sys2Proof.Machine
end

