-- ==== Sys2Proof/Machine/Assembler.lean ====
section
/-! DEFINITION. The assembler syntax (spec/30_encoding.md R76) and the pseudo-instructions (R77): lines of text to the
instruction words a program author puts into the store (spec/70_reset_and_hazards.md R292). No unit of the hardware reads
text. What R76 leaves open is log 18. -/

namespace Sys2Proof.Machine

/-- What a line is cut into. -/
inductive Token where
  | word (cs : List Char)
  | quoted (c : Char)
  | mark (c : Char)
deriving DecidableEq, Repr

/-- Operand spellings of R76; `label` is an address form whose index is not known yet. -/
inductive AsmOperand where
  | reg (r : Fin 16)
  | imm (v : Int)
  | char (c : Char)
  | cell (a : Int)
  | cellReg (r : Fin 16)
  | index (i : Int)
  | label (l : List Char)
  | place (x y : Int)
  | sel (t : OutTag)
deriving DecidableEq, Repr

/-- A line (R76): an optional label and an optional mnemonic with its operands. -/
structure AsmLine where
  label : Option (List Char)
  body : Option (List Char × List AsmOperand)
deriving DecidableEq, Repr

/-- Characters of labels, mnemonics, register names and numbers. -/
def isWordChar (c : Char) : Bool := c.isAlphanum || c == '_'

/-- The word collected so far, if there is one, before the tokens that follow. -/
def flushWord (cur : List Char) (ts : List Token) : List Token := if cur = [] then ts else .word cur :: ts

/-- The tokens of a line; a `;` outside quotes starts a comment (R76). -/
def tokensFrom (cur : List Char) : List Char → Option (List Token)
  | [] => some (flushWord cur [])
  | '\'' :: c :: '\'' :: rest => (tokensFrom [] rest).map fun ts => flushWord cur (.quoted c :: ts)
  | c :: rest =>
    if isWordChar c then tokensFrom (cur ++ [c]) rest
    else if c = ';' then some (flushWord cur [])
    else if c = ' ' ∨ c = '\t' then (tokensFrom [] rest).map (flushWord cur)
    else if c ∈ [':', ',', '#', '@', '[', ']', '(', ')', '-'] then
      (tokensFrom [] rest).map fun ts => flushWord cur (.mark c :: ts)
    else none

/-- A decimal numeral (R6). -/
def decimal (cs : List Char) : Option Nat :=
  if cs ≠ [] ∧ cs.all Char.isDigit then some (cs.foldl (fun n c => 10 * n + (c.toNat - 48)) 0) else none

/-- The register names `r0` to `r15` (R11). -/
def regName (cs : List Char) : Option (Fin 16) :=
  match cs with
  | ['r', a] => if '0' ≤ a ∧ a ≤ '9' then some (Fin.ofNat 16 (a.toNat - 48)) else none
  | ['r', '1', a] => if '0' ≤ a ∧ a ≤ '5' then some (Fin.ofNat 16 (a.toNat - 38)) else none
  | _ => none

/-- A decimal integer, with a minus sign or without, and what follows it. -/
def intTokens : List Token → Option (Int × List Token)
  | .mark '-' :: .word w :: ts => (decimal w).map fun n => (-(n : Int), ts)
  | .word w :: ts => (decimal w).map fun n => ((n : Int), ts)
  | _ => none

/-- One operand (R76) and what follows it. -/
def operandTokens : List Token → Option (AsmOperand × List Token)
  | .quoted c :: ts => some (.char c, ts)
  | .mark '#' :: ts => (intTokens ts).map fun r => (.imm r.1, r.2)
  | .mark '@' :: ts =>
    match intTokens ts, ts with
    | some r, _ => some (.index r.1, r.2)
    | none, .word l :: rest => some (.label l, rest)
    | none, _ => none
  | .mark '[' :: ts =>
    match intTokens ts, ts with
    | some (a, .mark ']' :: rest), _ => some (.cell a, rest)
    | _, .word w :: .mark ']' :: rest => (regName w).map fun r => (.cellReg r, rest)
    | _, _ => none
  | .mark '(' :: ts =>
    match intTokens ts with
    | some (x, .mark ',' :: rest) =>
      match intTokens rest with
      | some (y, .mark ')' :: rest') => some (.place x y, rest')
      | _ => none
    | _ => none
  | .word w :: ts =>
    match regName w with
    | some r => some (.reg r, ts)
    | none =>
      if w = ['i', 'n', 't'] then some (.sel .int, ts) else if w = ['c', 'h', 'r'] then some (.sel .chr, ts) else none
  | _ => none

/-- No operand, one, or two with a comma between (R76). -/
def operandList (ts : List Token) : Option (List AsmOperand) :=
  match ts with
  | [] => some []
  | _ =>
    match operandTokens ts with
    | some (a, []) => some [a]
    | some (a, .mark ',' :: rest) =>
      match operandTokens rest with
      | some (b, []) => some [a, b]
      | _ => none
    | _ => none

/-- The line after its label (R76). -/
def bodyTokens (label : Option (List Char)) (ts : List Token) : Option AsmLine :=
  match ts with
  | [] => some { label := label, body := none }
  | .word m :: rest => (operandList rest).map fun ops => { label := label, body := some (m, ops) }
  | _ => none

/-- A line of text (R76). -/
def parseLine (cs : List Char) : Option AsmLine :=
  match tokensFrom [] cs with
  | some (.word l :: .mark ':' :: ts) => bodyTokens (some l) ts
  | some ts => bodyTokens none ts
  | none => none

/-- A register number as an operand field. -/
def regOperand (r : Fin 16) : Operand := BitVec.ofNat 16 r.val

/-- An integer as an operand field, if 16 signed bits hold it (R62). -/
def intOperand (v : Int) : Option Operand :=
  if -32768 ≤ v ∧ v ≤ 32767 then some (BitVec.ofInt 16 v) else none

/-- The operand field of a selector: `int` 0, `chr` 1 (R76, R190). -/
def selOperand : OutTag → Operand
  | .int => 0
  | .chr => 1

/-- The position an assembled word starts with; `assemble` stamps the true one (R110). -/
def noPos : Pos := ⟨0, 0⟩

/-- A position-form instruction with an index for its target, in a program of width `w` (R77). -/
def placeOfIndex (w : Nat) (i : Int) : Option (Int × Int) :=
  if 0 ≤ i ∧ w ≠ 0 then some (i % w, i / w) else none

/-- An instruction whose second operand is an integer that must fit its field. -/
def withInt (f : Operand → Pos → Instr) (v : Int) : Option (List Instr) := (intOperand v).map fun b => [f b noPos]

/-- A position-form instruction (R76). -/
def withPlace (f : Operand → Operand → Pos → Instr) (x y : Int) : Option (List Instr) :=
  match intOperand x, intOperand y with
  | some a, some b => some [f a b noPos]
  | _, _ => none

/-- Two register operands. -/
def pairOf (f : Operand → Operand → Pos → Instr) (a b : Fin 16) : Option (List Instr) :=
  some [f (regOperand a) (regOperand b) noPos]

/-- The instructions a line stands for: the full list of R76, then the pseudo-instructions of R77, in a program of width
`w`. -/
def expandLine (w : Nat) (m : String) (ops : List AsmOperand) : Option (List Instr) :=
  match m, ops with
  | "NOP", [] => some [.nop 0 0 noPos]
  | "HALT", [] => some [.halt 0 0 noPos]
  | "DEBUG", [] => some [.debug 0 0 noPos]
  | "LIT", [.reg a, .imm v] => withInt (.lit (regOperand a)) v
  | "LIT", [.reg a, .char c] => withInt (.lit (regOperand a)) c.toNat
  | "ADD", [.reg a, .reg b] => pairOf .add a b
  | "SUB", [.reg a, .reg b] => pairOf .sub a b
  | "MUL", [.reg a, .reg b] => pairOf .mul a b
  | "DIV", [.reg a, .reg b] => pairOf .div a b
  | "MOD", [.reg a, .reg b] => pairOf .mod a b
  | "LOAD", [.reg a, .cell v] => withInt (.load (regOperand a)) v
  | "STORE", [.reg a, .cell v] => withInt (.store (regOperand a)) v
  | "COPY", [.cellReg a, .cellReg b] => pairOf .copy a b
  | "JMP", [.place x y] => withPlace .jmp x y
  | "JZ", [.reg a, .index i] => withInt (.jz (regOperand a)) i
  | "JNZ", [.reg a, .index i] => withInt (.jnz (regOperand a)) i
  | "CALL", [.place x y] => withPlace .call x y
  | "RET", [] => some [.ret 0 0 noPos]
  | "PRINT", [.reg a, .sel t] => some [.print (regOperand a) (selOperand t) noPos]
  | "PRINTI", [.sel t, .imm v] => withInt (.printi (selOperand t)) v
  | "PRINTI", [.sel t, .char c] => withInt (.printi (selOperand t)) c.toNat
  | "INPUT", [.reg a] => some [.input (regOperand a) 0 noPos]
  | "HOST0", [.reg a, .reg b] => pairOf .host0 a b
  | "HOST1", [.reg a, .reg b] => pairOf .host1 a b
  | "HOST2", [.reg a, .reg b] => pairOf .host2 a b
  | "HOST3", [.reg a, .reg b] => pairOf .host3 a b
  | "HOST4", [.reg a, .reg b] => pairOf .host4 a b
  | "NETHOOK", [] => some [.nethook 0 0 noPos]
  | "LOAD", [.reg a, .imm v] => withInt (.lit (regOperand a)) v
  | "LOAD", [.reg a, .char c] => withInt (.lit (regOperand a)) c.toNat
  | "PRINT", [.char c] => withInt (.printi (selOperand .chr)) c.toNat
  | "PRINT", [.imm v] => withInt (.printi (selOperand .int)) v
  | "PRINT", [.reg a] => some [.print (regOperand a) (selOperand .int) noPos]
  | "CLR", [.reg a] => pairOf .sub a a
  | "MOV", [.reg a, .reg b] =>
    if a = b then none
    else some [.sub (regOperand a) (regOperand a) noPos, .add (regOperand a) (regOperand b) noPos]
  | "JMP", [.index i] => (placeOfIndex w i).bind fun p => withPlace .jmp p.1 p.2
  | "CALL", [.index i] => (placeOfIndex w i).bind fun p => withPlace .call p.1 p.2
  | _, _ => none

/-- How many instructions a line stands for (R77: `MOV` is two). -/
def lineSize (l : AsmLine) : Nat :=
  match l.body with
  | none => 0
  | some (m, _) => if m = ['M', 'O', 'V'] then 2 else 1

/-- The index of the instruction each label stands before. -/
def labelTable (i : Nat) : List AsmLine → List (List Char × Nat)
  | [] => []
  | l :: ls =>
    match l.label with
    | some n => (n, i) :: labelTable (i + lineSize l) ls
    | none => labelTable (i + lineSize l) ls

/-- A label operand becomes the index it names (R76). -/
def resolveLabel (table : List (List Char × Nat)) (o : AsmOperand) : Option AsmOperand :=
  match o with
  | .label l => (table.lookup l).map fun i => .index i
  | o => some o

/-- The instructions of one line, its labels resolved. -/
def lineInstrs (w : Nat) (table : List (List Char × Nat)) (l : AsmLine) : Option (List Instr) :=
  match l.body with
  | none => some []
  | some (m, ops) => (ops.mapM (resolveLabel table)).bind fun ops => expandLine w (String.ofList m) ops

/-- The words of the instructions from index `i` on, stamped with their positions in a program of width `w` (R110). -/
def stampFrom (w i : Nat) : List Instr → List IWord
  | [] => []
  | x :: xs => packWord (opcodeOf x) x.op1 x.op2 (posOfIndex w i) :: stampFrom w (i + 1) xs

/-- The instruction words of a program text, one line an element, in a program of width `w` (R76, R77); `none` for text
that is no program. -/
def assemble (w : Nat) (text : List String) : Option (List IWord) :=
  match text.mapM fun t => parseLine t.toList with
  | none => none
  | some lines =>
    if ((labelTable 0 lines).map Prod.fst).Nodup then
      (lines.mapM (lineInstrs w (labelTable 0 lines))).map fun is => stampFrom w 0 is.flatten
    else none

end Sys2Proof.Machine
end

