-- ==== Sys2Proof/Safety.lean ====
section
/-! DEFINITION. The terms the statements use: the invariant of the machine, what a step leaves as it was, and what a taken
fault leaves behind. -/

namespace Sys2Proof.Machine

/-- Data memory, call stack and program store are in canonical form and inside their bounds (R16, R17, R5). -/
abbrev State.StoresOk (s : State) : Prop :=
  Memory.wf Config.memCells s.mem = true ∧ Memory.wf Config.stackDepth s.cs = true ∧
    sparseRising 0 Config.progCap s.prog = true

/-- `sp` holds a legal value (R17). -/
abbrev State.StackOk (s : State) : Prop := s.sp.toNat ≤ Config.stackDepth

/-- `pc` and the return indices in use never exceed `PROG_CAP` (R15). -/
abbrev State.IndicesOk (s : State) : Prop :=
  s.pc.toNat ≤ Config.progCap ∧ ∀ n < s.sp.toNat, (s.entry n).toNat ≤ Config.progCap

/-- A running VM has a program whose header `run` accepted, and `pc` and the return indices lie in it or right behind it
(R15, R131, R185). -/
abbrev State.RunningOk (s : State) : Prop :=
  s.state = .running →
    headerAccepted s.hdr = true ∧ s.pc.toNat ≤ s.hdr.length.toNat ∧
      ∀ n < s.sp.toNat, (s.entry n).toNat ≤ s.hdr.length.toNat

/-- A VM in Ready is as reset left it (R18, R33): nothing else leads to Ready. -/
abbrev State.ReadyOk (s : State) : Prop := s.state = .ready → vmReset s = s

/-- The fault record is the reset one but in Faulted, where its cause is not 0 (R21, R256, R257). -/
abbrev State.FaultOk (s : State) : Prop :=
  (s.state = .faulted → s.fault.cause ≠ 0) ∧ (s.state ≠ .faulted → s.fault = FaultRecord.none)

/-- The machine's invariant. -/
abbrev State.Inv (s : State) : Prop :=
  s.StoresOk ∧ s.StackOk ∧ s.IndicesOk ∧ s.RunningOk ∧ s.ReadyOk ∧ s.FaultOk

/-- Every register but those listed reads as before. -/
def RegsSameBut (written : List (Fin 16)) (s t : State) : Prop := ∀ r : Fin 16, r ∉ written → t.reg r = s.reg r

/-- Every data-memory cell but those listed reads as before. -/
def CellsSameBut (written : List Nat) (s t : State) : Prop := ∀ a : Nat, a ∉ written → t.cell a = s.cell a

/-- The call stack is as before: its pointer and every entry. -/
def StackSame (s t : State) : Prop := t.sp = s.sp ∧ ∀ n : Nat, t.entry n = s.entry n

/-- The output, the debug events and the input cursor are as before. -/
def RecordsSame (s t : State) : Prop := t.out = s.out ∧ t.dbg = s.dbg ∧ t.inIdx = s.inIdx

/-- The VM but for its run state and fault record is as before: registers, memory, `pc`, the call stack in use, `cycles`,
output, debug events and input cursor (R10). -/
def VmKept (s t : State) : Prop :=
  t.x = s.x ∧ t.mem = s.mem ∧ t.pc = s.pc ∧ t.sp = s.sp ∧ (∀ n : Nat, n < s.sp.toNat → t.entry n = s.entry n) ∧
    t.cycles = s.cycles ∧ RecordsSame s t

/-- No transaction was made on the handle (R201). -/
def HandleSame (s t : State) : Prop := t.answers = s.answers ∧ t.requests = s.requests

/-- What no instruction writes: the program store (R51), the attachments (R29, R30) and the host's side. -/
def OutsideSame (s t : State) : Prop :=
  t.hdr = s.hdr ∧ t.prog = s.prog ∧ t.storeGen = s.storeGen ∧ t.inp = s.inp ∧ t.hasHandle = s.hasHandle ∧
    t.cmds = s.cmds ∧ t.call = s.call ∧ t.reply = s.reply

/-- The instruction completed and the machine goes on (R135): one more cycle, `pc` at `target`, no fault, the run state as
before, nothing outside the VM touched. -/
def CompletedAt (target : Word) (s t : State) : Prop :=
  t.pc = target ∧ t.cycles = s.cycles + 1 ∧ t.state = s.state ∧ t.fault = s.fault ∧ OutsideSame s t

/-- The instruction completed without redirecting: `pc` is advanced by 1 (R14). -/
def CompletedNext (s t : State) : Prop := CompletedAt (s.pc + 1) s t

/-- The fault of R256 with this cause code and auxiliary value was taken in instruction `i`: the record and `state` are
written, and nothing else of the whole state has changed. -/
def FaultTaken (i : Instr) (code : BitVec 8) (aux : Int) (s t : State) : Prop :=
  t = { s with
        state := .faulted
        fault :=
          { cause := code, pc := s.pc, posValid := true, x := i.pos.x, y := i.pos.y, iw := encode i
            aux := BitVec.ofInt 32 aux } }

/-- What the machine did in this step was to carry out the host command `c`. -/
def CarriedOut (c : HostCommand) (s : State) : Prop := s.call = none ∧ s.cmds.head? = some c

end Sys2Proof.Machine
end

