-- ==== Sys2Proof/Certificates/Slice0/Obligations.lean ====
section
/-! DEFINITION. The statements about the machine, from the numbered rules of spec/. None is proved here. -/

open Sys2Proof Sys2Proof.Machine

/-! ### What a statement about one instruction says of its next state -/

/-- The instruction answers a next state in which `x[rd]` holds `v` and nothing else has changed but `pc` (by 1) and
`cycles`. -/
def Claims.WritesReg (i : Instr) (s : State) (rd : Fin 16) (v : Int) : Prop :=
  ∃ t, exec i s = .next t ∧ (t.reg rd).toInt = v ∧ RegsSameBut [rd] s t ∧ CellsSameBut [] s t ∧ StackSame s t ∧
    RecordsSame s t ∧ HandleSame s t ∧ CompletedNext s t

/-- The instruction answers a next state that differs in nothing but `pc`, now `target`, and `cycles`. -/
def Claims.GoesTo (i : Instr) (s : State) (target : Word) : Prop :=
  ∃ t, exec i s = .next t ∧ RegsSameBut [] s t ∧ CellsSameBut [] s t ∧ StackSame s t ∧ RecordsSame s t ∧
    HandleSame s t ∧ CompletedAt target s t

/-- The instruction answers a next state that differs in nothing but `pc`, advanced by 1, and `cycles`. -/
def Claims.OnlyAdvances (i : Instr) (s : State) : Prop := Claims.GoesTo i s (s.pc + 1)

/-- The instruction answers a next state in which cell `a` holds `v` and nothing else has changed but `pc` (by 1) and
`cycles`. -/
def Claims.WritesCell (i : Instr) (s : State) (a : Nat) (v : Word) : Prop :=
  ∃ t, exec i s = .next t ∧ t.cell a = v ∧ CellsSameBut [a] s t ∧ RegsSameBut [] s t ∧ StackSame s t ∧
    RecordsSame s t ∧ HandleSame s t ∧ CompletedNext s t

/-- The instruction answers a next state in which `(tag, v)` is appended to the output and nothing else has changed but
`pc` (by 1) and `cycles`. -/
def Claims.Emits (i : Instr) (s : State) (tag : OutTag) (v : Word) : Prop :=
  ∃ t, exec i s = .next t ∧ t.out = s.out ++ [{ tag := tag, value := v }] ∧ t.dbg = s.dbg ∧ t.inIdx = s.inIdx ∧
    RegsSameBut [] s t ∧ CellsSameBut [] s t ∧ StackSame s t ∧ HandleSame s t ∧ CompletedNext s t

/-- The instruction answers the next state that the fault of this code and auxiliary value leaves (R256). -/
def Claims.Faults (i : Instr) (code : BitVec 8) (aux : Int) (s : State) : Prop :=
  ∃ t, exec i s = .next t ∧ FaultTaken i code aux s t

/-- The exact result `f a b` is written to `x[rd]` if 32 signed bits hold it, else `ArithmeticOverflow` is taken. -/
def Claims.ExactArithmetic (mk : Operand → Operand → Pos → Instr) (f : Int → Int → Int) : Prop :=
  ∀ (op1 op2 : Operand) (pos : Pos) (rd rs : Fin 16) (s : State),
    op1.toInt = (rd.val : Int) → op2.toInt = (rs.val : Int) →
      ((intMin ≤ f (s.reg rd).toInt (s.reg rs).toInt ∧ f (s.reg rd).toInt (s.reg rs).toInt ≤ intMax →
          Claims.WritesReg (mk op1 op2 pos) s rd (f (s.reg rd).toInt (s.reg rs).toInt)) ∧
        (¬(intMin ≤ f (s.reg rd).toInt (s.reg rs).toInt ∧ f (s.reg rd).toInt (s.reg rs).toInt ≤ intMax) →
          Claims.Faults (mk op1 op2 pos) 9 0 s))

/-- The five host transactions by their operation number (R202 to R206). -/
def Claims.hostInstr (k : Fin 5) (ra rb : Operand) (pos : Pos) : Instr :=
  match k with
  | 0 => .host0 ra rb pos
  | 1 => .host1 ra rb pos
  | 2 => .host2 ra rb pos
  | 3 => .host3 ra rb pos
  | 4 => .host4 ra rb pos

/-! ### Encoding -/

/-- For every instruction, with every value of both operand fields and of the position, the decoder reads from the instruction's word exactly that instruction: no field is dropped, an unused operand included, and no two instructions share a word. -/
def Obligations.DecodeOfEncodeIsTheInstruction : Prop :=
  ∀ i : Instr, decode (encode i) = .ok i

/-- Every 64-bit word the decoder accepts is encoded back, bit for bit, from the instruction it was decoded to: the opcode, both operand fields and the position. -/
def Obligations.EncodeOfDecodeIsTheWord : Prop :=
  ∀ (w : IWord) (i : Instr), decode w = .ok i → encode i = w

/-- A word is rejected as reserved with its opcode exactly when bits 63:56 hold one of the ten reserved numbers, and as unassigned with its opcode exactly when they hold a number above 35; every other word is accepted. -/
def Obligations.DecoderRejectsExactlyTheUnassignedOpcodes : Prop :=
  ∀ w : IWord,
    (decode w = .error (.reservedOpcode (opcodeField w).toNat) ↔
        (opcodeField w).toNat ∈ [4, 5, 11, 15, 16, 17, 23, 27, 28, 29]) ∧
      (decode w = .error (.unassignedOpcode (opcodeField w).toNat) ↔ 35 < (opcodeField w).toNat) ∧
      ((∃ i, decode w = .ok i) ↔
        (opcodeField w).toNat ≤ 35 ∧ (opcodeField w).toNat ∉ [4, 5, 11, 15, 16, 17, 23, 27, 28, 29])

/-- The words the spec writes out for LIT r2, #-1 at column 2 of row 0, JNZ r0, @3 at column 2 of row 1, CALL (0, 1) at column 1 of row 0 and PRINTI chr, 'H' decode to those instructions. -/
def Obligations.SampleWordsDecodeAsTheSpecWritesThem : Prop :=
  decode 0x030002FFFF000002 = .ok (.lit 2 0xFFFF ⟨0, 2⟩) ∧
    decode 0x1400000003001002 = .ok (.jnz 0 3 ⟨1, 2⟩) ∧
    decode 0x1500000001000001 = .ok (.call 0 1 ⟨0, 1⟩) ∧
    decode 0x1900010048000000 = .ok (.printi 1 72 ⟨0, 0⟩)

/-- The eight bytes of an instruction's word, least significant first, followed by any bytes, are read by the byte decoder as that instruction with exactly the following bytes left. -/
def Obligations.ProgramBytesDecodeInOrder : Prop :=
  ∀ (i : Instr) (rest : List Byte), decodeBytes (bytesOfIWord (encode i) ++ rest) = .ok (i, rest)

/-! ### Stepping, fetching, run control -/

/-- While a run call whose budget is not used up is in progress and the state is Running, if pc lies inside the program and the word stored there decodes to the instruction i, one step is exec of i, after which what is left of the budget is one less. This model makes each turn of R132's loop one step (log 8). -/
def Obligations.StepRunsTheDecodedInstruction : Prop :=
  ∀ (s : State) (b : Budget) (w : IWord) (i : Instr),
    s.call = some { left := b } → s.state = .running → b ≠ some 0 → s.pc.toNat < s.hdr.length.toNat →
      sparseGet? s.prog s.pc.toNat = some w → decode w = .ok i → step s = mapNext countTurn (exec i s)

/-- With a run call in progress, budget left and state Running, a pc at or past hdr.length gives the next state in which cause 8 is recorded with aux = pc (for a pc of 2^31 or more the bit pattern, the model's choice of log 14), pos_valid 0 and x, y, iw 0, state is Faulted and, but for the budget's count, nothing else has changed. -/
def Obligations.FetchOutsideTheProgramFaults : Prop :=
  ∀ (s : State) (b : Budget),
    s.call = some { left := b } → s.state = .running → b ≠ some 0 → s.hdr.length.toNat ≤ s.pc.toNat →
      step s = .next (countTurn { s with
        state := .faulted
        fault := { cause := 8, pc := s.pc, posValid := false, x := 0, y := 0, iw := 0, aux := s.pc } })

/-- With a run call in progress, budget left, state Running and pc inside the program, a stored word whose opcode is reserved or above 35 gives the next state in which cause 1 is recorded with aux the opcode, the word and its position, state is Faulted and, but for the budget's count, nothing else has changed. -/
def Obligations.UnassignedOpcodeFaultsAtDispatch : Prop :=
  ∀ (s : State) (b : Budget) (w : IWord),
    s.call = some { left := b } → s.state = .running → b ≠ some 0 → s.pc.toNat < s.hdr.length.toNat →
      sparseGet? s.prog s.pc.toNat = some w →
      (35 < (opcodeField w).toNat ∨ (opcodeField w).toNat ∈ [4, 5, 11, 15, 16, 17, 23, 27, 28, 29]) →
      step s = .next (countTurn { s with
        state := .faulted
        fault :=
          { cause := 1, pc := s.pc, posValid := true, x := xField w, y := yField w, iw := w
            aux := (opcodeField w).setWidth 32 } })

/-- A run call that finds Ready with hdr.tag = 1 and hdr.length at most 2^20 changes state to Running and nothing else; with any other header it records cause 11 with aux = hdr.tag (for a tag of 2^31 or more the bit pattern, the model's choice of log 14) and pc, pos_valid, x, y, iw 0, state becomes Faulted and the call returns Faulted, nothing else changed. -/
def Obligations.RunStartsOnlyOnAnAcceptedHeader : Prop :=
  ∀ (s : State) (c : RunCall), s.call = some c → s.state = .ready →
    (s.hdr.tag = 1 ∧ s.hdr.length.toNat ≤ 1048576 → step s = .next { s with state := .running }) ∧
      (¬(s.hdr.tag = 1 ∧ s.hdr.length.toNat ≤ 1048576) →
        step s = .next { s with
          state := .faulted
          fault := { cause := 11, pc := 0, posValid := false, x := 0, y := 0, iw := 0, aux := s.hdr.tag }
          call := none
          reply := some (.runStatus .faulted) })

/-- When the budget of the run call in progress is used up and state is Running, the step ends the call with BudgetExceeded and changes nothing else: state stays Running and the fault record is as it was. -/
def Obligations.UsedUpBudgetEndsTheCallOnly : Prop :=
  ∀ s : State, s.call = some { left := some 0 } → s.state = .running →
    step s = .next { s with call := none, reply := some (.runStatus .budgetExceeded) }

/-- A run call in progress that finds state Halted, or Faulted, ends with that status; no VM state changes. -/
def Obligations.RunOnATerminalStateExecutesNothing : Prop :=
  ∀ (s : State) (c : RunCall), s.call = some c →
    (s.state = .halted → step s = .next { s with call := none, reply := some (.runStatus .halted) }) ∧
      (s.state = .faulted → step s = .next { s with call := none, reply := some (.runStatus .faulted) })

/-- From every state in Running with a run call in progress that has n instructions left, some number of steps, at most n + 1, leads through next states alone to a state in which the call has returned with one of the three statuses. The steps counted are the model's own (log 8): each instruction is one and the return is one more. -/
def Obligations.ABudgetedCallEndsInTime : Prop :=
  ∀ (s : State) (n : BitVec 64), s.call = some { left := some n } → s.state = .running →
    ∃ k ≤ n.toNat + 1, ∃ t : State, ∃ st : RunStatus,
      Host.Core.run Sys2Proof.core k s = .next t ∧ t.call = none ∧ t.reply = some (.runStatus st)

/-- The step that carries out the reset command gives a next state with all registers and cells 0, pc, sp, cycles and in_idx 0, state Ready, out and dbg empty and the fault record all 0, whatever the state was; header, program store, input source, handle and transactions are as before. (cs, which the rule leaves unspecified, is not spoken of.) -/
def Obligations.ResetGivesTheResetValues : Prop :=
  ∀ (s : State) (rest : List HostCommand), s.call = none → s.cmds = .reset :: rest →
    ∃ t, step s = .next t ∧ (∀ r, t.reg r = 0) ∧ (∀ a, t.cell a = 0) ∧ t.pc = 0 ∧ t.sp = 0 ∧ t.cycles = 0 ∧
      t.inIdx = 0 ∧ t.state = .ready ∧ t.out = [] ∧ t.dbg = [] ∧
      t.fault = { cause := 0, pc := 0, posValid := false, x := 0, y := 0, iw := 0, aux := 0 } ∧
      t.hdr = s.hdr ∧ t.prog = s.prog ∧ t.inp = s.inp ∧ t.hasHandle = s.hasHandle ∧ HandleSame s t

/-- The host's view is absent exactly while state is Running and a run call is in progress; otherwise it shows the VM's state as it is, and of the call stack the sp entries in use. -/
def Obligations.TheHostSeesNothingOfARunningCall : Prop :=
  ∀ s : State,
    (hostView s = none ↔ s.state = .running ∧ s.call ≠ none) ∧
      (∀ v, hostView s = some v →
        v.x = s.x ∧ v.mem = s.mem ∧ v.pc = s.pc ∧ v.sp = s.sp ∧ v.state = s.state ∧ v.cycles = s.cycles ∧
          v.fault = s.fault ∧ v.out = s.out ∧ v.dbg = s.dbg ∧ v.inIdx = s.inIdx ∧
          v.cs.length = s.sp.toNat ∧ ∀ n, n < s.sp.toNat → v.cs[n]? = some (s.entry n))

/-! ### Invariants and whole-machine rules -/

/-- State.reset has its stores in canonical form inside their bounds, a legal sp, indices within PROG_CAP, the VM at its reset values and an empty fault record. That the call stack is at its reset value too is the model's choice (log 2: the spec leaves cs after reset unspecified), and the canonical form is the model's own layout (log 1). -/
def Obligations.ResetMeetsTheInvariant : Prop :=
  State.reset.Inv

/-- From every state that meets the invariant, every step that answers a next state (an instruction, a fault, the start or end of a run, any host command) gives a state that meets it: canonical stores inside their bounds, sp at most 256, pc and the return indices in use within PROG_CAP and, while Running, within the program or right behind it, Ready only as reset left it, and a fault recorded in Faulted and nowhere else. That Ready holds the call stack's entries at 0 as well is the model's choice (log 2: the spec leaves cs after reset unspecified), and the canonical form is the model's own layout (log 1). -/
def Obligations.EveryStepKeepsTheInvariant : Prop :=
  ∀ s t : State, s.Inv → step s = .next t → t.Inv

/-- For every instruction, every value of its fields and every state, exec answers a next state: an instruction completes or takes its fault, and never ends in a stop of the model. -/
def Obligations.EveryInstructionAnswersANextState : Prop :=
  ∀ (i : Instr) (s : State), ∃ t, exec i s = .next t

/-- If an instruction takes a state that is not Faulted to Faulted, the record holds pc, the instruction's word and its position with pos_valid 1 and a cause from 2 to 10, and every other part of the state, registers, memory, call stack, output, records, handle, pc and cycles among it, is as before. -/
def Obligations.FaultsArePrecise : Prop :=
  ∀ (i : Instr) (s t : State), exec i s = .next t → s.state ≠ .faulted → t.state = .faulted →
    t = { s with state := .faulted, fault := t.fault } ∧ 2 ≤ t.fault.cause.toNat ∧ t.fault.cause.toNat ≤ 10 ∧
      t.fault.pc = s.pc ∧ t.fault.posValid = true ∧ t.fault.iw = encode i ∧ t.fault.x = i.pos.x ∧
      t.fault.y = i.pos.y

/-- From a state that is not Faulted, an instruction either leaves Faulted behind with cycles as it was, or leaves another run state with cycles one higher. -/
def Obligations.CyclesCountsCompletedInstructions : Prop :=
  ∀ (i : Instr) (s t : State), exec i s = .next t → s.state ≠ .faulted →
    (t.state = .faulted ∧ t.cycles = s.cycles) ∨ (t.state ≠ .faulted ∧ t.cycles = s.cycles + 1)

/-- Whatever the instruction and the state, the program words, the header, the input source, the handle's attachment, the host's commands, the run call and the reply are as before. The last three, and the counter of failed decodes, are the model's own fields (log 7, log 5). -/
def Obligations.NoInstructionWritesTheProgramStore : Prop :=
  ∀ (i : Instr) (s t : State), exec i s = .next t → OutsideSame s t

/-- An instruction other than STORE and COPY leaves every memory cell; other than CALL and RET the call stack; other than PRINT and PRINTI the output; other than DEBUG the debug events; other than INPUT the input cursor; other than HOST0 to HOST4 the handle; and one other than LIT, ADD, SUB, MUL, DIV, MOD, LOAD, INPUT, HOST0 to HOST4 every register. -/
def Obligations.OnlyTheNamedInstructionsTouchEachStore : Prop :=
  ∀ (i : Instr) (s t : State), exec i s = .next t →
    (opcodeOf i ∉ [13, 14] → CellsSameBut [] s t) ∧
      (opcodeOf i ∉ [21, 22] → StackSame s t) ∧
      (opcodeOf i ∉ [24, 25] → t.out = s.out) ∧
      (opcodeOf i ≠ 2 → t.dbg = s.dbg) ∧
      (opcodeOf i ≠ 26 → t.inIdx = s.inIdx) ∧
      (opcodeOf i ∉ [30, 31, 32, 33, 34] → HandleSame s t) ∧
      (opcodeOf i ∉ [3, 6, 7, 8, 9, 10, 12, 26, 30, 31, 32, 33, 34] → RegsSameBut [] s t)

/-- In every step that is not the carrying out of a reset command, the output and the debug events before are an initial part of those after. -/
def Obligations.OutputAndDebugRecordsOnlyGrow : Prop :=
  ∀ s t : State, step s = .next t → ¬ CarriedOut .reset s → s.out <+: t.out ∧ s.dbg <+: t.dbg

/-- In every step with a next state, the run state stays, or goes from Ready to Running, from Running to Halted where the word at pc decodes to HALT, from Running to Faulted, from Ready to Faulted on a header that run refuses, or to Ready by carrying out a reset command. -/
def Obligations.TheRunStateMovesOnlyAsTheSpecLists : Prop :=
  ∀ s t : State, step s = .next t →
    t.state = s.state ∨ (s.state = .ready ∧ t.state = .running) ∨ 
      (s.state = .running ∧ t.state = .halted ∧ ∃ a b p, decode (progRead s s.pc.toNat) = .ok (.halt a b p)) ∨
      (s.state = .running ∧ t.state = .faulted) ∨
      (s.state = .ready ∧ t.state = .faulted ∧ ¬(s.hdr.tag = 1 ∧ s.hdr.length.toNat ≤ 1048576)) ∨
      (t.state = .ready ∧ CarriedOut .reset s)

/-- From Faulted, every step that does not carry out a reset command stays in Faulted and leaves the fault record as it was; no instruction executes, so registers, memory, pc, cycles and output are as before. -/
def Obligations.TheFaultRecordIsWrittenOncePerReset : Prop :=
  ∀ s t : State, step s = .next t → s.state = .faulted → ¬ CarriedOut .reset s →
    t.state = .faulted ∧ t.fault = s.fault ∧ t.x = s.x ∧ t.mem = s.mem ∧ t.pc = s.pc ∧ t.cycles = s.cycles ∧ t.out = s.out

/-- If two instructions have the same opcode and operand fields, then from every state both answer next states that agree in everything but the fault record, whose cause, pc and aux still agree, and the debug events, whose number still agrees. -/
def Obligations.ThePositionTakesNoPartInExecution : Prop :=
  ∀ (i j : Instr) (s : State), opcodeOf i = opcodeOf j → i.op1 = j.op1 → i.op2 = j.op2 →
    ∃ t u, exec i s = .next t ∧ exec j s = .next u ∧ { u with fault := t.fault, dbg := t.dbg } = t ∧
      u.fault.cause = t.fault.cause ∧ u.fault.pc = t.fault.pc ∧ u.fault.aux = t.fault.aux ∧
      u.dbg.length = t.dbg.length

/-- NOP, HALT, DEBUG and NETHOOK do the same whatever both operand fields hold; RET whatever both hold and INPUT whatever the second holds, but for the instruction word a fault they take records. -/
def Obligations.UnusedOperandFieldsAreIgnored : Prop :=
  ∀ (a b c d : Operand) (p : Pos) (s : State),
    exec (.nop a b p) s = exec (.nop c d p) s ∧ exec (.halt a b p) s = exec (.halt c d p) s ∧
      exec (.debug a b p) s = exec (.debug c d p) s ∧ exec (.nethook a b p) s = exec (.nethook c d p) s ∧
      (∃ t u, exec (.ret a b p) s = .next t ∧ exec (.ret c d p) s = .next u ∧
        { u with fault := { u.fault with iw := t.fault.iw } } = t) ∧
      (∃ t u, exec (.input a b p) s = .next t ∧ exec (.input a d p) s = .next u ∧
        { u with fault := { u.fault with iw := t.fault.iw } } = t)

/-- For every instruction whose first operand is a register outside 0..15, or a selector other than 0 and 1, exec takes RegisterOutOfBounds (code 2), or InvalidOperand (code 10), with the operand as aux and no other effect. -/
def Obligations.TheStaticCheckOfOperandOneComesFirst : Prop :=
  ∀ (i : Instr) (s : State),
    (i.format.kinds.1 = .reg → (i.op1.toInt < 0 ∨ 15 < i.op1.toInt) → Claims.Faults i 2 i.op1.toInt s) ∧
      (i.format.kinds.1 = .sel → i.op1.toInt ≠ 0 → i.op1.toInt ≠ 1 → Claims.Faults i 10 i.op1.toInt s)

/-- For every instruction whose first operand passes its static check and whose second is a register outside 0..15, or a selector other than 0 and 1, exec takes RegisterOutOfBounds (code 2), or InvalidOperand (code 10), with the second operand as aux and no other effect, before any check on values. -/
def Obligations.TheStaticCheckOfOperandTwoComesSecond : Prop :=
  ∀ (i : Instr) (s : State),
    (i.format.kinds.1 = .reg → 0 ≤ i.op1.toInt ∧ i.op1.toInt ≤ 15) →
      (i.format.kinds.2 = .reg → (i.op2.toInt < 0 ∨ 15 < i.op2.toInt) → Claims.Faults i 2 i.op2.toInt s) ∧
        (i.format.kinds.2 = .sel → i.op2.toInt ≠ 0 → i.op2.toInt ≠ 1 → Claims.Faults i 10 i.op2.toInt s)

/-- This model refuses (log 10), between two run calls with state Running, a hand-written program word or header, a decode call, and a change of the input source or the handle: the spec puts these outside the contract. -/
def Obligations.TheHostMustNotTouchARunningProgram : Prop :=
  ∀ (s : State) (c : HostCommand) (rest : List HostCommand),
    s.call = none → s.cmds = c :: rest → s.state = .running →
      ((∃ i w, c = .writeProg i w) ∨ (∃ h, c = .writeHeader h) ∨ (∃ f w h px, c = .decode f w h px) →
          step s = .refused .storeWriteWhileRunning) ∧
        ((∃ v, c = .attachInput v) ∨ (∃ a v, c = .attachHandle a v) → step s = .refused .attachWhileRunning)

/-! ### System and data-literal instructions -/

/-- NOP and NETHOOK, with any operand fields, answer a next state in every state, with a handle or without: pc is advanced by 1, cycles by 1, and nothing else changes. -/
def Obligations.NopAndNethookOnlyAdvance : Prop :=
  ∀ (u1 u2 : Operand) (pos : Pos) (s : State),
    Claims.OnlyAdvances (.nop u1 u2 pos) s ∧ Claims.OnlyAdvances (.nethook u1 u2 pos) s

/-- HALT answers in every state the next state that differs from it in cycles, one higher, and state, now Halted, and in nothing else: pc keeps the index of this HALT. -/
def Obligations.HaltStopsWhereItStands : Prop :=
  ∀ (u1 u2 : Operand) (pos : Pos) (s : State),
    exec (.halt u1 u2 pos) s = .next { s with cycles := s.cycles + 1, state := .halted }

/-- DEBUG answers a next state in every state: the event of its own index and position is appended to dbg, pc and cycles are advanced by 1, and nothing else changes; the machine does not stop. -/
def Obligations.DebugRecordsItsPlace : Prop :=
  ∀ (u1 u2 : Operand) (pos : Pos) (s : State),
    ∃ t, exec (.debug u1 u2 pos) s = .next t ∧ t.dbg = s.dbg ++ [{ pc := s.pc, x := pos.x, y := pos.y }] ∧
      t.out = s.out ∧ t.inIdx = s.inIdx ∧ RegsSameBut [] s t ∧ CellsSameBut [] s t ∧ StackSame s t ∧
      HandleSame s t ∧ CompletedNext s t

/-- LIT with a register operand in 0..15 answers a next state in every state: the register holds the immediate, any value of the signed 16-bit field; every other register, every memory cell and the rest of the state are unchanged but for pc and cycles. -/
def Obligations.LitWritesItsImmediate : Prop :=
  ∀ (op1 imm : Operand) (pos : Pos) (rd : Fin 16) (s : State),
    op1.toInt = (rd.val : Int) → Claims.WritesReg (.lit op1 imm pos) s rd imm.toInt

/-! ### Arithmetic instructions -/

/-- Each of ADD, SUB and MUL with both registers in 0..15 completes with the exact sum, difference or product in x[rd] whenever 32 signed bits hold it, rd = rs included, nothing else changed but pc and cycles; otherwise it takes ArithmeticOverflow (code 9, aux 0) and writes nothing. -/
def Obligations.AddSubMulWriteTheExactResult : Prop :=
  (Claims.ExactArithmetic .add fun a b => a + b) ∧ (Claims.ExactArithmetic .sub fun a b => a - b) ∧
    (Claims.ExactArithmetic .mul fun a b => a * b)

/-- DIV with both registers in 0..15 and a divisor that is not 0 completes, but for INT_MIN / -1, with the integer in x[rd] whose magnitude is floor(|a| / |b|) and whose sign is that of a / b, nothing else changed but pc and cycles; INT_MIN / -1 takes ArithmeticOverflow (code 9, aux 0). -/
def Obligations.DivTruncatesTowardZero : Prop :=
  ∀ (op1 op2 : Operand) (pos : Pos) (rd rs : Fin 16) (s : State),
    op1.toInt = (rd.val : Int) → op2.toInt = (rs.val : Int) → (s.reg rs).toInt ≠ 0 →
      (¬((s.reg rd).toInt = intMin ∧ (s.reg rs).toInt = -1) →
        ∃ q : Int, q.natAbs = (s.reg rd).toInt.natAbs / (s.reg rs).toInt.natAbs ∧
          (0 ≤ (s.reg rd).toInt * (s.reg rs).toInt → 0 ≤ q) ∧ ((s.reg rd).toInt * (s.reg rs).toInt ≤ 0 → q ≤ 0) ∧
          Claims.WritesReg (.div op1 op2 pos) s rd q) ∧
      ((s.reg rd).toInt = intMin ∧ (s.reg rs).toInt = -1 → Claims.Faults (.div op1 op2 pos) 9 0 s)

/-- MOD with both registers in 0..15 and a divisor that is not 0 completes with r in x[rd] such that b divides a - r, |r| < |b| and r is 0 or of the sign of a, INT_MIN mod -1 = 0 included, nothing else changed but pc and cycles. -/
def Obligations.ModTakesTheDividendsSign : Prop :=
  ∀ (op1 op2 : Operand) (pos : Pos) (rd rs : Fin 16) (s : State),
    op1.toInt = (rd.val : Int) → op2.toInt = (rs.val : Int) → (s.reg rs).toInt ≠ 0 →
      ∃ r : Int, (s.reg rs).toInt ∣ (s.reg rd).toInt - r ∧ r.natAbs < (s.reg rs).toInt.natAbs ∧
        (0 ≤ (s.reg rd).toInt → 0 ≤ r) ∧ ((s.reg rd).toInt ≤ 0 → r ≤ 0) ∧
        Claims.WritesReg (.mod op1 op2 pos) s rd r

/-- DIV and MOD with both registers in 0..15 and a divisor of 0 take DivideByZero (code 4, aux 0) with no other effect. -/
def Obligations.DivisionByZeroIsAFault : Prop :=
  ∀ (op1 op2 : Operand) (pos : Pos) (rd rs : Fin 16) (s : State),
    op1.toInt = (rd.val : Int) → op2.toInt = (rs.val : Int) → (s.reg rs).toInt = 0 →
      Claims.Faults (.div op1 op2 pos) 4 0 s ∧ Claims.Faults (.mod op1 op2 pos) 4 0 s

/-! ### Memory instructions -/

/-- The function that gives LOAD, STORE and COPY their cell answers exactly for 0..1023, with that number; nothing is wrapped or masked. -/
def Obligations.CellsAreNamedBySignedAddresses : Prop :=
  ∀ (v : Int) (a : Nat), cellIndex v = some a ↔ v = (a : Int) ∧ a ≤ 1023

/-- LOAD with a register in 0..15 completes, when its address names a cell, with the cell's content in the register and nothing else changed but pc and cycles; when it names none it takes MemoryOutOfBounds (code 3) with the address as aux. -/
def Obligations.LoadReadsTheCell : Prop :=
  ∀ (op1 addr : Operand) (pos : Pos) (rd : Fin 16) (s : State), op1.toInt = (rd.val : Int) →
    (∀ a, cellIndex (opValue addr) = some a → Claims.WritesReg (.load op1 addr pos) s rd (s.cell a).toInt) ∧
      (cellIndex (opValue addr) = none → Claims.Faults (.load op1 addr pos) 3 addr.toInt s)

/-- STORE with a register in 0..15 completes, when its address names a cell, with the register's value in that cell, every other cell, every register and the rest unchanged but for pc and cycles; when it names none it takes MemoryOutOfBounds (code 3) with the address as aux and memory is unchanged. -/
def Obligations.StoreWritesTheCell : Prop :=
  ∀ (op1 addr : Operand) (pos : Pos) (rs : Fin 16) (s : State), op1.toInt = (rs.val : Int) →
    (∀ a, cellIndex (opValue addr) = some a → Claims.WritesCell (.store op1 addr pos) s a (s.reg rs)) ∧
      (cellIndex (opValue addr) = none → Claims.Faults (.store op1 addr pos) 3 addr.toInt s)

/-- COPY with both registers in 0..15 completes, when both hold addresses of cells, with the source cell's content in the destination cell, no other cell and no register changed; a bad source address takes MemoryOutOfBounds (code 3) with it as aux, whatever the destination; a bad destination alone takes it with the destination as aux. -/
def Obligations.CopyMovesOneCell : Prop :=
  ∀ (op1 op2 : Operand) (pos : Pos) (rd rs : Fin 16) (s : State),
    op1.toInt = (rd.val : Int) → op2.toInt = (rs.val : Int) →
      (∀ src dst, cellIndex (s.reg rs).toInt = some src → cellIndex (s.reg rd).toInt = some dst →
        Claims.WritesCell (.copy op1 op2 pos) s dst (s.cell src)) ∧
      (cellIndex (s.reg rs).toInt = none → Claims.Faults (.copy op1 op2 pos) 3 (s.reg rs).toInt s) ∧
      (cellIndex (s.reg rs).toInt ≠ none → cellIndex (s.reg rd).toInt = none →
        Claims.Faults (.copy op1 op2 pos) 3 (s.reg rd).toInt s)

/-! ### Control-flow instructions -/

/-- JMP whose coordinates lie inside the header's width and height and whose index lies inside the program completes in every state, with pc at that index and nothing else changed but cycles. -/
def Obligations.JmpGoesToThePixel : Prop :=
  ∀ (tx ty : Operand) (pos : Pos) (x y : Nat) (s : State),
    tx.toInt = (x : Int) → ty.toInt = (y : Int) → x < s.hdr.width.toNat → y < s.hdr.height.toNat →
      y * s.hdr.width.toNat + x < s.hdr.length.toNat →
      Claims.GoesTo (.jmp tx ty pos) s (BitVec.ofNat 32 (y * s.hdr.width.toNat + x))

/-- For JMP and CALL: a negative coordinate takes InvalidJumpTarget (code 7) with aux -1; otherwise a coordinate outside the header's width or height takes it with aux row times 4096 plus column; otherwise an index at or past the length takes it with that index as aux, where 32 bits hold it. Nothing else changes, the call stack included. For an index from 2^31 on, which takes a hand-written header, that aux is the 32-bit pattern of the index is the model's choice (log 14). -/
def Obligations.JumpToAPlaceOutsideTheProgramFaults : Prop :=
  ∀ (tx ty : Operand) (pos : Pos) (s : State), ∀ i ∈ [Instr.jmp tx ty pos, Instr.call tx ty pos],
    (tx.toInt < 0 ∨ ty.toInt < 0 → Claims.Faults i 7 (-1) s) ∧
      ∀ x y : Nat, tx.toInt = (x : Int) → ty.toInt = (y : Int) →
        (s.hdr.width.toNat ≤ x ∨ s.hdr.height.toNat ≤ y → Claims.Faults i 7 ((y : Int) * 4096 + x) s) ∧
          (x < s.hdr.width.toNat → y < s.hdr.height.toNat →
            s.hdr.length.toNat ≤ y * s.hdr.width.toNat + x → y * s.hdr.width.toNat + x < 4294967296 →
            Claims.Faults i 7 ((y : Int) * s.hdr.width.toNat + x) s)

/-- JZ and JNZ with a register in 0..15: the one whose condition does not hold advances pc by 1 whatever its target; the one whose condition holds goes to the target index when it lies inside the program and otherwise takes InvalidJumpTarget (code 7) with the target as aux. Nothing else changes but cycles. -/
def Obligations.JzAndJnzBranchOnTheRegister : Prop :=
  ∀ (op1 addr : Operand) (pos : Pos) (rs : Fin 16) (s : State), op1.toInt = (rs.val : Int) →
    ((s.reg rs).toInt ≠ 0 → Claims.OnlyAdvances (.jz op1 addr pos) s) ∧
      ((s.reg rs).toInt = 0 → Claims.OnlyAdvances (.jnz op1 addr pos) s) ∧
      (∀ n : Nat, addr.toInt = (n : Int) → n < s.hdr.length.toNat →
        ((s.reg rs).toInt = 0 → Claims.GoesTo (.jz op1 addr pos) s (BitVec.ofNat 32 n)) ∧
          ((s.reg rs).toInt ≠ 0 → Claims.GoesTo (.jnz op1 addr pos) s (BitVec.ofNat 32 n))) ∧
      (addr.toInt < 0 ∨ (s.hdr.length.toNat : Int) ≤ addr.toInt →
        ((s.reg rs).toInt = 0 → Claims.Faults (.jz op1 addr pos) 7 addr.toInt s) ∧
          ((s.reg rs).toInt ≠ 0 → Claims.Faults (.jnz op1 addr pos) 7 addr.toInt s))

/-- CALL to a position inside the program completes while fewer than 256 entries are in use: the entry at sp holds pc + 1, sp is one higher, every other entry, every register and every cell is unchanged, pc is the target; with 256 in use it takes StackOverflow (code 5, aux 256). -/
def Obligations.CallPushesTheNextIndex : Prop :=
  ∀ (tx ty : Operand) (pos : Pos) (x y : Nat) (s : State),
    tx.toInt = (x : Int) → ty.toInt = (y : Int) → x < s.hdr.width.toNat → y < s.hdr.height.toNat →
      y * s.hdr.width.toNat + x < s.hdr.length.toNat →
      (s.sp.toNat < 256 →
        ∃ t, exec (.call tx ty pos) s = .next t ∧ t.entry s.sp.toNat = s.pc + 1 ∧ t.sp.toNat = s.sp.toNat + 1 ∧
          (∀ n, n ≠ s.sp.toNat → t.entry n = s.entry n) ∧ RegsSameBut [] s t ∧ CellsSameBut [] s t ∧
          RecordsSame s t ∧ HandleSame s t ∧ CompletedAt (BitVec.ofNat 32 (y * s.hdr.width.toNat + x)) s t) ∧
      (s.sp.toNat = 256 → Claims.Faults (.call tx ty pos) 5 256 s)

/-- RET completes whenever an entry is in use: pc takes the entry at sp - 1, unchecked, sp is one lower, and every entry, register and cell keeps its content (that the popped entry, which nothing can read, keeps it too is the model's choice, log 2); with sp = 0 it takes StackUnderflow (code 6, aux 0). -/
def Obligations.RetPopsTheLastIndex : Prop :=
  ∀ (u1 u2 : Operand) (pos : Pos) (s : State),
    (s.sp.toNat ≠ 0 →
      ∃ t, exec (.ret u1 u2 pos) s = .next t ∧ t.sp.toNat = s.sp.toNat - 1 ∧ (∀ n, t.entry n = s.entry n) ∧
        RegsSameBut [] s t ∧ CellsSameBut [] s t ∧ RecordsSame s t ∧ HandleSame s t ∧
        CompletedAt (s.entry (s.sp.toNat - 1)) s t) ∧
    (s.sp.toNat = 0 → Claims.Faults (.ret u1 u2 pos) 6 0 s)

/-! ### I/O and extension instructions -/

/-- PRINT with a register in 0..15, and PRINTI, with a selector of 0 or 1, complete in every state: one element is appended to the output, tagged INT for 0 and CHR for 1, with the register's value or the immediate; nothing else changes but pc and cycles. -/
def Obligations.PrintAndPrintiAppendOneElement : Prop :=
  ∀ (op1 sel imm : Operand) (pos : Pos) (rs : Fin 16) (tag : OutTag) (s : State),
    op1.toInt = (rs.val : Int) → (sel.toInt = 0 ∧ tag = .int ∨ sel.toInt = 1 ∧ tag = .chr) →
      Claims.Emits (.print op1 sel pos) s tag (s.reg rs) ∧
        Claims.Emits (.printi sel imm pos) s tag (BitVec.ofInt 32 imm.toInt)

/-- INPUT with a register in 0..15 completes in every state: with a source that has a value left it writes that value to the register and, while in_idx can count it, raises in_idx by 1, nothing else changing but pc and cycles; with no source or an exhausted one only pc and cycles change. -/
def Obligations.InputConsumesOneValue : Prop :=
  ∀ (op1 u2 : Operand) (pos : Pos) (rd : Fin 16) (s : State), op1.toInt = (rd.val : Int) →
    (∀ vs v, s.inp = some vs → vs[s.inIdx.toNat]? = some v →
      ∃ t, exec (.input op1 u2 pos) s = .next t ∧ t.reg rd = v ∧ RegsSameBut [rd] s t ∧
        (s.inIdx.toNat + 1 < 4294967296 → t.inIdx.toNat = s.inIdx.toNat + 1) ∧ t.out = s.out ∧ t.dbg = s.dbg ∧
        CellsSameBut [] s t ∧ StackSame s t ∧ HandleSame s t ∧ CompletedNext s t) ∧
    ((s.inp = none ∨ ∃ vs, s.inp = some vs ∧ vs.length ≤ s.inIdx.toNat) →
      Claims.OnlyAdvances (.input op1 u2 pos) s)

/-- HOSTk with both registers in 0..15 completes in every state. Without a handle only pc and cycles change. With one, the request (k, x[ra], x[rb]) is made, once; some pair of answers is written, the first to ra and the second, later, to rb, no other register and no memory changing; if the model's list of coming answers (log 6) is not empty, the pair is its first. -/
def Obligations.HostTransactionsWriteBothRegisters : Prop :=
  ∀ (k : Fin 5) (op1 op2 : Operand) (pos : Pos) (ra rb : Fin 16) (s : State),
    op1.toInt = (ra.val : Int) → op2.toInt = (rb.val : Int) →
      (s.hasHandle = false → Claims.OnlyAdvances (Claims.hostInstr k op1 op2 pos) s) ∧
      (s.hasHandle = true →
        ∃ t a' b', exec (Claims.hostInstr k op1 op2 pos) s = .next t ∧ t.reg rb = b' ∧ (ra ≠ rb → t.reg ra = a') ∧
          (∀ ans rest, s.answers = ans :: rest → (a', b') = ans) ∧ t.answers = s.answers.tail ∧
          t.requests = s.requests ++ [{ k := k, a := s.reg ra, b := s.reg rb }] ∧ RegsSameBut [ra, rb] s t ∧
          CellsSameBut [] s t ∧ StackSame s t ∧ RecordsSame s t ∧ CompletedNext s t)

/-! ### Registry, decoder and encoder -/

/-- For every kind (a selector's legal set being 0 and 1) and every value that dequantize accepts, quantize gives the value back; and what dequantize gives for the quantized value of a channel value is the lowest that quantizes so, equal to the channel value exactly when that one was canonical. -/
def Obligations.QuantizationRoundTrips : Prop :=
  ∀ (kind : Kind) (v : Int) (c : Nat), dequantize kind [0, 1] v = some c →
    quantize kind c = v ∧
      ∀ c' : Nat, quantize kind c' = v → c ≤ c' ∧ (c = c' ↔ ∃ u, dequantize kind [0, 1] u = some c')

/-- Every word of a program that DEC decodes, from HSV or RGB pixels, decodes to an instruction whose register operands lie in 0..15 and whose selectors are 0 or 1, and whose LOAD and STORE addresses name cells; and whenever executing it takes a state that is not Faulted to Faulted, the cause recorded is not InvalidOpcode, RegisterOutOfBounds, InvalidOperand or InvalidProgram (1, 2, 10, 11), and is MemoryOutOfBounds (3) only if the instruction is COPY. -/
def Obligations.DecodedProgramsPassTheStaticChecks : Prop :=
  ∀ (fmt : PixelFormat) (w h : Nat) (px : List Word) (ws : List IWord), decodeGrid fmt w h px = .ok ws →
    ∀ iw ∈ ws, ∃ i, decode iw = .ok i ∧ i.wellFormed = true ∧
      (opcodeOf i ∈ [12, 13] → cellIndex (opValue i.op2) ≠ none) ∧
      ∀ s t : State, exec i s = .next t → s.state ≠ .faulted → t.state = .faulted →
        t.fault.cause ∉ [1, 2, 10, 11] ∧ (t.fault.cause = 3 → opcodeOf i = 14)

/-- The converted HSV word passes the colour range check whatever the RGB word, its ignored top byte included; if its three channels are equal the hue is 0 and the saturation 0. -/
def Obligations.RgbConversionStaysInRange : Prop :=
  ∀ p : Word, colorRangeError (rgbToHsv p) = none ∧
    (redOf p = greenOf p → greenOf p = blueOf p → hueOf (rgbToHsv p) = 0 ∧ satOf (rgbToHsv p) = 0)

/-- On a grid of legal dimensions with the right number of pixels, decode fails with an error exactly when some pixel fails with it and every pixel before that one decodes. -/
def Obligations.DecodeReportsTheFirstFailingPixel : Prop :=
  ∀ (fmt : PixelFormat) (w h : Nat) (px : List Word) (e : DecError),
    0 < w → w ≤ 1024 → 0 < h → h ≤ 1024 → px.length = w * h →
      (decodeGrid fmt w h px = .error e ↔
        ∃ (j : Nat) (p : Word), px[j]? = some p ∧ decodeHsvPixel w j (toHsv fmt p) = .error e ∧
          ∀ (i : Nat) (q : Word), i < j → px[i]? = some q → ∃ iw, decodeHsvPixel w i (toHsv fmt q) = .ok iw)

/-- A decode command that fails, given while state is not Running, gives a next state with hdr.tag = 0 and the error's record as the reply (code and detail, and pos_valid with the position when it has one); no VM state has changed. If state is Ready and the next command is a run, two more steps lead to Faulted with cause 11 and aux 0, the rest of the VM, cycles among it, unchanged. The steps counted, one for each host command and one for the start of the run, are the model's own (log 7, log 8). -/
def Obligations.AFailedDecodeLeavesNoProgram : Prop :=
  ∀ (s : State) (fmt : PixelFormat) (w h : Word) (px : List Word) (e : DecError) (rest : List HostCommand),
    s.call = none → s.cmds = .decode fmt w h px :: rest → s.state ≠ .running →
      decodeGrid fmt w.toNat h.toNat px = .error e →
      ∃ t r, step s = .next t ∧ t.hdr.tag = 0 ∧ t.reply = some (.decError r) ∧ r.code = e.code ∧ r.detail = e.detail ∧
        (e.pos = none → r.posValid = false) ∧ (∀ p, e.pos = some p → r.posValid = true ∧ r.x = p.x ∧ r.y = p.y) ∧
        VmKept s t ∧ t.state = s.state ∧ t.fault = s.fault ∧ HandleSame s t ∧
        ∀ (b : Budget) (later : List HostCommand), rest = .run b :: later → s.state = .ready →
          ∃ u, Host.Core.run Sys2Proof.core 2 t = .next u ∧ u.state = .faulted ∧ u.fault.cause = 11 ∧ u.fault.aux = 0 ∧
            VmKept s u ∧ HandleSame s u

/-- A decode command that succeeds, given while state is not Running, gives a next state whose header is tag 1 with the grid's width, height and their product, and whose program store holds the i-th decoded word at index i; the call's record has code 0, pos_valid 0 and detail 0; registers, memory, pc, the call stack, cycles, output, debug events, in_idx, state, the fault record and the handle are unchanged. -/
def Obligations.ASuccessfulDecodePublishesTheProgram : Prop :=
  ∀ (s : State) (fmt : PixelFormat) (w h : Word) (px : List Word) (ws : List IWord) (rest : List HostCommand),
    s.call = none → s.cmds = .decode fmt w h px :: rest → s.state ≠ .running →
      decodeGrid fmt w.toNat h.toNat px = .ok ws →
      ∃ t r, step s = .next t ∧ t.hdr.tag = 1 ∧ t.hdr.width = w ∧ t.hdr.height = h ∧
        t.hdr.length.toNat = w.toNat * h.toNat ∧ (∀ i : Nat, i < ws.length → some (progRead t i) = ws[i]?) ∧
        ws.length = w.toNat * h.toNat ∧ t.reply = some (.programPublished r) ∧ r.code = 0 ∧ r.posValid = false ∧
        r.detail = 0 ∧ VmKept s t ∧ t.state = s.state ∧ t.fault = s.fault ∧ HandleSame s t

/-- If encode succeeds on a list of instruction words with width w, then decoding its grid as HSV succeeds, publishes the header (1, w, h, w times h) and gives, for each word in order, its opcode and operand fields with the position of its index, and for the rest of the grid NOP at its position; and whenever encoding the decoded words of an HSV grid gives that grid back, every pixel of it was the canonical one. And encode does succeed (R113, of which this is a part), with the height ceil(L / w), exactly on a list of instructions that is not empty, with w in 1..1024 and ceil(L / w) at most 1024, whose operands all fit their kind's pixel range. -/
def Obligations.EncodedGridsDecodeToTheProgram : Prop :=
  (∀ (ins : List IWord) (w h : Nat) (grid : List Word), encodeGrid ins w = .ok (h, grid) →
      ∃ ws, decodeGrid .hsv w h grid = .ok ws ∧ ws.length = w * h ∧ ins.length ≤ w * h ∧
        (∀ s, (decodeCall .hsv (BitVec.ofNat 32 w) (BitVec.ofNat 32 h) grid s).hdr =
          { tag := 1, width := BitVec.ofNat 32 w, height := BitVec.ofNat 32 h, length := BitVec.ofNat 32 (w * h) }) ∧
        (∀ (i : Nat) (iw : IWord), ins[i]? = some iw →
          ws[i]? = some (packWord (opcodeField iw).toNat (op1Field iw) (op2Field iw) (posOfIndex w i))) ∧
        ∀ i, ins.length ≤ i → i < w * h → ws[i]? = some (encode (.nop 0 0 (posOfIndex w i)))) ∧
    (∀ (w h : Nat) (grid : List Word) (ws : List IWord), decodeGrid .hsv w h grid = .ok ws →
      encodeGrid ws w = .ok (h, grid) → ∀ p ∈ grid, ∃ i : Instr, ∃ j, encodePixel w j (encode i) = .ok p) ∧
    ∀ (prog : List Instr) (w : Nat),
      (∃ h grid, encodeGrid (prog.map encode) w = .ok (h, grid) ∧ h = (prog.length + w - 1) / w) ↔
        1 ≤ w ∧ w ≤ 1024 ∧ prog ≠ [] ∧ (prog.length + w - 1) / w ≤ 1024 ∧ ∀ i ∈ prog, i.pixelEncodable = true

/-! ### Palette-RLE codec -/

/-- For every method 0, 1 and 2, every width and height in 1..1024 and every sequence of width times height 32-bit words, the codec's encode succeeds and decoding its bytes gives the same width, height and words. -/
def Obligations.TheCodecRestoresEveryGrid : Prop :=
  ∀ (method w h : Word) (g : List Word), method.toNat ≤ 2 → 0 < w.toNat → w.toNat ≤ 1024 → 0 < h.toNat →
    h.toNat ≤ 1024 → g.length = w.toNat * h.toNat →
      ∃ a, codEncode method w h g = .ok a ∧ codDecode a = .ok (w, h, g)

/-- palette_reduce gives a palette without duplicates, no longer than the grid and empty only for the empty grid, one index a pixel, and pal[idx[i]] = g[i] for every i; a palette entry stands before another exactly when its first occurrence in the grid does. -/
def Obligations.PaletteReductionIndexesEveryPixel : Prop :=
  ∀ g : List Word, (paletteReduce g).1.Nodup ∧ (paletteReduce g).1.length ≤ g.length ∧
    (g ≠ [] → (paletteReduce g).1 ≠ []) ∧ (paletteReduce g).2.length = g.length ∧
    (∀ (i : Nat) (p : Word), g[i]? = some p → ∃ j : Nat, (paletteReduce g).2[i]? = some j ∧ (paletteReduce g).1[j]? = some p) ∧
    (∀ (i j : Nat) (p q : Word), (paletteReduce g).1[i]? = some p → (paletteReduce g).1[j]? = some q → i < j →
      g.idxOf p < g.idxOf q)

/-- For every sequence of w times h values with w at least 1, the runs of rle_encode are, in order, h groups, one a row: the lengths of a group sum to w, its neighbouring runs have different values, and its runs expanded in order are the row. Each run has a length from 1 to w, all runs expanded in order are the sequence, and there are at least h and at most w times h of them. -/
def Obligations.RunsRebuildTheirRows : Prop :=
  ∀ (w h : Nat) (g : List Word), 0 < w → g.length = w * h →
    (∃ rows : List (List (Word × Nat)), rleEncode w h g = rows.flatten ∧ rows.length = h ∧
        ∀ (y : Nat) (row : List (Word × Nat)), rows[y]? = some row →
          (row.map fun r => r.2).sum = w ∧
            (∀ (k : Nat) (a b : Word × Nat), row[k]? = some a → row[k + 1]? = some b → a.1 ≠ b.1) ∧
            row.flatMap (fun r => List.replicate r.2 r.1) = (g.drop (w * y)).take w) ∧
      (∀ r ∈ rleEncode w h g, 1 ≤ r.2 ∧ r.2 ≤ w) ∧
      (rleEncode w h g).flatMap (fun r => List.replicate r.2 r.1) = g ∧
      h ≤ (rleEncode w h g).length ∧ (rleEncode w h g).length ≤ w * h

/-- If decoding any bytes succeeds with a width, a height and a grid, the width is the second word of the bytes and the height the third, both lie in 1..1024, the grid has exactly width times height words, the number of bytes is a multiple of 4, and the sixth word of the bytes is the sum of the grid's words modulo 2^32. -/
def Obligations.DecodedGridsAreConsistent : Prop :=
  ∀ (bytes : List Byte) (w h : Word) (g : List Word), codDecode bytes = .ok (w, h, g) →
    (wordsOfBytes bytes)[1]? = some w ∧ (wordsOfBytes bytes)[2]? = some h ∧
      0 < w.toNat ∧ w.toNat ≤ 1024 ∧ 0 < h.toNat ∧ h.toNat ≤ 1024 ∧ g.length = w.toNat * h.toNat ∧
      bytes.length % 4 = 0 ∧ (wordsOfBytes bytes)[5]? = some (checkWord g)
end

