-- ==== Sys2Proof/Laws/State.lean ====
section
/-! SUPPORT. One lemma per field per update of the state, each true by rfl. -/

namespace Sys2Proof.Machine

@[simp] theorem setReg_x (s : State) (r : Fin 16) (v : Word) : (s.setReg r v).x = s.x.set r.val v := rfl
@[simp] theorem setReg_pc (s : State) (r : Fin 16) (v : Word) : (s.setReg r v).pc = s.pc := rfl
@[simp] theorem setReg_mem (s : State) (r : Fin 16) (v : Word) : (s.setReg r v).mem = s.mem := rfl
@[simp] theorem setReg_cs (s : State) (r : Fin 16) (v : Word) : (s.setReg r v).cs = s.cs := rfl
@[simp] theorem setReg_sp (s : State) (r : Fin 16) (v : Word) : (s.setReg r v).sp = s.sp := rfl
@[simp] theorem setReg_state (s : State) (r : Fin 16) (v : Word) : (s.setReg r v).state = s.state := rfl
@[simp] theorem setReg_out (s : State) (r : Fin 16) (v : Word) : (s.setReg r v).out = s.out := rfl
@[simp] theorem setReg_cycles (s : State) (r : Fin 16) (v : Word) : (s.setReg r v).cycles = s.cycles := rfl
@[simp] theorem setReg_fault (s : State) (r : Fin 16) (v : Word) : (s.setReg r v).fault = s.fault := rfl
@[simp] theorem setReg_inIdx (s : State) (r : Fin 16) (v : Word) : (s.setReg r v).inIdx = s.inIdx := rfl
@[simp] theorem setReg_dbg (s : State) (r : Fin 16) (v : Word) : (s.setReg r v).dbg = s.dbg := rfl
@[simp] theorem setReg_hdr (s : State) (r : Fin 16) (v : Word) : (s.setReg r v).hdr = s.hdr := rfl
@[simp] theorem setReg_prog (s : State) (r : Fin 16) (v : Word) : (s.setReg r v).prog = s.prog := rfl
@[simp] theorem setReg_storeGen (s : State) (r : Fin 16) (v : Word) : (s.setReg r v).storeGen = s.storeGen := rfl
@[simp] theorem setReg_inp (s : State) (r : Fin 16) (v : Word) : (s.setReg r v).inp = s.inp := rfl
@[simp] theorem setReg_hasHandle (s : State) (r : Fin 16) (v : Word) : (s.setReg r v).hasHandle = s.hasHandle := rfl
@[simp] theorem setReg_answers (s : State) (r : Fin 16) (v : Word) : (s.setReg r v).answers = s.answers := rfl
@[simp] theorem setReg_requests (s : State) (r : Fin 16) (v : Word) : (s.setReg r v).requests = s.requests := rfl
@[simp] theorem setReg_cmds (s : State) (r : Fin 16) (v : Word) : (s.setReg r v).cmds = s.cmds := rfl
@[simp] theorem setReg_call (s : State) (r : Fin 16) (v : Word) : (s.setReg r v).call = s.call := rfl
@[simp] theorem setReg_reply (s : State) (r : Fin 16) (v : Word) : (s.setReg r v).reply = s.reply := rfl

@[simp] theorem setCell_x (s : State) (a : Nat) (v : Word) : (s.setCell a v).x = s.x := rfl
@[simp] theorem setCell_pc (s : State) (a : Nat) (v : Word) : (s.setCell a v).pc = s.pc := rfl
@[simp] theorem setCell_mem (s : State) (a : Nat) (v : Word) : (s.setCell a v).mem = Memory.write s.mem a v := rfl
@[simp] theorem setCell_cs (s : State) (a : Nat) (v : Word) : (s.setCell a v).cs = s.cs := rfl
@[simp] theorem setCell_sp (s : State) (a : Nat) (v : Word) : (s.setCell a v).sp = s.sp := rfl
@[simp] theorem setCell_state (s : State) (a : Nat) (v : Word) : (s.setCell a v).state = s.state := rfl
@[simp] theorem setCell_out (s : State) (a : Nat) (v : Word) : (s.setCell a v).out = s.out := rfl
@[simp] theorem setCell_cycles (s : State) (a : Nat) (v : Word) : (s.setCell a v).cycles = s.cycles := rfl
@[simp] theorem setCell_fault (s : State) (a : Nat) (v : Word) : (s.setCell a v).fault = s.fault := rfl
@[simp] theorem setCell_inIdx (s : State) (a : Nat) (v : Word) : (s.setCell a v).inIdx = s.inIdx := rfl
@[simp] theorem setCell_dbg (s : State) (a : Nat) (v : Word) : (s.setCell a v).dbg = s.dbg := rfl
@[simp] theorem setCell_hdr (s : State) (a : Nat) (v : Word) : (s.setCell a v).hdr = s.hdr := rfl
@[simp] theorem setCell_prog (s : State) (a : Nat) (v : Word) : (s.setCell a v).prog = s.prog := rfl
@[simp] theorem setCell_storeGen (s : State) (a : Nat) (v : Word) : (s.setCell a v).storeGen = s.storeGen := rfl
@[simp] theorem setCell_inp (s : State) (a : Nat) (v : Word) : (s.setCell a v).inp = s.inp := rfl
@[simp] theorem setCell_hasHandle (s : State) (a : Nat) (v : Word) : (s.setCell a v).hasHandle = s.hasHandle := rfl
@[simp] theorem setCell_answers (s : State) (a : Nat) (v : Word) : (s.setCell a v).answers = s.answers := rfl
@[simp] theorem setCell_requests (s : State) (a : Nat) (v : Word) : (s.setCell a v).requests = s.requests := rfl
@[simp] theorem setCell_cmds (s : State) (a : Nat) (v : Word) : (s.setCell a v).cmds = s.cmds := rfl
@[simp] theorem setCell_call (s : State) (a : Nat) (v : Word) : (s.setCell a v).call = s.call := rfl
@[simp] theorem setCell_reply (s : State) (a : Nat) (v : Word) : (s.setCell a v).reply = s.reply := rfl

@[simp] theorem push_x (s : State) (v : Word) : (s.push v).x = s.x := rfl
@[simp] theorem push_pc (s : State) (v : Word) : (s.push v).pc = s.pc := rfl
@[simp] theorem push_mem (s : State) (v : Word) : (s.push v).mem = s.mem := rfl
@[simp] theorem push_cs (s : State) (v : Word) : (s.push v).cs = Memory.write s.cs s.sp.toNat v := rfl
@[simp] theorem push_sp (s : State) (v : Word) : (s.push v).sp = s.sp + 1 := rfl
@[simp] theorem push_state (s : State) (v : Word) : (s.push v).state = s.state := rfl
@[simp] theorem push_out (s : State) (v : Word) : (s.push v).out = s.out := rfl
@[simp] theorem push_cycles (s : State) (v : Word) : (s.push v).cycles = s.cycles := rfl
@[simp] theorem push_fault (s : State) (v : Word) : (s.push v).fault = s.fault := rfl
@[simp] theorem push_inIdx (s : State) (v : Word) : (s.push v).inIdx = s.inIdx := rfl
@[simp] theorem push_dbg (s : State) (v : Word) : (s.push v).dbg = s.dbg := rfl
@[simp] theorem push_hdr (s : State) (v : Word) : (s.push v).hdr = s.hdr := rfl
@[simp] theorem push_prog (s : State) (v : Word) : (s.push v).prog = s.prog := rfl
@[simp] theorem push_storeGen (s : State) (v : Word) : (s.push v).storeGen = s.storeGen := rfl
@[simp] theorem push_inp (s : State) (v : Word) : (s.push v).inp = s.inp := rfl
@[simp] theorem push_hasHandle (s : State) (v : Word) : (s.push v).hasHandle = s.hasHandle := rfl
@[simp] theorem push_answers (s : State) (v : Word) : (s.push v).answers = s.answers := rfl
@[simp] theorem push_requests (s : State) (v : Word) : (s.push v).requests = s.requests := rfl
@[simp] theorem push_cmds (s : State) (v : Word) : (s.push v).cmds = s.cmds := rfl
@[simp] theorem push_call (s : State) (v : Word) : (s.push v).call = s.call := rfl
@[simp] theorem push_reply (s : State) (v : Word) : (s.push v).reply = s.reply := rfl

@[simp] theorem pop_x (s : State) : (s.pop).x = s.x := rfl
@[simp] theorem pop_pc (s : State) : (s.pop).pc = s.pc := rfl
@[simp] theorem pop_mem (s : State) : (s.pop).mem = s.mem := rfl
@[simp] theorem pop_cs (s : State) : (s.pop).cs = s.cs := rfl
@[simp] theorem pop_sp (s : State) : (s.pop).sp = s.sp - 1 := rfl
@[simp] theorem pop_state (s : State) : (s.pop).state = s.state := rfl
@[simp] theorem pop_out (s : State) : (s.pop).out = s.out := rfl
@[simp] theorem pop_cycles (s : State) : (s.pop).cycles = s.cycles := rfl
@[simp] theorem pop_fault (s : State) : (s.pop).fault = s.fault := rfl
@[simp] theorem pop_inIdx (s : State) : (s.pop).inIdx = s.inIdx := rfl
@[simp] theorem pop_dbg (s : State) : (s.pop).dbg = s.dbg := rfl
@[simp] theorem pop_hdr (s : State) : (s.pop).hdr = s.hdr := rfl
@[simp] theorem pop_prog (s : State) : (s.pop).prog = s.prog := rfl
@[simp] theorem pop_storeGen (s : State) : (s.pop).storeGen = s.storeGen := rfl
@[simp] theorem pop_inp (s : State) : (s.pop).inp = s.inp := rfl
@[simp] theorem pop_hasHandle (s : State) : (s.pop).hasHandle = s.hasHandle := rfl
@[simp] theorem pop_answers (s : State) : (s.pop).answers = s.answers := rfl
@[simp] theorem pop_requests (s : State) : (s.pop).requests = s.requests := rfl
@[simp] theorem pop_cmds (s : State) : (s.pop).cmds = s.cmds := rfl
@[simp] theorem pop_call (s : State) : (s.pop).call = s.call := rfl
@[simp] theorem pop_reply (s : State) : (s.pop).reply = s.reply := rfl

@[simp] theorem emit_x (s : State) (t : OutTag) (v : Word) : (s.emit t v).x = s.x := rfl
@[simp] theorem emit_pc (s : State) (t : OutTag) (v : Word) : (s.emit t v).pc = s.pc := rfl
@[simp] theorem emit_mem (s : State) (t : OutTag) (v : Word) : (s.emit t v).mem = s.mem := rfl
@[simp] theorem emit_cs (s : State) (t : OutTag) (v : Word) : (s.emit t v).cs = s.cs := rfl
@[simp] theorem emit_sp (s : State) (t : OutTag) (v : Word) : (s.emit t v).sp = s.sp := rfl
@[simp] theorem emit_state (s : State) (t : OutTag) (v : Word) : (s.emit t v).state = s.state := rfl
@[simp] theorem emit_out (s : State) (t : OutTag) (v : Word) : (s.emit t v).out = s.out ++ [{ tag := t, value := v }] := rfl
@[simp] theorem emit_cycles (s : State) (t : OutTag) (v : Word) : (s.emit t v).cycles = s.cycles := rfl
@[simp] theorem emit_fault (s : State) (t : OutTag) (v : Word) : (s.emit t v).fault = s.fault := rfl
@[simp] theorem emit_inIdx (s : State) (t : OutTag) (v : Word) : (s.emit t v).inIdx = s.inIdx := rfl
@[simp] theorem emit_dbg (s : State) (t : OutTag) (v : Word) : (s.emit t v).dbg = s.dbg := rfl
@[simp] theorem emit_hdr (s : State) (t : OutTag) (v : Word) : (s.emit t v).hdr = s.hdr := rfl
@[simp] theorem emit_prog (s : State) (t : OutTag) (v : Word) : (s.emit t v).prog = s.prog := rfl
@[simp] theorem emit_storeGen (s : State) (t : OutTag) (v : Word) : (s.emit t v).storeGen = s.storeGen := rfl
@[simp] theorem emit_inp (s : State) (t : OutTag) (v : Word) : (s.emit t v).inp = s.inp := rfl
@[simp] theorem emit_hasHandle (s : State) (t : OutTag) (v : Word) : (s.emit t v).hasHandle = s.hasHandle := rfl
@[simp] theorem emit_answers (s : State) (t : OutTag) (v : Word) : (s.emit t v).answers = s.answers := rfl
@[simp] theorem emit_requests (s : State) (t : OutTag) (v : Word) : (s.emit t v).requests = s.requests := rfl
@[simp] theorem emit_cmds (s : State) (t : OutTag) (v : Word) : (s.emit t v).cmds = s.cmds := rfl
@[simp] theorem emit_call (s : State) (t : OutTag) (v : Word) : (s.emit t v).call = s.call := rfl
@[simp] theorem emit_reply (s : State) (t : OutTag) (v : Word) : (s.emit t v).reply = s.reply := rfl

@[simp] theorem transact_x (s : State) (k : Fin 5) (a b : Word) : (s.transact k a b).x = s.x := rfl
@[simp] theorem transact_pc (s : State) (k : Fin 5) (a b : Word) : (s.transact k a b).pc = s.pc := rfl
@[simp] theorem transact_mem (s : State) (k : Fin 5) (a b : Word) : (s.transact k a b).mem = s.mem := rfl
@[simp] theorem transact_cs (s : State) (k : Fin 5) (a b : Word) : (s.transact k a b).cs = s.cs := rfl
@[simp] theorem transact_sp (s : State) (k : Fin 5) (a b : Word) : (s.transact k a b).sp = s.sp := rfl
@[simp] theorem transact_state (s : State) (k : Fin 5) (a b : Word) : (s.transact k a b).state = s.state := rfl
@[simp] theorem transact_out (s : State) (k : Fin 5) (a b : Word) : (s.transact k a b).out = s.out := rfl
@[simp] theorem transact_cycles (s : State) (k : Fin 5) (a b : Word) : (s.transact k a b).cycles = s.cycles := rfl
@[simp] theorem transact_fault (s : State) (k : Fin 5) (a b : Word) : (s.transact k a b).fault = s.fault := rfl
@[simp] theorem transact_inIdx (s : State) (k : Fin 5) (a b : Word) : (s.transact k a b).inIdx = s.inIdx := rfl
@[simp] theorem transact_dbg (s : State) (k : Fin 5) (a b : Word) : (s.transact k a b).dbg = s.dbg := rfl
@[simp] theorem transact_hdr (s : State) (k : Fin 5) (a b : Word) : (s.transact k a b).hdr = s.hdr := rfl
@[simp] theorem transact_prog (s : State) (k : Fin 5) (a b : Word) : (s.transact k a b).prog = s.prog := rfl
@[simp] theorem transact_storeGen (s : State) (k : Fin 5) (a b : Word) : (s.transact k a b).storeGen = s.storeGen := rfl
@[simp] theorem transact_inp (s : State) (k : Fin 5) (a b : Word) : (s.transact k a b).inp = s.inp := rfl
@[simp] theorem transact_hasHandle (s : State) (k : Fin 5) (a b : Word) : (s.transact k a b).hasHandle = s.hasHandle := rfl
@[simp] theorem transact_answers (s : State) (k : Fin 5) (a b : Word) : (s.transact k a b).answers = s.answers.tail := rfl
@[simp] theorem transact_requests (s : State) (k : Fin 5) (a b : Word) : (s.transact k a b).requests = s.requests ++ [{ k := k, a := a, b := b }] := rfl
@[simp] theorem transact_cmds (s : State) (k : Fin 5) (a b : Word) : (s.transact k a b).cmds = s.cmds := rfl
@[simp] theorem transact_call (s : State) (k : Fin 5) (a b : Word) : (s.transact k a b).call = s.call := rfl
@[simp] theorem transact_reply (s : State) (k : Fin 5) (a b : Word) : (s.transact k a b).reply = s.reply := rfl

@[simp] theorem enterFault_x (w : Option IWord) (c : Cause) (aux : Int) (s : State) : (enterFault w c aux s).x = s.x := rfl
@[simp] theorem enterFault_pc (w : Option IWord) (c : Cause) (aux : Int) (s : State) : (enterFault w c aux s).pc = s.pc := rfl
@[simp] theorem enterFault_mem (w : Option IWord) (c : Cause) (aux : Int) (s : State) : (enterFault w c aux s).mem = s.mem := rfl
@[simp] theorem enterFault_cs (w : Option IWord) (c : Cause) (aux : Int) (s : State) : (enterFault w c aux s).cs = s.cs := rfl
@[simp] theorem enterFault_sp (w : Option IWord) (c : Cause) (aux : Int) (s : State) : (enterFault w c aux s).sp = s.sp := rfl
@[simp] theorem enterFault_state (w : Option IWord) (c : Cause) (aux : Int) (s : State) : (enterFault w c aux s).state = .faulted := rfl
@[simp] theorem enterFault_out (w : Option IWord) (c : Cause) (aux : Int) (s : State) : (enterFault w c aux s).out = s.out := rfl
@[simp] theorem enterFault_cycles (w : Option IWord) (c : Cause) (aux : Int) (s : State) : (enterFault w c aux s).cycles = s.cycles := rfl
@[simp] theorem enterFault_fault (w : Option IWord) (c : Cause) (aux : Int) (s : State) : (enterFault w c aux s).fault = faultRecord w c aux s.pc := rfl
@[simp] theorem enterFault_inIdx (w : Option IWord) (c : Cause) (aux : Int) (s : State) : (enterFault w c aux s).inIdx = s.inIdx := rfl
@[simp] theorem enterFault_dbg (w : Option IWord) (c : Cause) (aux : Int) (s : State) : (enterFault w c aux s).dbg = s.dbg := rfl
@[simp] theorem enterFault_hdr (w : Option IWord) (c : Cause) (aux : Int) (s : State) : (enterFault w c aux s).hdr = s.hdr := rfl
@[simp] theorem enterFault_prog (w : Option IWord) (c : Cause) (aux : Int) (s : State) : (enterFault w c aux s).prog = s.prog := rfl
@[simp] theorem enterFault_storeGen (w : Option IWord) (c : Cause) (aux : Int) (s : State) : (enterFault w c aux s).storeGen = s.storeGen := rfl
@[simp] theorem enterFault_inp (w : Option IWord) (c : Cause) (aux : Int) (s : State) : (enterFault w c aux s).inp = s.inp := rfl
@[simp] theorem enterFault_hasHandle (w : Option IWord) (c : Cause) (aux : Int) (s : State) : (enterFault w c aux s).hasHandle = s.hasHandle := rfl
@[simp] theorem enterFault_answers (w : Option IWord) (c : Cause) (aux : Int) (s : State) : (enterFault w c aux s).answers = s.answers := rfl
@[simp] theorem enterFault_requests (w : Option IWord) (c : Cause) (aux : Int) (s : State) : (enterFault w c aux s).requests = s.requests := rfl
@[simp] theorem enterFault_cmds (w : Option IWord) (c : Cause) (aux : Int) (s : State) : (enterFault w c aux s).cmds = s.cmds := rfl
@[simp] theorem enterFault_call (w : Option IWord) (c : Cause) (aux : Int) (s : State) : (enterFault w c aux s).call = s.call := rfl
@[simp] theorem enterFault_reply (w : Option IWord) (c : Cause) (aux : Int) (s : State) : (enterFault w c aux s).reply = s.reply := rfl

@[simp] theorem countTurn_x (s : State) : (countTurn s).x = s.x := rfl
@[simp] theorem countTurn_pc (s : State) : (countTurn s).pc = s.pc := rfl
@[simp] theorem countTurn_mem (s : State) : (countTurn s).mem = s.mem := rfl
@[simp] theorem countTurn_cs (s : State) : (countTurn s).cs = s.cs := rfl
@[simp] theorem countTurn_sp (s : State) : (countTurn s).sp = s.sp := rfl
@[simp] theorem countTurn_state (s : State) : (countTurn s).state = s.state := rfl
@[simp] theorem countTurn_out (s : State) : (countTurn s).out = s.out := rfl
@[simp] theorem countTurn_cycles (s : State) : (countTurn s).cycles = s.cycles := rfl
@[simp] theorem countTurn_fault (s : State) : (countTurn s).fault = s.fault := rfl
@[simp] theorem countTurn_inIdx (s : State) : (countTurn s).inIdx = s.inIdx := rfl
@[simp] theorem countTurn_dbg (s : State) : (countTurn s).dbg = s.dbg := rfl
@[simp] theorem countTurn_hdr (s : State) : (countTurn s).hdr = s.hdr := rfl
@[simp] theorem countTurn_prog (s : State) : (countTurn s).prog = s.prog := rfl
@[simp] theorem countTurn_storeGen (s : State) : (countTurn s).storeGen = s.storeGen := rfl
@[simp] theorem countTurn_inp (s : State) : (countTurn s).inp = s.inp := rfl
@[simp] theorem countTurn_hasHandle (s : State) : (countTurn s).hasHandle = s.hasHandle := rfl
@[simp] theorem countTurn_answers (s : State) : (countTurn s).answers = s.answers := rfl
@[simp] theorem countTurn_requests (s : State) : (countTurn s).requests = s.requests := rfl
@[simp] theorem countTurn_cmds (s : State) : (countTurn s).cmds = s.cmds := rfl
@[simp] theorem countTurn_call (s : State) : (countTurn s).call = s.call.map fun c => { left := c.left.map fun n => n - 1 } := rfl
@[simp] theorem countTurn_reply (s : State) : (countTurn s).reply = s.reply := rfl

@[simp] theorem returnStatus_x (st : RunStatus) (s : State) : (returnStatus st s).x = s.x := rfl
@[simp] theorem returnStatus_pc (st : RunStatus) (s : State) : (returnStatus st s).pc = s.pc := rfl
@[simp] theorem returnStatus_mem (st : RunStatus) (s : State) : (returnStatus st s).mem = s.mem := rfl
@[simp] theorem returnStatus_cs (st : RunStatus) (s : State) : (returnStatus st s).cs = s.cs := rfl
@[simp] theorem returnStatus_sp (st : RunStatus) (s : State) : (returnStatus st s).sp = s.sp := rfl
@[simp] theorem returnStatus_state (st : RunStatus) (s : State) : (returnStatus st s).state = s.state := rfl
@[simp] theorem returnStatus_out (st : RunStatus) (s : State) : (returnStatus st s).out = s.out := rfl
@[simp] theorem returnStatus_cycles (st : RunStatus) (s : State) : (returnStatus st s).cycles = s.cycles := rfl
@[simp] theorem returnStatus_fault (st : RunStatus) (s : State) : (returnStatus st s).fault = s.fault := rfl
@[simp] theorem returnStatus_inIdx (st : RunStatus) (s : State) : (returnStatus st s).inIdx = s.inIdx := rfl
@[simp] theorem returnStatus_dbg (st : RunStatus) (s : State) : (returnStatus st s).dbg = s.dbg := rfl
@[simp] theorem returnStatus_hdr (st : RunStatus) (s : State) : (returnStatus st s).hdr = s.hdr := rfl
@[simp] theorem returnStatus_prog (st : RunStatus) (s : State) : (returnStatus st s).prog = s.prog := rfl
@[simp] theorem returnStatus_storeGen (st : RunStatus) (s : State) : (returnStatus st s).storeGen = s.storeGen := rfl
@[simp] theorem returnStatus_inp (st : RunStatus) (s : State) : (returnStatus st s).inp = s.inp := rfl
@[simp] theorem returnStatus_hasHandle (st : RunStatus) (s : State) : (returnStatus st s).hasHandle = s.hasHandle := rfl
@[simp] theorem returnStatus_answers (st : RunStatus) (s : State) : (returnStatus st s).answers = s.answers := rfl
@[simp] theorem returnStatus_requests (st : RunStatus) (s : State) : (returnStatus st s).requests = s.requests := rfl
@[simp] theorem returnStatus_cmds (st : RunStatus) (s : State) : (returnStatus st s).cmds = s.cmds := rfl
@[simp] theorem returnStatus_call (st : RunStatus) (s : State) : (returnStatus st s).call = none := rfl
@[simp] theorem returnStatus_reply (st : RunStatus) (s : State) : (returnStatus st s).reply = some (.runStatus st) := rfl

@[simp] theorem vmReset_x (s : State) : (vmReset s).x = State.reset.x := rfl
@[simp] theorem vmReset_pc (s : State) : (vmReset s).pc = State.reset.pc := rfl
@[simp] theorem vmReset_mem (s : State) : (vmReset s).mem = State.reset.mem := rfl
@[simp] theorem vmReset_cs (s : State) : (vmReset s).cs = State.reset.cs := rfl
@[simp] theorem vmReset_sp (s : State) : (vmReset s).sp = State.reset.sp := rfl
@[simp] theorem vmReset_state (s : State) : (vmReset s).state = State.reset.state := rfl
@[simp] theorem vmReset_out (s : State) : (vmReset s).out = State.reset.out := rfl
@[simp] theorem vmReset_cycles (s : State) : (vmReset s).cycles = State.reset.cycles := rfl
@[simp] theorem vmReset_fault (s : State) : (vmReset s).fault = State.reset.fault := rfl
@[simp] theorem vmReset_inIdx (s : State) : (vmReset s).inIdx = State.reset.inIdx := rfl
@[simp] theorem vmReset_dbg (s : State) : (vmReset s).dbg = State.reset.dbg := rfl
@[simp] theorem vmReset_hdr (s : State) : (vmReset s).hdr = s.hdr := rfl
@[simp] theorem vmReset_prog (s : State) : (vmReset s).prog = s.prog := rfl
@[simp] theorem vmReset_storeGen (s : State) : (vmReset s).storeGen = s.storeGen := rfl
@[simp] theorem vmReset_inp (s : State) : (vmReset s).inp = s.inp := rfl
@[simp] theorem vmReset_hasHandle (s : State) : (vmReset s).hasHandle = s.hasHandle := rfl
@[simp] theorem vmReset_answers (s : State) : (vmReset s).answers = s.answers := rfl
@[simp] theorem vmReset_requests (s : State) : (vmReset s).requests = s.requests := rfl
@[simp] theorem vmReset_cmds (s : State) : (vmReset s).cmds = s.cmds := rfl
@[simp] theorem vmReset_call (s : State) : (vmReset s).call = s.call := rfl
@[simp] theorem vmReset_reply (s : State) : (vmReset s).reply = s.reply := rfl

end Sys2Proof.Machine
end

