-- ==== Sys2Proof/Laws/Cells.lean ====
section
/-! SUPPORT. The laws of the sparse stores: reading after writing, and every operation keeps the canonical form. -/

namespace Sys2Proof.Machine

variable {α : Type}

theorem sparseRising_mono {lo lo' limit : Nat} {m : Sparse α} (h : sparseRising lo limit m = true) (hl : lo' ≤ lo) :
    sparseRising lo' limit m = true := by
  cases m with
  | nil => rfl
  | cons c rest =>
    simp only [sparseRising, Bool.and_eq_true, decide_eq_true_eq] at h ⊢
    exact ⟨⟨by omega, h.1.2⟩, h.2⟩

/-- A rising list holds nothing below where it starts. -/
theorem sparseGet?_below {lo limit a : Nat} {m : Sparse α} (h : sparseRising lo limit m = true) (ha : a < lo) :
    sparseGet? m a = none := by
  induction m generalizing lo with
  | nil => rfl
  | cons c rest ih =>
    simp only [sparseRising, Bool.and_eq_true, decide_eq_true_eq] at h
    have hne : a ≠ c.1 := by omega
    simp only [sparseGet?, if_neg hne]
    exact ih h.2 (by omega)

theorem sparseGet?_set_self (m : Sparse α) (a : Nat) (v : α) : sparseGet? (sparseSet m a v) a = some v := by
  induction m with
  | nil => simp [sparseSet, sparseGet?]
  | cons c rest ih =>
    simp only [sparseSet]
    split
    · simp [sparseGet?]
    · split
      · simp [sparseGet?]
      · simp [sparseGet?, *]

theorem sparseGet?_set_other (m : Sparse α) {a b : Nat} (v : α) (hab : b ≠ a) :
    sparseGet? (sparseSet m a v) b = sparseGet? m b := by
  induction m with
  | nil => simp [sparseSet, sparseGet?, hab]
  | cons c rest ih =>
    simp only [sparseSet]
    split
    · simp [sparseGet?, hab]
    · split
      · rename_i h; subst h; simp [sparseGet?, hab]
      · simp [sparseGet?, ih]

theorem sparseGet?_erase_self (m : Sparse α) (a : Nat) : sparseGet? (sparseErase m a) a = none := by
  induction m with
  | nil => rfl
  | cons c rest ih =>
    simp only [sparseErase]
    split
    · exact ih
    · rename_i hc; simp only [sparseGet?, if_neg hc]; exact ih

theorem sparseGet?_erase_other (m : Sparse α) {a b : Nat} (hab : b ≠ a) :
    sparseGet? (sparseErase m a) b = sparseGet? m b := by
  induction m with
  | nil => rfl
  | cons c rest ih =>
    simp only [sparseErase]
    split
    · rename_i hc; subst hc; simp [sparseGet?, hab, ih]
    · simp [sparseGet?, ih]

theorem sparseRising_set {lo limit a : Nat} {m : Sparse α} (v : α) (h : sparseRising lo limit m = true)
    (hlo : lo ≤ a) (ha : a < limit) : sparseRising lo limit (sparseSet m a v) = true := by
  induction m generalizing lo with
  | nil => simp [sparseSet, sparseRising, hlo, ha]
  | cons c rest ih =>
    have h' := h
    simp only [sparseRising, Bool.and_eq_true, decide_eq_true_eq] at h'
    simp only [sparseSet]
    split
    · simp only [sparseRising, Bool.and_eq_true, decide_eq_true_eq]
      exact ⟨⟨hlo, ha⟩, ⟨by omega, h'.1.2⟩, h'.2⟩
    · split
      · rename_i hc; subst hc
        simp only [sparseRising, Bool.and_eq_true, decide_eq_true_eq]
        exact ⟨h'.1, h'.2⟩
      · simp only [sparseRising, Bool.and_eq_true, decide_eq_true_eq]
        exact ⟨h'.1, ih h'.2 (by omega)⟩

theorem sparseRising_erase {lo limit : Nat} {m : Sparse α} (a : Nat) (h : sparseRising lo limit m = true) :
    sparseRising lo limit (sparseErase m a) = true := by
  induction m generalizing lo with
  | nil => rfl
  | cons c rest ih =>
    have h' := h
    simp only [sparseRising, Bool.and_eq_true, decide_eq_true_eq] at h'
    simp only [sparseErase]
    split
    · exact sparseRising_mono (ih h'.2) (by omega)
    · simp only [sparseRising, Bool.and_eq_true, decide_eq_true_eq]
      exact ⟨h'.1, ih h'.2⟩

theorem mem_sparseSet {m : Sparse α} {a : Nat} {v : α} {c : Nat × α} (h : c ∈ sparseSet m a v) :
    c = (a, v) ∨ c ∈ m := by
  induction m with
  | nil => simpa [sparseSet] using h
  | cons d rest ih =>
    simp only [sparseSet] at h
    split at h
    · simpa using h
    · split at h
      · rcases List.mem_cons.1 h with h | h
        · exact .inl h
        · exact .inr (List.mem_cons_of_mem _ h)
      · rcases List.mem_cons.1 h with h | h
        · exact .inr (h ▸ List.mem_cons_self)
        · exact (ih h).imp id (List.mem_cons_of_mem _)

theorem mem_sparseErase {m : Sparse α} {a : Nat} {c : Nat × α} (h : c ∈ sparseErase m a) : c ∈ m := by
  induction m with
  | nil => simp [sparseErase] at h
  | cons d rest ih =>
    simp only [sparseErase] at h
    split at h
    · exact List.mem_cons_of_mem _ (ih h)
    · rcases List.mem_cons.1 h with h | h
      · exact h ▸ List.mem_cons_self
      · exact List.mem_cons_of_mem _ (ih h)

/-- A write keeps the canonical form of a memory. -/
theorem memory_wf_write {limit a : Nat} {m : Memory} (v : Word) (h : Memory.wf limit m = true) (ha : a < limit) :
    Memory.wf limit (Memory.write m a v) = true := by
  simp only [Memory.wf, Bool.and_eq_true, List.all_eq_true, decide_eq_true_eq] at h ⊢
  unfold Memory.write
  split
  · exact ⟨sparseRising_erase a h.1, fun c hc => h.2 c (mem_sparseErase hc)⟩
  · rename_i hv
    refine ⟨sparseRising_set v h.1 (Nat.zero_le _) ha, fun c hc => ?_⟩
    rcases mem_sparseSet hc with rfl | hc
    · exact hv
    · exact h.2 c hc

/-- A cell reads what was last written to it. -/
theorem memory_read_write_self (m : Memory) (a : Nat) (v : Word) : Memory.read (Memory.write m a v) a = v := by
  unfold Memory.write Memory.read
  split
  · rename_i hv; rw [sparseGet?_erase_self]; exact hv.symm
  · rw [sparseGet?_set_self]; rfl

/-- A write leaves every other cell alone. -/
theorem memory_read_write_other (m : Memory) {a b : Nat} (v : Word) (hab : b ≠ a) :
    Memory.read (Memory.write m a v) b = Memory.read m b := by
  unfold Memory.write Memory.read
  split
  · rw [sparseGet?_erase_other m hab]
  · rw [sparseGet?_set_other m v hab]

end Sys2Proof.Machine
end

