-- ==== Sys2Proof/Laws/Decode.lean ====
section
/-! SUPPORT. The fields of a packed instruction word (spec/30_encoding.md R62), and the words as bytes (R41). -/

namespace Sys2Proof

@[simp] theorem opcodeField_packWord (k : Nat) (a b : Operand) (p : Pos) :
    opcodeField (packWord k a b p) = BitVec.ofNat 8 k := by
  ext i hi
  simp only [opcodeField, packWord, BitVec.getElem_extractLsb', BitVec.getLsbD_append]
  simp [show ¬ 56 + i < 12 by omega, show ¬ 56 + i - 12 < 12 by omega, show ¬ 56 + i - 12 - 12 < 16 by omega,
    show ¬ 56 + i - 12 - 12 - 16 < 16 by omega, show 56 + i - 12 - 12 - 16 - 16 = i by omega, hi]

@[simp] theorem op1Field_packWord (k : Nat) (a b : Operand) (p : Pos) : op1Field (packWord k a b p) = a := by
  ext i hi
  simp only [op1Field, packWord, BitVec.getElem_extractLsb', BitVec.getLsbD_append]
  simp [show ¬ 40 + i < 12 by omega, show ¬ 40 + i - 12 < 12 by omega, show ¬ 40 + i - 12 - 12 < 16 by omega,
    show 40 + i - 12 - 12 - 16 = i by omega, hi]

@[simp] theorem op2Field_packWord (k : Nat) (a b : Operand) (p : Pos) : op2Field (packWord k a b p) = b := by
  ext i hi
  simp only [op2Field, packWord, BitVec.getElem_extractLsb', BitVec.getLsbD_append]
  simp [show ¬ 24 + i < 12 by omega, show ¬ 24 + i - 12 < 12 by omega, show 24 + i - 12 - 12 = i by omega, hi]

@[simp] theorem yField_packWord (k : Nat) (a b : Operand) (p : Pos) : yField (packWord k a b p) = p.y := by
  ext i hi
  simp only [yField, packWord, BitVec.getElem_extractLsb', BitVec.getLsbD_append]
  simp [show ¬ 12 + i < 12 by omega, hi]

@[simp] theorem xField_packWord (k : Nat) (a b : Operand) (p : Pos) : xField (packWord k a b p) = p.x := by
  ext i hi
  simp only [xField, packWord, BitVec.getElem_extractLsb', BitVec.getLsbD_append]
  simp [hi]

@[simp] theorem posField_packWord (k : Nat) (a b : Operand) (p : Pos) : posField (packWord k a b p) = p := by
  simp [posField]

@[simp] theorem xField_encode (i : Instr) : xField (encode i) = i.pos.x := by simp [encode]

@[simp] theorem yField_encode (i : Instr) : yField (encode i) = i.pos.y := by simp [encode]

/-- Four bytes of a word, put together again, are the word. -/
@[simp] theorem wordOfBytes_bytes (w : Word) :
    wordOfBytes (w.extractLsb' 0 8) (w.extractLsb' 8 8) (w.extractLsb' 16 8) (w.extractLsb' 24 8) = w := by
  apply BitVec.eq_of_getLsbD_eq
  intro i hi
  unfold wordOfBytes
  simp only [BitVec.getLsbD_append, BitVec.getLsbD_extractLsb']
  split
  · simp_all
  · split
    · simp [show i - 8 < 8 by omega, show 8 + (i - 8) = i by omega]
    · split
      · simp [show i - 8 - 8 < 8 by omega, show 16 + (i - 8 - 8) = i by omega]
      · simp [show i - 8 - 8 - 8 < 8 by omega, show 24 + (i - 8 - 8 - 8) = i by omega]

end Sys2Proof
end

