-- ==== Sys2Proof/Laws/Ops.lean ====
section
/-! SUPPORT. For each shared operation, once, everything it can do: registers and cells after an update, each operand check
passed or failed, the fault taken. Later proofs cite these instead of unfolding the operations. -/

namespace Sys2Proof.Machine

/-! ### Reading after an update -/

@[simp] theorem reg_setReg_self (s : State) (r : Fin 16) (v : Word) : (s.setReg r v).reg r = v := by
  simp [State.reg, State.setReg]

theorem reg_setReg_other (s : State) {r q : Fin 16} (v : Word) (h : q ≠ r) : (s.setReg r v).reg q = s.reg q := by
  have h' : r.val ≠ q.val := fun e => h (Fin.ext e.symm)
  simp [State.reg, State.setReg, Vector.getElem_set_ne, h']

@[simp] theorem cell_setCell_self (s : State) (a : Nat) (v : Word) : (s.setCell a v).cell a = v :=
  memory_read_write_self s.mem a v

theorem cell_setCell_other (s : State) {a b : Nat} (v : Word) (h : b ≠ a) : (s.setCell a v).cell b = s.cell b :=
  memory_read_write_other s.mem v h

@[simp] theorem entry_push_self (s : State) (v : Word) : (s.push v).entry s.sp.toNat = v :=
  memory_read_write_self s.cs s.sp.toNat v

theorem entry_push_other (s : State) {n : Nat} (v : Word) (h : n ≠ s.sp.toNat) : (s.push v).entry n = s.entry n :=
  memory_read_write_other s.cs v h

/-! ### Faults -/

theorem auxWord_fits {v : Int} (h : -2147483648 ≤ v) (h' : v < 4294967296) : auxWord v = BitVec.ofInt 32 v := by
  simp [auxWord, h, h']

/-- An operand field's value always fits the fault record. -/
theorem auxWord_operand (op : Operand) : auxWord op.toInt = BitVec.ofInt 32 op.toInt :=
  auxWord_fits (by have := op.le_toInt; omega) (by have := op.toInt_lt; omega)

/-- A register value always fits the fault record, which then holds it. -/
theorem auxWord_word (v : Word) : auxWord v.toInt = v := by
  rw [auxWord_fits (by have := v.le_toInt; omega) (by have := v.toInt_lt; omega)]
  exact BitVec.ofInt_toInt

/-- `raise` takes the fault: it answers the next state that R256 describes. -/
theorem raise_taken (i : Instr) (c : Cause) {aux : Int} (s : State) (h : auxWord aux = BitVec.ofInt 32 aux) :
    ∃ t, raise i c aux s = .next t ∧ FaultTaken i c.code aux s t :=
  ⟨_, rfl, by simp [FaultTaken, enterFault, faultRecord, h]⟩

/-! ### Operand checks: passed or failed -/

/-- The register named, exactly when the operand lies in 0..15. -/
theorem regIndex_eq_some {op : Operand} {r : Fin 16} : regIndex op = some r ↔ op.toInt = (r.val : Int) := by
  unfold regIndex opValue
  split
  · rename_i h
    simp only [Option.some.injEq, Fin.ext_iff]
    omega
  · rename_i h
    simp only [reduceCtorEq, false_iff]
    omega

theorem regIndex_eq_none {op : Operand} : regIndex op = none ↔ op.toInt < 0 ∨ 15 < op.toInt := by
  unfold regIndex opValue
  split <;> simp <;> omega

theorem withReg_ok {i : Instr} {op : Operand} {s : State} {k : Fin 16 → Result} {r : Fin 16}
    (h : op.toInt = (r.val : Int)) : withReg i op s k = k r := by
  simp [withReg, regIndex_eq_some.2 h]

theorem withReg_bad {i : Instr} {op : Operand} {s : State} {k : Fin 16 → Result} (h : op.toInt < 0 ∨ 15 < op.toInt) :
    withReg i op s k = raise i .registerOutOfBounds op.toInt s := by
  simp [withReg, regIndex_eq_none.2 h, opValue]

/-- All that `withReg` can do. -/
theorem withReg_cases (i : Instr) (op : Operand) (s : State) (k : Fin 16 → Result) :
    (∃ r : Fin 16, op.toInt = (r.val : Int) ∧ withReg i op s k = k r) ∨
      ((op.toInt < 0 ∨ 15 < op.toInt) ∧ withReg i op s k = raise i .registerOutOfBounds op.toInt s) := by
  cases h : regIndex op with
  | some r => exact .inl ⟨r, regIndex_eq_some.1 h, withReg_ok (regIndex_eq_some.1 h)⟩
  | none => exact .inr ⟨regIndex_eq_none.1 h, withReg_bad (regIndex_eq_none.1 h)⟩

theorem withRegPair_ok {i : Instr} {op1 op2 : Operand} {s : State} {k : Fin 16 → Fin 16 → Result} {a b : Fin 16}
    (h1 : op1.toInt = (a.val : Int)) (h2 : op2.toInt = (b.val : Int)) : withRegPair i op1 op2 s k = k a b := by
  simp [withRegPair, withReg_ok h1, withReg_ok h2]

/-- All that `withRegPair` can do. -/
theorem withRegPair_cases (i : Instr) (op1 op2 : Operand) (s : State) (k : Fin 16 → Fin 16 → Result) :
    (∃ a b : Fin 16, op1.toInt = (a.val : Int) ∧ op2.toInt = (b.val : Int) ∧ withRegPair i op1 op2 s k = k a b) ∨
      ((op1.toInt < 0 ∨ 15 < op1.toInt) ∧ withRegPair i op1 op2 s k = raise i .registerOutOfBounds op1.toInt s) ∨
      (∃ a : Fin 16, op1.toInt = (a.val : Int) ∧ (op2.toInt < 0 ∨ 15 < op2.toInt) ∧
        withRegPair i op1 op2 s k = raise i .registerOutOfBounds op2.toInt s) := by
  rcases withReg_cases i op1 s (fun ra => withReg i op2 s fun rb => k ra rb) with ⟨a, h1, e1⟩ | ⟨h1, e1⟩
  · rcases withReg_cases i op2 s (fun rb => k a rb) with ⟨b, h2, e2⟩ | ⟨h2, e2⟩
    · exact .inl ⟨a, b, h1, h2, e1.trans e2⟩
    · exact .inr (.inr ⟨a, h1, h2, e1.trans e2⟩)
  · exact .inr (.inl ⟨h1, e1⟩)

/-- All that `withSel` can do. -/
theorem withSel_cases (i : Instr) (op : Operand) (s : State) (k : OutTag → Result) :
    (op.toInt = 0 ∧ withSel i op s k = k .int) ∨ (op.toInt = 1 ∧ withSel i op s k = k .chr) ∨
      (op.toInt ≠ 0 ∧ op.toInt ≠ 1 ∧ withSel i op s k = raise i .invalidOperand op.toInt s) := by
  by_cases h0 : op.toInt = 0
  · exact .inl ⟨h0, by simp [withSel, selTag, opValue, h0]⟩
  · by_cases h1 : op.toInt = 1
    · exact .inr (.inl ⟨h1, by simp [withSel, selTag, opValue, h1]⟩)
    · exact .inr (.inr ⟨h0, h1, by simp [withSel, selTag, opValue, h0, h1]⟩)

/-- All that `withCell` can do. -/
theorem withCell_cases (i : Instr) (a : Int) (s : State) (k : Nat → Result) :
    (∃ n : Nat, a = (n : Int) ∧ n ≤ 1023 ∧ cellIndex a = some n ∧ withCell i a s k = k n) ∨
      ((a < 0 ∨ 1023 < a) ∧ cellIndex a = none ∧ withCell i a s k = raise i .memoryOutOfBounds a s) := by
  by_cases h : 0 ≤ a ∧ a ≤ 1023
  · have e : cellIndex a = some a.toNat := by simp [cellIndex, h]
    exact .inl ⟨a.toNat, by omega, by omega, e, by simp [withCell, e]⟩
  · have e : cellIndex a = none := by simp only [cellIndex, if_neg h]
    exact .inr ⟨by omega, e, by simp [withCell, e]⟩

/-- All that `withAddrTarget` can do. -/
theorem withAddrTarget_cases (i : Instr) (addr : Operand) (s : State) (k : Word → Result) :
    (∃ n : Nat, addr.toInt = (n : Int) ∧ n < s.hdr.length.toNat ∧ withAddrTarget i addr s k = k (BitVec.ofNat 32 n)) ∨
      ((addr.toInt < 0 ∨ (s.hdr.length.toNat : Int) ≤ addr.toInt) ∧
        withAddrTarget i addr s k = raise i .invalidJumpTarget addr.toInt s) := by
  by_cases h : 0 ≤ addr.toInt ∧ addr.toInt < s.hdr.length.toNat
  · refine .inl ⟨addr.toInt.toNat, by omega, by omega, ?_⟩
    have e : BitVec.ofInt 32 addr.toInt = BitVec.ofNat 32 addr.toInt.toNat := by
      rw [← BitVec.ofInt_natCast, Int.toNat_of_nonneg h.1]
    exact (if_pos h).trans (congrArg k e)
  · refine .inr ⟨by omega, ?_⟩
    exact if_neg h

/-- All that `withPosTarget` can do. -/
theorem withPosTarget_cases (i : Instr) (tx ty : Operand) (s : State) (k : Word → Result) :
    (∃ x y : Nat, tx.toInt = (x : Int) ∧ ty.toInt = (y : Int) ∧ x < s.hdr.width.toNat ∧ y < s.hdr.height.toNat ∧
        y * s.hdr.width.toNat + x < s.hdr.length.toNat ∧
        withPosTarget i tx ty s k = k (BitVec.ofNat 32 (y * s.hdr.width.toNat + x))) ∨
      (∃ aux, resolvePos s.hdr tx.toInt ty.toInt = .error aux ∧
        withPosTarget i tx ty s k = raise i .invalidJumpTarget aux s) := by
  cases h : resolvePos s.hdr tx.toInt ty.toInt with
  | error aux => exact .inr ⟨aux, rfl, by simp [withPosTarget, opValue, h]⟩
  | ok t =>
    refine .inl ⟨tx.toInt.toNat, ty.toInt.toNat, ?_⟩
    have e : withPosTarget i tx ty s k = k (BitVec.ofNat 32 t) := by simp [withPosTarget, opValue, h]
    unfold resolvePos at h
    split at h
    · simp at h
    · split at h
      · simp at h
      · split at h
        · simp at h
        · rename_i h1 h2 h3
          simp only [Except.ok.injEq] at h
          have hx : tx.toInt = ((tx.toInt.toNat : Nat) : Int) := by omega
          have hy : ty.toInt = ((ty.toInt.toNat : Nat) : Int) := by omega
          have ht : t = ty.toInt.toNat * s.hdr.width.toNat + tx.toInt.toNat := by
            rw [← h, hx, hy]
            simp only [Int.toNat_natCast]
            omega
          refine ⟨hx, hy, by omega, by omega, ?_, by rw [e, ht]⟩
          rw [hx, hy] at h3
          omega

/-- All that `writeExact` can do. -/
theorem writeExact_cases (i : Instr) (rd : Fin 16) (r : Int) (s : State) :
    (intMin ≤ r ∧ r ≤ intMax ∧ (BitVec.ofInt 32 r).toInt = r ∧
        writeExact i rd r s = complete (s.setReg rd (BitVec.ofInt 32 r))) ∨
      (¬(intMin ≤ r ∧ r ≤ intMax) ∧ writeExact i rd r s = raise i .arithmeticOverflow 0 s) := by
  by_cases h : intMin ≤ r ∧ r ≤ intMax
  · refine .inl ⟨h.1, h.2, ?_, by simp [writeExact, fits32, h]⟩
    rw [BitVec.toInt_ofInt]
    have h1 := h.1
    have h2 := h.2
    unfold intMin at h1
    unfold intMax at h2
    exact Int.bmod_eq_of_le (by omega) (by omega)
  · refine .inr ⟨h, ?_⟩
    have e : fits32 r = false := by simpa [fits32] using h
    simp [writeExact, e]

end Sys2Proof.Machine
end

