-- ==== Sys2Proof/Laws/HostCalls.lean ====
section
/-! SUPPORT. For each call of DEC and COD, once, everything it can do to the state; and the error record of a DEC call
(spec/40_registry_decoder.md R116). Later proofs cite these instead of unfolding the calls. -/

namespace Sys2Proof.Machine

/-! ### The record of a DEC call -/

@[simp] theorem decRecord_success_code (c : HostCommand) : (decRecord c none).code = 0 := rfl
@[simp] theorem decRecord_success_posValid (c : HostCommand) : (decRecord c none).posValid = false := rfl
@[simp] theorem decRecord_success_detail (c : HostCommand) : (decRecord c none).detail = 0 := rfl

@[simp] theorem decRecord_error_code (c : HostCommand) (e : DecError) : (decRecord c (some e)).code = e.code := by
  rcases e with ⟨_, _ | _, _⟩ <;> rfl

@[simp] theorem decRecord_error_detail (c : HostCommand) (e : DecError) : (decRecord c (some e)).detail = e.detail := by
  rcases e with ⟨_, _ | _, _⟩ <;> rfl

/-- A failure without a position is recorded with `pos_valid` 0. -/
theorem decRecord_noPos (c : HostCommand) {e : DecError} (h : e.pos = none) : (decRecord c (some e)).posValid = false := by
  rcases e with ⟨_, _ | _, _⟩
  · rfl
  · cases h

/-- A failure at a position is recorded with `pos_valid` 1 and that position. -/
theorem decRecord_atPos (c : HostCommand) {e : DecError} {p : Pos} (h : e.pos = some p) :
    (decRecord c (some e)).posValid = true ∧ (decRecord c (some e)).x = p.x ∧ (decRecord c (some e)).y = p.y := by
  rcases e with ⟨_, _ | _, _⟩
  · cases h
  · cases h; exact ⟨rfl, rfl, rfl⟩

/-! ### The calls: succeeded or failed -/

/-- All that a decode call can do. -/
theorem decodeCall_cases (fmt : PixelFormat) (w h : Word) (px : List Word) (s : State) :
    (∃ words, decodeGrid fmt w.toNat h.toNat px = .ok words ∧
        decodeCall fmt w h px s = publishProgram (decRecord (.decode fmt w h px) none) w h words s) ∨
      (∃ e, decodeGrid fmt w.toNat h.toNat px = .error e ∧
        decodeCall fmt w h px s = failDecode (decRecord (.decode fmt w h px) (some e)) s) := by
  cases e : decodeGrid fmt w.toNat h.toNat px with
  | ok words => exact .inl ⟨words, rfl, by simp [decodeCall, e]⟩
  | error err => exact .inr ⟨err, rfl, by simp [decodeCall, e]⟩

/-- All that an encode call can do: it changes the reply alone. -/
theorem encodeCall_cases (ins : List IWord) (w : Word) (s : State) :
    (∃ h px, encodeGrid ins w.toNat = .ok (h, px) ∧
        encodeCall ins w s =
          { s with reply := some (.grid (decRecord (.encode ins w) none) (BitVec.ofNat 32 h) px) }) ∨
      (∃ e, encodeGrid ins w.toNat = .error e ∧
        encodeCall ins w s = { s with reply := some (.decError (decRecord (.encode ins w) (some e))) }) := by
  cases e : encodeGrid ins w.toNat with
  | ok r => exact .inl ⟨r.1, r.2, rfl, by simp [encodeCall, e]⟩
  | error err => exact .inr ⟨err, rfl, by simp [encodeCall, e]⟩

/-- All that a COD encode call can do: it changes the reply alone. -/
theorem codEncodeCall_cases (method w h : Word) (g : List Word) (s : State) :
    (∃ bytes, codEncode method w h g = .ok bytes ∧
        codEncodeCall method w h g s = { s with reply := some (.artifact codSuccess bytes) }) ∨
      (∃ e, codEncode method w h g = .error e ∧
        codEncodeCall method w h g s = { s with reply := some (.codError e) }) := by
  cases e : codEncode method w h g with
  | ok bytes => exact .inl ⟨bytes, rfl, by simp [codEncodeCall, e]⟩
  | error err => exact .inr ⟨err, rfl, by simp [codEncodeCall, e]⟩

/-- All that a COD decode call can do: it changes the reply alone. -/
theorem codDecodeCall_cases (bytes : List Byte) (s : State) :
    (∃ w h g, codDecode bytes = .ok (w, h, g) ∧
        codDecodeCall bytes s = { s with reply := some (.restored codSuccess w h g) }) ∨
      (∃ e, codDecode bytes = .error e ∧ codDecodeCall bytes s = { s with reply := some (.codError e) }) := by
  cases e : codDecode bytes with
  | ok r => exact .inl ⟨r.1, r.2.1, r.2.2, rfl, by simp [codDecodeCall, e]⟩
  | error err => exact .inr ⟨err, rfl, by simp [codDecodeCall, e]⟩

/-- `unlessRunning` goes on only outside Running. -/
theorem unlessRunning_next {r : Refusal} {s t : State} {k : Result} (h : unlessRunning r s k = .next t) :
    s.state ≠ .running ∧ k = .next t := by
  unfold unlessRunning at h
  split at h
  · simp at h
  · exact ⟨‹_›, h⟩

/-- Outside Running, `unlessRunning` goes on. -/
theorem unlessRunning_ok {r : Refusal} {s : State} {k : Result} (h : s.state ≠ .running) : unlessRunning r s k = k := by
  simp [unlessRunning, h]

/-- With no call in progress and a command to come, the step carries that command out. -/
theorem step_hostCommand {s : State} {c : HostCommand} {rest : List HostCommand} (hcall : s.call = none)
    (hcmds : s.cmds = c :: rest) : step s = hostCommand c { s with cmds := rest } := by
  show machineStep s = _
  simp only [machineStep, hcall, hostTurn, hcmds]

end Sys2Proof.Machine
end

