-- ==== Sys2Proof/Laws/PerInstr.lean ====
section
/-! SUPPORT. Facts about every instruction as syntax, one lemma per constructor. -/

namespace Sys2Proof.Laws

/-- The Registry's row at the instruction's opcode is assigned and has the kinds of the instruction's format (R67, R90). -/
def RegistryAgrees.Statement (i : Instr) : Prop :=
  (Machine.registryRow (opcodeOf i)).assigned = true ∧
    ((Machine.registryRow (opcodeOf i)).kind1, (Machine.registryRow (opcodeOf i)).kind2) = i.format.kinds

theorem RegistryAgrees.nop (a b : Operand) (p : Pos) : RegistryAgrees.Statement (.nop a b p) := ⟨rfl, rfl⟩
theorem RegistryAgrees.halt (a b : Operand) (p : Pos) : RegistryAgrees.Statement (.halt a b p) := ⟨rfl, rfl⟩
theorem RegistryAgrees.debug (a b : Operand) (p : Pos) : RegistryAgrees.Statement (.debug a b p) := ⟨rfl, rfl⟩
theorem RegistryAgrees.lit (a b : Operand) (p : Pos) : RegistryAgrees.Statement (.lit a b p) := ⟨rfl, rfl⟩
theorem RegistryAgrees.add (a b : Operand) (p : Pos) : RegistryAgrees.Statement (.add a b p) := ⟨rfl, rfl⟩
theorem RegistryAgrees.sub (a b : Operand) (p : Pos) : RegistryAgrees.Statement (.sub a b p) := ⟨rfl, rfl⟩
theorem RegistryAgrees.mul (a b : Operand) (p : Pos) : RegistryAgrees.Statement (.mul a b p) := ⟨rfl, rfl⟩
theorem RegistryAgrees.div (a b : Operand) (p : Pos) : RegistryAgrees.Statement (.div a b p) := ⟨rfl, rfl⟩
theorem RegistryAgrees.mod (a b : Operand) (p : Pos) : RegistryAgrees.Statement (.mod a b p) := ⟨rfl, rfl⟩
theorem RegistryAgrees.load (a b : Operand) (p : Pos) : RegistryAgrees.Statement (.load a b p) := ⟨rfl, rfl⟩
theorem RegistryAgrees.store (a b : Operand) (p : Pos) : RegistryAgrees.Statement (.store a b p) := ⟨rfl, rfl⟩
theorem RegistryAgrees.copy (a b : Operand) (p : Pos) : RegistryAgrees.Statement (.copy a b p) := ⟨rfl, rfl⟩
theorem RegistryAgrees.jmp (a b : Operand) (p : Pos) : RegistryAgrees.Statement (.jmp a b p) := ⟨rfl, rfl⟩
theorem RegistryAgrees.jz (a b : Operand) (p : Pos) : RegistryAgrees.Statement (.jz a b p) := ⟨rfl, rfl⟩
theorem RegistryAgrees.jnz (a b : Operand) (p : Pos) : RegistryAgrees.Statement (.jnz a b p) := ⟨rfl, rfl⟩
theorem RegistryAgrees.call (a b : Operand) (p : Pos) : RegistryAgrees.Statement (.call a b p) := ⟨rfl, rfl⟩
theorem RegistryAgrees.ret (a b : Operand) (p : Pos) : RegistryAgrees.Statement (.ret a b p) := ⟨rfl, rfl⟩
theorem RegistryAgrees.print (a b : Operand) (p : Pos) : RegistryAgrees.Statement (.print a b p) := ⟨rfl, rfl⟩
theorem RegistryAgrees.printi (a b : Operand) (p : Pos) : RegistryAgrees.Statement (.printi a b p) := ⟨rfl, rfl⟩
theorem RegistryAgrees.input (a b : Operand) (p : Pos) : RegistryAgrees.Statement (.input a b p) := ⟨rfl, rfl⟩
theorem RegistryAgrees.host0 (a b : Operand) (p : Pos) : RegistryAgrees.Statement (.host0 a b p) := ⟨rfl, rfl⟩
theorem RegistryAgrees.host1 (a b : Operand) (p : Pos) : RegistryAgrees.Statement (.host1 a b p) := ⟨rfl, rfl⟩
theorem RegistryAgrees.host2 (a b : Operand) (p : Pos) : RegistryAgrees.Statement (.host2 a b p) := ⟨rfl, rfl⟩
theorem RegistryAgrees.host3 (a b : Operand) (p : Pos) : RegistryAgrees.Statement (.host3 a b p) := ⟨rfl, rfl⟩
theorem RegistryAgrees.host4 (a b : Operand) (p : Pos) : RegistryAgrees.Statement (.host4 a b p) := ⟨rfl, rfl⟩
theorem RegistryAgrees.nethook (a b : Operand) (p : Pos) : RegistryAgrees.Statement (.nethook a b p) := ⟨rfl, rfl⟩

end Sys2Proof.Laws
end

