-- ==== Sys2Proof/Tests/Slice0.lean ====
section
/-! SUPPORT. Tests, each on one operation or one step. The expected results are those spec/95_test_vectors.md writes out (the
section is named), or are worked out by hand from the rule named. Then, for every statement that has hypotheses, a witness
that meets them. -/

namespace Sys2Proof.Tests

open Sys2Proof.Machine

set_option maxRecDepth 8000

/-- A next state with the property `p`. -/
def onNext (r : Result) (p : State → Bool) : Bool :=
  match r with
  | .next s => p s
  | _ => false

/-- Position (0, 0). -/
def p0 : Pos := ⟨0, 0⟩

/-- A signed value as a word. -/
def sw (v : Int) : Word := BitVec.ofInt 32 v

/-- Running in a program of width 3, height 3 and length 9, in a call without a budget. -/
def base : State :=
  { State.reset with state := .running, hdr := { tag := 1, width := 3, height := 3, length := 9 }, call := some { left := none } }

/-- `base` with `x[0]` = a and `x[1]` = b. -/
def regs (a b : Int) : State := (base.setReg 0 (sw a)).setReg 1 (sw b)

/-- The fault cause and aux of a next state. -/
def faultedWith (r : Result) (code : BitVec 8) (aux : Int) : Bool :=
  onNext r fun t => decide (t.state = .faulted ∧ t.fault.cause = code ∧ t.fault.aux = sw aux)

/-! ### WellFormed refuses each ill-formed term -/

theorem test_wf_accepts : (Instr.lit 15 0xFE0C p0).wellFormed = true ∧ (Instr.lit 15 0xFE0C p0).pixelEncodable = true := by decide
theorem test_wf_reg_above : (Instr.lit 16 0 p0).wellFormed = false := by decide
theorem test_wf_reg_below : (Instr.lit 0xFFFF 0 p0).wellFormed = false := by decide
theorem test_wf_reg_second : (Instr.add 0 16 p0).wellFormed = false := by decide
theorem test_wf_sel_first : (Instr.printi 2 65 p0).wellFormed = false := by decide
theorem test_wf_sel_second : (Instr.print 0 2 p0).wellFormed = false := by decide
theorem test_pixel_unused : (Instr.halt 0 5 p0).pixelEncodable = false := by decide
theorem test_pixel_reg : (Instr.lit 16 0 p0).pixelEncodable = false := by decide
theorem test_pixel_sel : (Instr.print 3 2 p0).pixelEncodable = false := by decide
theorem test_pixel_imm : (Instr.lit 0 501 p0).pixelEncodable = false ∧ (Instr.lit 0 0xFE0B p0).pixelEncodable = false := by decide
theorem test_pixel_addr : (Instr.load 0 1001 p0).pixelEncodable = false ∧ (Instr.load 0 0xFFFF p0).pixelEncodable = false := by decide
theorem test_pixel_pos : (Instr.jmp 1001 0 p0).pixelEncodable = false ∧ (Instr.jmp 0 0xFFFF p0).pixelEncodable = false := by decide

/-! ### Decoding, each constructor on a word written out from R62 and R67: opcode, op1, op2, y, x -/

/-- P4 index 7. -/
theorem test_decode_nop : decode 0x0000000000001003 = .ok (.nop 0 0 ⟨1, 3⟩) := by decide
/-- P3 index 8. -/
theorem test_decode_halt : decode 0x0100000000002002 = .ok (.halt 0 0 ⟨2, 2⟩) := by decide
/-- P9 index 3. -/
theorem test_decode_debug : decode 0x0200000000001000 = .ok (.debug 0 0 ⟨1, 0⟩) := by decide
/-- P3 index 2. -/
theorem test_decode_lit : decode 0x030002FFFF000002 = .ok (.lit 2 0xFFFF ⟨0, 2⟩) := by decide
/-- P3 index 3. -/
theorem test_decode_add : decode 0x0600010000001000 = .ok (.add 1 0 ⟨1, 0⟩) := by decide
/-- R162. -/
theorem test_decode_sub : decode 0x0700020003005007 = .ok (.sub 2 3 ⟨5, 7⟩) := by decide
/-- P7 index 2. -/
theorem test_decode_mul : decode 0x0800000001000002 = .ok (.mul 0 1 ⟨0, 2⟩) := by decide
/-- S2 index 2. -/
theorem test_decode_div : decode 0x0900000001000002 = .ok (.div 0 1 ⟨0, 2⟩) := by decide
/-- R165. -/
theorem test_decode_mod : decode 0x0A00040005000000 = .ok (.mod 4 5 ⟨0, 0⟩) := by decide
/-- section 2.6. -/
theorem test_decode_load : decode 0x0C000003FF000000 = .ok (.load 0 1023 ⟨0, 0⟩) := by decide
/-- section 2.6. -/
theorem test_decode_store : decode 0x0D0000FFFF000000 = .ok (.store 0 0xFFFF ⟨0, 0⟩) := by decide
/-- P6 index 10. -/
theorem test_decode_copy : decode 0x0E00050000002002 = .ok (.copy 5 0 ⟨2, 2⟩) := by decide
/-- section 2.7. -/
theorem test_decode_jmp : decode 0x1200030000000000 = .ok (.jmp 3 0 ⟨0, 0⟩) := by decide
/-- R182. -/
theorem test_decode_jz : decode 0x1300000008000000 = .ok (.jz 0 8 ⟨0, 0⟩) := by decide
/-- section 2.7. -/
theorem test_decode_jnz : decode 0x140000FFFB000000 = .ok (.jnz 0 0xFFFB ⟨0, 0⟩) := by decide
/-- P4 index 1. -/
theorem test_decode_call : decode 0x1500000001000001 = .ok (.call 0 1 ⟨0, 1⟩) := by decide
/-- P4 index 5. -/
theorem test_decode_ret : decode 0x1600000000001001 = .ok (.ret 0 0 ⟨1, 1⟩) := by decide
/-- section 2.2. -/
theorem test_decode_print : decode 0x18000F0001000001 = .ok (.print 15 1 ⟨0, 1⟩) := by decide
/-- S3 index 0. -/
theorem test_decode_printi : decode 0x1900010048000000 = .ok (.printi 1 72 ⟨0, 0⟩) := by decide
/-- P7 index 1. -/
theorem test_decode_input : decode 0x1A00010000000001 = .ok (.input 1 0 ⟨0, 1⟩) := by decide
/-- P9 index 2. -/
theorem test_decode_host0 : decode 0x1E00010002000002 = .ok (.host0 1 2 ⟨0, 2⟩) := by decide
/-- R203. -/
theorem test_decode_host1 : decode 0x1F00000000000000 = .ok (.host1 0 0 ⟨0, 0⟩) := by decide
/-- R204. -/
theorem test_decode_host2 : decode 0x2000100000000000 = .ok (.host2 16 0 ⟨0, 0⟩) := by decide
/-- R205. -/
theorem test_decode_host3 : decode 0x2100030004000000 = .ok (.host3 3 4 ⟨0, 0⟩) := by decide
/-- R206. -/
theorem test_decode_host4 : decode 0x2200000001000000 = .ok (.host4 0 1 ⟨0, 0⟩) := by decide
/-- P9 index 4. -/
theorem test_decode_nethook : decode 0x2300000000001001 = .ok (.nethook 0 0 ⟨1, 1⟩) := by decide

theorem test_decode_reserved : decode 0x0400000000000000 = .error (.reservedOpcode 4) := by decide
theorem test_decode_unassigned : decode 0x2400000000000000 = .error (.unassignedOpcode 36) := by decide
theorem test_encode_lit : encode (.lit 1 3 p0) = 0x0300010003000000 := by decide
/-- R41: low word first, least significant byte first. -/
theorem test_bytes_of_iword : bytesOfIWord 0x0123456789ABCDEF = [0xEF, 0xCD, 0xAB, 0x89, 0x67, 0x45, 0x23, 0x01] := by decide
theorem test_table_word : decodeTableWord 64 0x0600000001000002 = some (.add 0 1 ⟨0, 2⟩) ∧
    decodeTableWord 64 0xFF00000000009005 = none := by decide

/-! ### Instructions, one step each -/

theorem test_nop : onNext (exec (.nop 7 7 p0) { base with pc := 6, cycles := 4 }) (fun t => decide (t.pc = 7 ∧ t.cycles = 5)) = true := by decide
theorem test_halt : onNext (exec (.halt 0 0 p0) { base with pc := 2, cycles := 2 }) (fun t => decide (t.state = .halted ∧ t.pc = 2 ∧ t.cycles = 3)) = true := by decide
/-- Section 2.8. -/
theorem test_debug : onNext (exec (.debug 0 0 ⟨1, 1⟩) { base with pc := 4 }) (fun t => decide (t.dbg = [⟨4, 1, 1⟩] ∧ t.pc = 5)) = true := by decide
theorem test_lit : onNext (exec (.lit 1 0xFFFB p0) base) (fun t => decide (t.reg 1 = sw (-5))) = true := by decide
theorem test_lit_bad_register : faultedWith (exec (.lit 0xFFFF 1 p0) base) 2 (-1) = true := by decide
/-! Section 2.5. -/
theorem test_add : onNext (exec (.add 0 1 p0) (regs 2147483647 (-2147483648))) (fun t => decide (t.reg 0 = sw (-1))) = true := by decide
theorem test_add_overflow : faultedWith (exec (.add 0 1 p0) (regs 2147483647 1)) 9 0 = true := by decide
theorem test_sub : onNext (exec (.sub 0 1 p0) (regs (-1) 2147483647)) (fun t => decide (t.reg 0 = sw (-2147483648))) = true := by decide
theorem test_sub_overflow : faultedWith (exec (.sub 0 1 p0) (regs 0 (-2147483648))) 9 0 = true := by decide
theorem test_mul : onNext (exec (.mul 0 1 p0) (regs 65536 (-32768))) (fun t => decide (t.reg 0 = sw (-2147483648))) = true := by decide
theorem test_mul_overflow : faultedWith (exec (.mul 0 0 p0) (regs 46341 0)) 9 0 = true := by decide
theorem test_div : onNext (exec (.div 0 1 p0) (regs (-7) 2)) (fun t => decide (t.reg 0 = sw (-3) ∧ t.reg 1 = sw 2)) = true := by decide
theorem test_div_overflow : faultedWith (exec (.div 0 1 p0) (regs (-2147483648) (-1))) 9 0 = true := by decide
theorem test_mod : onNext (exec (.mod 0 1 p0) (regs (-7) 2)) (fun t => decide (t.reg 0 = sw (-1))) = true := by decide
theorem test_mod_no_overflow : onNext (exec (.mod 0 1 p0) (regs (-2147483648) (-1))) (fun t => decide (t.reg 0 = 0)) = true := by decide
/-! Section 2.6. -/
theorem test_load : onNext (exec (.load 3 100 p0) (base.setCell 100 15)) (fun t => decide (t.reg 3 = 15)) = true := by decide
theorem test_load_outside : faultedWith (exec (.load 0 1024 p0) base) 3 1024 = true := by decide
theorem test_store : onNext (exec (.store 1 100 p0) (regs 0 15)) (fun t => decide (t.cell 100 = 15 ∧ t.cell 99 = 0)) = true := by decide
theorem test_store_outside : faultedWith (exec (.store 0 0xFFFF p0) base) 3 (-1) = true := by decide
theorem test_copy : onNext (exec (.copy 0 1 p0) ((regs 200 100).setCell 100 15)) (fun t => decide (t.cell 200 = 15 ∧ t.cell 100 = 15)) = true := by decide
theorem test_copy_source_first : faultedWith (exec (.copy 0 1 p0) (regs 2000 3000)) 3 3000 = true := by decide
/-! Section 2.7 and R181 to R185. -/
theorem test_jmp : onNext (exec (.jmp 0 2 p0) { base with pc := 1 }) (fun t => decide (t.pc = 6)) = true := by decide
theorem test_jmp_outside : faultedWith (exec (.jmp 3 0 p0) base) 7 3 = true := by decide
theorem test_jz : onNext (exec (.jz 0 8 p0) base) (fun t => decide (t.pc = 8)) = true := by decide
theorem test_jz_not_taken : onNext (exec (.jz 0 99 p0) (regs 1 0)) (fun t => decide (t.pc = 1 ∧ t.state = .running)) = true := by decide
theorem test_jnz : onNext (exec (.jnz 0 3 p0) (regs (-1) 0)) (fun t => decide (t.pc = 3)) = true := by decide
theorem test_jnz_outside : faultedWith (exec (.jnz 0 0xFFFB p0) (regs 1 0)) 7 (-5) = true := by decide
theorem test_call : onNext (exec (.call 0 1 p0) { base with pc := 1 }) (fun t => decide (t.pc = 3 ∧ t.entry 0 = 2 ∧ t.sp = 1)) = true := by decide
theorem test_call_full : faultedWith (exec (.call 0 0 p0) { base with sp := 256 }) 5 256 = true := by decide
theorem test_ret : onNext (exec (.ret 0 0 p0) ((base.push 2).push 7)) (fun t => decide (t.pc = 7 ∧ t.sp = 1)) = true := by decide
theorem test_ret_empty : faultedWith (exec (.ret 0 0 p0) base) 6 0 = true := by decide
/-! Section 2.8 and R191 to R207. -/
theorem test_print : onNext (exec (.print 1 0 p0) (regs 0 15)) (fun t => decide (t.out = [⟨.int, 15⟩])) = true := by decide
theorem test_print_bad_selector : faultedWith (exec (.print 0 2 p0) base) 10 2 = true := by decide
theorem test_printi : onNext (exec (.printi 1 0x8000 p0) base) (fun t => decide (t.out = [⟨.chr, sw (-32768)⟩])) = true := by decide
theorem test_printi_bad_selector : faultedWith (exec (.printi 2 65 p0) base) 10 2 = true := by decide
theorem test_input : onNext (exec (.input 5 9 p0) { base with inp := some [42, sw (-7)], inIdx := 1 }) (fun t => decide (t.reg 5 = sw (-7) ∧ t.inIdx = 2)) = true := by decide
theorem test_input_exhausted : onNext (exec (.input 5 0 p0) { base.setReg 5 9 with inp := some [42], inIdx := 1 }) (fun t => decide (t.reg 5 = 9 ∧ t.inIdx = 1)) = true := by decide
/-- P9: the handle answers (a + b, k) to (0, 4, 9). -/
theorem test_host0 : onNext (exec (.host0 0 1 p0) { regs 4 9 with hasHandle := true, answers := [(13, 0)] }) (fun t => decide (t.reg 0 = 13 ∧ t.reg 1 = 0 ∧ t.requests = [⟨0, 4, 9⟩])) = true := by decide
theorem test_host0_no_handle : onNext (exec (.host0 0 1 p0) (regs 4 9)) (fun t => decide (t.reg 0 = 4 ∧ t.requests = [])) = true := by decide
theorem test_host1_same_register : onNext (exec (.host1 0 0 p0) { base with hasHandle := true, answers := [(5, 6)] }) (fun t => decide (t.reg 0 = 6)) = true := by decide
theorem test_host2_bad_register : faultedWith (exec (.host2 16 0 p0) { base with hasHandle := true }) 2 16 = true := by decide
theorem test_host3 : onNext (exec (.host3 0 1 p0) { regs 4 9 with hasHandle := true, answers := [(1, 2)] }) (fun t => decide (t.requests = [⟨3, 4, 9⟩])) = true := by decide
theorem test_host4 : onNext (exec (.host4 0 1 p0) { regs 4 9 with hasHandle := true, answers := [(1, 2)] }) (fun t => decide (t.requests = [⟨4, 4, 9⟩])) = true := by decide
theorem test_nethook : onNext (exec (.nethook 0 0 p0) { base with pc := 2, cycles := 2, hasHandle := true }) (fun t => decide (t.pc = 3 ∧ t.cycles = 3 ∧ t.requests = [])) = true := by decide

/-! ### Steps -/

/-- S2: the fault record of a division by zero. -/
theorem test_step_fault_record :
    onNext (step { ({ regs 10 0 with pc := 2, cycles := 2 } : State) with prog := [(2, 0x0900000001000002)] })
      (fun t => decide (t.fault = ⟨4, 2, true, 2, 0, 0x0900000001000002, 0⟩ ∧ t.cycles = 2)) = true := by decide
/-- Section 2.7: `0xFF00000000009005`. -/
theorem test_step_invalid_opcode :
    onNext (step { base with prog := [(0, 0xFF00000000009005)] })
      (fun t => decide (t.fault = ⟨1, 0, true, 5, 9, 0xFF00000000009005, 255⟩)) = true := by decide
/-- S1: the fourth fetch. -/
theorem test_step_pc_out_of_range :
    onNext (step { base with pc := 9 }) (fun t => decide (t.fault = ⟨8, 9, false, 0, 0, 0, 9⟩)) = true := by decide
/-- Section 2.7: `hdr.tag` = 7. -/
theorem test_step_invalid_program :
    onNext (step { State.reset with hdr := ⟨7, 0, 0, 0⟩, call := some ⟨none⟩ })
      (fun t => decide (t.fault = ⟨11, 0, false, 0, 0, 0, 7⟩ ∧ t.reply = some (.runStatus .faulted))) = true := by decide
/-- P8: `run(0)`. -/
theorem test_step_budget : onNext (step { base with call := some ⟨some 0⟩ }) (fun t => decide (t.state = .running ∧ t.reply = some (.runStatus .budgetExceeded))) = true := by decide
theorem test_step_idle : step State.reset = .next State.reset := by rfl
theorem test_step_reset_command :
    onNext (step { (base.setReg 3 9) with call := none, cmds := [.reset] }) (fun t => decide (t.reg 3 = 0 ∧ t.state = .ready ∧ t.hdr.tag = 1)) = true := by decide
theorem test_step_store_write_refused :
    step { base with call := none, cmds := [.writeProg 0 0] } = .refused .storeWriteWhileRunning := by rfl
theorem test_step_no_such_word :
    step { State.reset with cmds := [.writeProg 1048576 0] } = .fault (.programIndexOutOfStore 1048576) := by rfl
theorem test_fetch_word : onNext (step (State.reset.withFetchWord 64 0x0300010003000000)) (fun t => decide (t.reg 1 = 3 ∧ t.pc = 1)) = true := by decide

/-! ### Registry, decoder, encoder (sections 2.1 to 2.4) -/

theorem test_classify : [0, 299, 300, 1199, 1234, 1800, 2400, 3599].map classify = [.system, .system, .data, .arith, .mem, .ctrl, .io, .ext] := by decide
theorem test_select : select 2500 = .opcode 25 ∧ select 450 = .reserved 4 := by decide
theorem test_quantize : quantize .reg 959 = 14 ∧ quantize .reg 1000 = 15 ∧ quantize .imm 0 = -500 ∧ quantize .unused 777 = 0 := by decide
theorem test_dequantize : dequantize .reg [] 15 = some 960 ∧ dequantize .reg [] 16 = none ∧ dequantize .imm [] (-501) = none ∧ dequantize .sel [0, 1] 2 = none := by decide
theorem test_rgb : [0x00808080, 0x00FF8000, 0x00FE00FF, 0xFF123456, 0x00888692].map rgbToHsv = [0x000001F5, 0x12DFA3E8, 0xBB5FA3E8, 0x834C5951, 0x9C414A3C] := by decide
theorem test_decode_grid : decodeGrid .hsv 2 1 [0x9600003F#32 ||| 0x000FA000, 0x960FA040] = .ok [0x18000F0000000000, 0x18000F0001000001] := by rfl
theorem test_decode_grid_rgb : decodeGrid .rgb 2 1 [0x00888692, 0x00FF4000] = .ok [0x1900010048000000, 0x0100000000000001] := by rfl
theorem test_decode_grid_first_failure : decodeGrid .hsv 2 2 [0, 0, 0x1C200000, 0xE1000000] = .error ⟨4, some ⟨1, 0⟩, 4⟩ := by rfl
theorem test_decode_grid_saturation : decodeGrid .hsv 2 1 [0, 0x000FA400] = .error ⟨3, some ⟨0, 1⟩, 1⟩ := by rfl
theorem test_decode_grid_selector : decodeGrid .hsv 1 1 [0x96000080] = .error ⟨5, some ⟨0, 0⟩, 2⟩ := by rfl
theorem test_decode_grid_count : decodeGrid .hsv 3 2 [0, 0, 0, 0, 0] = .error ⟨2, none, 5⟩ := by rfl
theorem test_encode_grid : encodeGrid [0x0100000000007007, 0x03000FFE0C000000, 0x03000F01F4000000, 0x1203E803E8000000] 3 =
    .ok (2, [0x06400000, 0x12CF0000, 0x12CF03E8, 0x708FA3E8, 0, 0]) := by rfl
theorem test_encode_grid_unused : encodeGrid [0x0100000005000000] 1 = .error ⟨6, some ⟨0, 0⟩, 2⟩ := by rfl
/-- R116: row 0 of the table, and the records of a failure without and with a position. -/
theorem test_record_success : (decRecord (.decode .hsv 1 1 [0]) none).code = 0 ∧ (decRecord (.decode .hsv 1 1 [0]) none).posValid = false ∧
    (decRecord (.decode .hsv 1 1 [0]) none).detail = 0 := ⟨rfl, rfl, rfl⟩
theorem test_record_no_position : (decRecord (.decode .hsv 3 2 []) (some (decCallError .pixelCountMismatch 5))).code = 2 ∧
    (decRecord (.decode .hsv 3 2 []) (some (decCallError .pixelCountMismatch 5))).posValid = false ∧
    (decRecord (.decode .hsv 3 2 []) (some (decCallError .pixelCountMismatch 5))).detail = 5 := ⟨rfl, rfl, rfl⟩
theorem test_record_position : decRecord (.decode .hsv 2 2 []) (some (decPixelError .reservedOpcode 2 3 4)) = ⟨4, true, 1, 1, 4⟩ := by decide
/-- R116 and R228: a call that succeeds answers its record of code 0. -/
theorem test_step_decode_record :
    onNext (step { State.reset with cmds := [.decode .hsv 1 1 [0]] })
      (fun t => match t.reply with
        | some (.programPublished r) => decide (r.code = 0)
        | _ => false) = true := by rfl
theorem test_step_cod_record :
    onNext (step { State.reset with cmds := [.codEncode 1 1 1 [5]] })
      (fun t => decide (t.reply = some (.artifact ⟨0, 0⟩ (bytesOfWords [1, 1, 1, 0, 1, 5, 5, 1])))) = true := by rfl
theorem test_encode_grid_empty : encodeGrid [] 3 = .error ⟨1, none, 2⟩ := by rfl

/-! ### Codec (section 2.9, grids G1 and G3) -/

/-- Grid G1. -/
def g1 : List Word := [0x06400000, 0x06400000, 0, 0, 0, 0]
/-- The hybrid artifact of G1 with a body and a check word of choice. -/
def g1With (check : Word) (body : List Word) : List Word := [2, 3, 2, 2, 3, check, 0x06400000, 0] ++ body
theorem test_artifact_palette : buildArtifact .palette 3 2 g1 = [0, 3, 2, 2, 6, 0x0C800000, 0x06400000, 0, 0, 0, 1, 1, 1, 1] := by decide
theorem test_artifact_rle : buildArtifact .rle 3 2 g1 = [1, 3, 2, 0, 3, 0x0C800000, 0x06400000, 2, 0, 1, 0, 3] := by decide
theorem test_artifact_hybrid : buildArtifact .hybrid 3 2 g1 = g1With 0x0C800000 [0, 2, 1, 1, 1, 3] := by decide
theorem test_artifact_uniform : buildArtifact .hybrid 4 3 (List.replicate 12 7) = [2, 4, 3, 1, 3, 0x54, 7, 0, 4, 0, 4, 0, 4] := by decide
theorem test_artifact_bytes : (bytesOfWords (buildArtifact .rle 3 2 g1)).take 28 =
    [1, 0, 0, 0, 3, 0, 0, 0, 2, 0, 0, 0, 0, 0, 0, 0, 3, 0, 0, 0, 0, 0, 0x80, 0x0C, 0, 0, 0x40, 0x06] := by decide
theorem test_cod_decode : codDecode (bytesOfWords (g1With 0x0C800000 [0, 2, 1, 1, 1, 3])) = .ok (3, 2, g1) := by rfl
theorem test_cod_crosses_rows : decodeArtifact [2, 3, 2, 2, 2, 0x0C800000, 0x06400000, 0, 0, 2, 1, 4] = .ok (3, 2, g1) := by rfl
theorem test_cod_index : decodeArtifact (g1With 0x0C800000 [2, 2, 1, 1, 1, 3]) = .error ⟨5, 8⟩ := by rfl
theorem test_cod_run_length : decodeArtifact (g1With 0x0C800000 [0, 0, 1, 1, 1, 3]) = .error ⟨6, 9⟩ := by rfl
theorem test_cod_run_total : decodeArtifact (g1With 0x0C800000 [0, 2, 1, 0xFFFFFFFF, 1, 3]) = .error ⟨7, 11⟩ := by rfl
theorem test_cod_run_short : decodeArtifact (g1With 0x0C800000 [0, 2, 1, 1, 1, 2]) = .error ⟨7, 14⟩ := by rfl
theorem test_cod_check : decodeArtifact (g1With 0x0C800001 [0, 2, 1, 1, 1, 3]) = .error ⟨8, 5⟩ := by rfl
theorem test_cod_short : decodeArtifact [2, 3, 2, 2, 3] = .error ⟨1, 5⟩ := by rfl
theorem test_cod_counts : decodeArtifact [1, 3, 2, 2, 3, 0, 0, 0] = .error ⟨4, 3⟩ := by rfl

/-! ### Assembler (P3, P4, R77) -/

theorem test_assemble : assemble 3 ["LIT r2, #-1 ; minus one", "top: JNZ r0, @top", "PRINT 'H'"] =
    some [0x030002FFFF000000, 0x1400000001000001, 0x1900010048000002] := by decide
theorem test_assemble_pseudo : assemble 4 ["MOV r1, r0", "CALL @4", "COPY [r5], [r0]"] =
    some [0x0700010001000000, 0x0600010000000001, 0x1500000001000002, 0x0E00050000000003] := by decide

/-! ### Witnesses: for every statement with hypotheses, values that meet all of them together (clause by clause, at the ends
of its range, where it has several) -/

/-- `base` (Running in a call without a budget) with the word `w` at index 0. -/
def at0 (w : IWord) : State := { base with prog := [(0, w)] }
/-- Ready with no call in progress, and these host commands to come. -/
def hosted (cmds : List HostCommand) : State := { State.reset with cmds := cmds }
/-- Running between two calls, with this host command to come. -/
def between (c : HostCommand) : State := { base with call := none, cmds := [c] }

theorem witness_EncodeOfDecodeIsTheWord : decode 0x0600000000000000 = .ok (.add 0 0 p0) := by decide
theorem witness_StepRunsTheDecodedInstruction :
    ({ at0 0x0600000000000000 with call := some ⟨some 1⟩ } : State).call = some ⟨some 1⟩ ∧ base.state = .running ∧
      (some 1 : Budget) ≠ some 0 ∧ base.pc.toNat < base.hdr.length.toNat ∧
      sparseGet? (at0 0x0600000000000000).prog base.pc.toNat = some 0x0600000000000000 ∧
      decode 0x0600000000000000 = .ok (.add 0 0 p0) := by decide
theorem witness_FetchOutsideTheProgramFaults :
    ∀ s ∈ [{ base with pc := 9 }, { base with pc := 0xFFFFFFFF }],
      s.call = some ⟨none⟩ ∧ s.state = .running ∧ (none : Budget) ≠ some 0 ∧ s.hdr.length.toNat ≤ s.pc.toNat := by decide
theorem witness_UnassignedOpcodeFaultsAtDispatch :
    [0x2400000000000000#64, 0xFF00000000000000#64, 0x0400000000000000#64, 0x1D00000000000000#64].all (fun w => decide
      ((at0 w).call = some ⟨none⟩ ∧ (at0 w).state = .running ∧ (none : Budget) ≠ some 0 ∧
        (at0 w).pc.toNat < (at0 w).hdr.length.toNat ∧ sparseGet? (at0 w).prog (at0 w).pc.toNat = some w ∧
        (35 < (opcodeField w).toNat ∨ (opcodeField w).toNat ∈ [4, 5, 11, 15, 16, 17, 23, 27, 28, 29]))) = true := by decide
theorem witness_RunStartsOnlyOnAnAcceptedHeader :
    (∀ s ∈ [{ State.reset with hdr := ⟨1, 0, 0, 1048576⟩, call := some ⟨none⟩ }, { State.reset with hdr := ⟨1, 0, 0, 0⟩, call := some ⟨none⟩ }],
      s.call = some ⟨none⟩ ∧ s.state = .ready ∧ s.hdr.tag = 1 ∧ s.hdr.length.toNat ≤ 1048576) ∧
    ∀ s ∈ [{ State.reset with hdr := ⟨1, 0, 0, 1048577⟩, call := some ⟨none⟩ }, { State.reset with call := some ⟨none⟩ }],
      s.call = some ⟨none⟩ ∧ s.state = .ready ∧ ¬(s.hdr.tag = 1 ∧ s.hdr.length.toNat ≤ 1048576) := by decide
theorem witness_UsedUpBudgetEndsTheCallOnly :
    ({ base with call := some ⟨some 0⟩ } : State).call = some ⟨some 0⟩ ∧ base.state = .running := by decide
theorem witness_RunOnATerminalStateExecutesNothing :
    ({ base with state := .halted } : State).call = some ⟨none⟩ ∧ ({ base with state := .halted } : State).state = .halted ∧
      ({ base with state := .faulted } : State).call = some ⟨none⟩ ∧
      ({ base with state := .faulted } : State).state = .faulted := by decide
theorem witness_ABudgetedCallEndsInTime :
    ∀ s ∈ [{ base with call := some ⟨some 0⟩ }, { base with call := some ⟨some 1⟩ }],
      (s.call = some ⟨some 0⟩ ∨ s.call = some ⟨some 1⟩) ∧ s.state = .running := by decide
theorem witness_ResetGivesTheResetValues : (between .reset).call = none ∧ (between .reset).cmds = .reset :: [] := by decide
theorem witness_TheHostSeesNothingOfARunningCall :
    hostView base = none ∧ (hostView State.reset).isSome = true ∧
      (hostView { base with state := .halted }).isSome = true ∧ (hostView { base with call := none }).isSome = true := by decide
theorem witness_EveryStepKeepsTheInvariant :
    ∀ s ∈ [at0 0x1500000001000000, { at0 0x1600000000000000 with sp := 1, cs := [(0, 9)] }, hosted [.run none], between .reset],
      s.Inv ∧ onNext (step s) (fun t => decide (t ≠ s)) = true := by decide
theorem witness_FaultsArePrecise :
    onNext (exec (.ret 0 0 p0) base) (fun t => decide (t.state = .faulted)) = true ∧ base.state ≠ .faulted := by decide
theorem witness_CyclesCountsCompletedInstructions :
    ∀ i ∈ [Instr.ret 0 0 p0, .nop 0 0 p0, .halt 0 0 p0],
      onNext (exec i base) (fun _ => true) = true ∧ base.state ≠ .faulted := by decide
theorem witness_NoInstructionWritesTheProgramStore : onNext (exec (.store 0 5 p0) (regs 7 0)) (fun t => decide (t.cell 5 = 7)) = true := by decide
theorem witness_OnlyTheNamedInstructionsTouchEachStore :
    ∀ i ∈ [Instr.add 0 1 p0, .store 0 5 p0, .call 0 1 p0, .print 0 0 p0, .debug 0 0 p0],
      onNext (exec i (regs 7 1)) (fun t => decide (t ≠ regs 7 1)) = true := by decide
theorem witness_OutputAndDebugRecordsOnlyGrow :
    ∀ s ∈ [at0 0x1900000041000000, at0 0x0200000000000000],
      onNext (step s) (fun t => decide (t.out ≠ [] ∨ t.dbg ≠ [])) = true ∧ s.call ≠ none := by decide
theorem witness_TheRunStateMovesOnlyAsTheSpecLists :
    ∀ c ∈ [(at0 0, RunState.running), ({ State.reset with hdr := ⟨1, 1, 1, 1⟩, call := some ⟨none⟩ }, .running),
        (at0 0x0100000000000000, .halted), (at0 0x1600000000000000, .faulted),
        ({ State.reset with call := some ⟨none⟩ }, .faulted), (between .reset, .ready)],
      onNext (step c.1) (fun t => decide (t.state = c.2)) = true := by decide
theorem witness_TheFaultRecordIsWrittenOncePerReset :
    onNext (step { hosted [.attachInput none] with state := .faulted }) (fun _ => true) = true ∧
      (hosted [.attachInput none]).cmds.head? ≠ some .reset := by decide
theorem witness_ThePositionTakesNoPartInExecution :
    ∀ c ∈ [(Instr.debug 0 0 p0, Instr.debug 0 0 ⟨4095, 4095⟩), (.lit 16 0 p0, .lit 16 0 ⟨1, 0⟩)],
      opcodeOf c.1 = opcodeOf c.2 ∧ c.1.op1 = c.2.op1 ∧ c.1.op2 = c.2.op2 ∧ c.1 ≠ c.2 := by decide
theorem witness_TheStaticCheckOfOperandOneComesFirst :
    (∀ i ∈ [Instr.add 16 0 p0, .print 0x7FFF 0 p0, .store 0xFFFF 0 p0, .jz 0x8000 0 p0],
      i.format.kinds.1 = .reg ∧ (i.op1.toInt < 0 ∨ 15 < i.op1.toInt)) ∧
    ∀ i ∈ [Instr.printi 2 65 p0, .printi 0xFFFF 65 p0],
      i.format.kinds.1 = .sel ∧ i.op1.toInt ≠ 0 ∧ i.op1.toInt ≠ 1 := by decide
theorem witness_TheStaticCheckOfOperandTwoComesSecond :
    (∀ i ∈ [Instr.div 0 16 p0, .host4 15 0xFFFF p0],
      (i.format.kinds.1 = .reg → 0 ≤ i.op1.toInt ∧ i.op1.toInt ≤ 15) ∧ i.format.kinds.2 = .reg ∧
        (i.op2.toInt < 0 ∨ 15 < i.op2.toInt)) ∧
    ∀ i ∈ [Instr.print 0 2 p0, .print 15 0xFFFF p0], (i.format.kinds.1 = .reg → 0 ≤ i.op1.toInt ∧ i.op1.toInt ≤ 15) ∧
      i.format.kinds.2 = .sel ∧ i.op2.toInt ≠ 0 ∧ i.op2.toInt ≠ 1 := by decide
theorem witness_TheHostMustNotTouchARunningProgram :
    ∀ c ∈ [HostCommand.writeProg 0 0, .writeHeader ⟨1, 0, 0, 0⟩, .decode .hsv 1 1 [0], .attachInput none, .attachHandle true []],
      (between c).call = none ∧ (between c).cmds = c :: [] ∧ (between c).state = .running := by decide

/-- The registers 0 and 15, the two ends of every register hypothesis. -/
theorem witness_registers : (0 : Operand).toInt = ((0 : Fin 16).val : Int) ∧ (15 : Operand).toInt = ((15 : Fin 16).val : Int) := by decide
/-- The other clauses are met by every state: the hypothesis is on the register alone. -/
theorem witness_LitWritesItsImmediate : (15 : Operand).toInt = ((15 : Fin 16).val : Int) := by decide
theorem witness_AddSubMulWriteTheExactResult :
    (0 : Operand).toInt = ((0 : Fin 16).val : Int) ∧ (1 : Operand).toInt = ((1 : Fin 16).val : Int) ∧
      (∀ s ∈ [regs 2147483646 1, regs (-2147483647) (-1)],
        intMin ≤ (s.reg 0).toInt + (s.reg 1).toInt ∧ (s.reg 0).toInt + (s.reg 1).toInt ≤ intMax) ∧
      (∀ s ∈ [regs 2147483647 1, regs (-2147483648) (-1)],
        ¬(intMin ≤ (s.reg 0).toInt + (s.reg 1).toInt ∧ (s.reg 0).toInt + (s.reg 1).toInt ≤ intMax)) ∧
      (∀ s ∈ [regs (-1) 2147483647, regs 2147483646 (-1)],
        intMin ≤ (s.reg 0).toInt - (s.reg 1).toInt ∧ (s.reg 0).toInt - (s.reg 1).toInt ≤ intMax) ∧
      (∀ s ∈ [regs (-2) 2147483647, regs 2147483647 (-1)],
        ¬(intMin ≤ (s.reg 0).toInt - (s.reg 1).toInt ∧ (s.reg 0).toInt - (s.reg 1).toInt ≤ intMax)) ∧
      (∀ s ∈ [regs 2147483647 1, regs (-1073741824) 2],
        intMin ≤ (s.reg 0).toInt * (s.reg 1).toInt ∧ (s.reg 0).toInt * (s.reg 1).toInt ≤ intMax) ∧
      (∀ s ∈ [regs 1073741824 2, regs (-2147483648) (-1)],
        ¬(intMin ≤ (s.reg 0).toInt * (s.reg 1).toInt ∧ (s.reg 0).toInt * (s.reg 1).toInt ≤ intMax)) := by decide
theorem witness_DivTruncatesTowardZero :
    (0 : Operand).toInt = ((0 : Fin 16).val : Int) ∧ (1 : Operand).toInt = ((1 : Fin 16).val : Int) ∧
      (∀ s ∈ [regs (-7) 2, regs (-2147483647) (-1), regs (-2147483648) 1],
        (s.reg 1).toInt ≠ 0 ∧ ¬((s.reg 0).toInt = intMin ∧ (s.reg 1).toInt = -1)) ∧
      ((regs (-2147483648) (-1)).reg 1).toInt ≠ 0 ∧
      ((regs (-2147483648) (-1)).reg 0).toInt = intMin ∧ ((regs (-2147483648) (-1)).reg 1).toInt = -1 := by decide
theorem witness_ModTakesTheDividendsSign :
    (0 : Operand).toInt = ((0 : Fin 16).val : Int) ∧ (1 : Operand).toInt = ((1 : Fin 16).val : Int) ∧
      ∀ s ∈ [regs (-7) 2, regs (-2147483648) (-1)], (s.reg 1).toInt ≠ 0 := by decide
theorem witness_DivisionByZeroIsAFault :
    (0 : Operand).toInt = ((0 : Fin 16).val : Int) ∧ (1 : Operand).toInt = ((1 : Fin 16).val : Int) ∧
      ((regs 10 0).reg 1).toInt = 0 := by decide
theorem witness_CellsAreNamedBySignedAddresses :
    cellIndex 0 = some 0 ∧ cellIndex 1023 = some 1023 ∧ cellIndex (-1) = none ∧ cellIndex 1024 = none := by decide
theorem witness_LoadReadsTheCell :
    (15 : Operand).toInt = ((15 : Fin 16).val : Int) ∧ cellIndex (opValue 0) = some 0 ∧
      cellIndex (opValue 1023) = some 1023 ∧ cellIndex (opValue 1024) = none ∧ cellIndex (opValue 0xFFFF) = none := by decide
theorem witness_StoreWritesTheCell :
    (0 : Operand).toInt = ((0 : Fin 16).val : Int) ∧ cellIndex (opValue 0) = some 0 ∧
      cellIndex (opValue 1023) = some 1023 ∧ cellIndex (opValue 1024) = none ∧ cellIndex (opValue 0xFFFF) = none := by decide
theorem witness_CopyMovesOneCell :
    (0 : Operand).toInt = ((0 : Fin 16).val : Int) ∧ (1 : Operand).toInt = ((1 : Fin 16).val : Int) ∧
      cellIndex ((regs 1023 0).reg 1).toInt = some 0 ∧ cellIndex ((regs 1023 0).reg 0).toInt = some 1023 ∧
      cellIndex ((regs 1024 (-1)).reg 1).toInt = none ∧
      cellIndex ((regs 1024 1023).reg 1).toInt ≠ none ∧ cellIndex ((regs 1024 1023).reg 0).toInt = none := by decide
theorem witness_JmpGoesToThePixel :
    ∀ x ∈ [0, 2], (BitVec.ofNat 16 x).toInt = (x : Int) ∧ x < base.hdr.width.toNat ∧ x < base.hdr.height.toNat ∧
      x * base.hdr.width.toNat + x < base.hdr.length.toNat := by decide
theorem witness_JumpToAPlaceOutsideTheProgramFaults :
    ((0xFFFF : Operand).toInt < 0 ∨ (0 : Operand).toInt < 0) ∧ ((0 : Operand).toInt < 0 ∨ (0x8000 : Operand).toInt < 0) ∧
      (3 : Operand).toInt = ((3 : Nat) : Int) ∧ (2 : Operand).toInt = ((2 : Nat) : Int) ∧
      (base.hdr.width.toNat ≤ 3 ∨ base.hdr.height.toNat ≤ 2) ∧ (base.hdr.width.toNat ≤ 2 ∨ base.hdr.height.toNat ≤ 3) ∧
      (∀ s ∈ [{ base with hdr := ⟨1, 3, 3, 8⟩ }], 2 < s.hdr.width.toNat ∧ 2 < s.hdr.height.toNat ∧
        s.hdr.length.toNat ≤ 2 * s.hdr.width.toNat + 2 ∧ 2 * s.hdr.width.toNat + 2 < 4294967296) ∧
      (1 : Operand).toInt = ((1 : Nat) : Int) ∧ (0 : Operand).toInt = ((0 : Nat) : Int) ∧
      (∀ s ∈ [{ base with hdr := ⟨1, 0x7FFFFFFF, 2, 9⟩ }, { base with hdr := ⟨1, 0x80000000, 2, 9⟩ },
          { base with hdr := ⟨1, 0xFFFFFFFF, 2, 9⟩ }],
        0 < s.hdr.width.toNat ∧ 1 < s.hdr.height.toNat ∧ s.hdr.length.toNat ≤ 1 * s.hdr.width.toNat + 0 ∧
          1 * s.hdr.width.toNat + 0 < 4294967296) := by decide
theorem witness_JzAndJnzBranchOnTheRegister :
    (0 : Operand).toInt = ((0 : Fin 16).val : Int) ∧ ((regs 0 0).reg 0).toInt = 0 ∧ ((regs (-1) 0).reg 0).toInt ≠ 0 ∧
      (∀ n ∈ [0, 8], (BitVec.ofNat 16 n).toInt = (n : Int) ∧ n < base.hdr.length.toNat) ∧
      ((0xFFFF : Operand).toInt < 0 ∨ (base.hdr.length.toNat : Int) ≤ (0xFFFF : Operand).toInt) ∧
      ((9 : Operand).toInt < 0 ∨ (base.hdr.length.toNat : Int) ≤ (9 : Operand).toInt) := by decide
theorem witness_CallPushesTheNextIndex :
    (∀ x ∈ [0, 2], (BitVec.ofNat 16 x).toInt = (x : Int) ∧ x < base.hdr.width.toNat ∧ x < base.hdr.height.toNat ∧
      x * base.hdr.width.toNat + x < base.hdr.length.toNat) ∧ base.sp.toNat < 256 ∧
      ({ base with sp := 255 } : State).sp.toNat < 256 ∧ ({ base with sp := 256 } : State).sp.toNat = 256 := by decide
theorem witness_RetPopsTheLastIndex :
    ({ base with sp := 1 } : State).sp.toNat ≠ 0 ∧ ({ base with sp := 256 } : State).sp.toNat ≠ 0 ∧ base.sp.toNat = 0 := by decide
theorem witness_PrintAndPrintiAppendOneElement :
    (15 : Operand).toInt = ((15 : Fin 16).val : Int) ∧
      ((0 : Operand).toInt = 0 ∧ OutTag.int = .int ∨ (0 : Operand).toInt = 1 ∧ OutTag.int = .chr) ∧
      ((1 : Operand).toInt = 0 ∧ OutTag.chr = .int ∨ (1 : Operand).toInt = 1 ∧ OutTag.chr = .chr) := by decide
theorem witness_InputConsumesOneValue :
    (5 : Operand).toInt = ((5 : Fin 16).val : Int) ∧
      (∀ s ∈ [{ base with inp := some [42, 9], inIdx := 1 }],
        s.inp = some [42, 9] ∧ [42, 9][s.inIdx.toNat]? = some 9 ∧ s.inIdx.toNat + 1 < 4294967296) ∧
      ({ base with inp := some [42, 9], inIdx := 2 } : State).inp = some [42, 9] ∧
      [42, 9].length ≤ ({ base with inp := some [42, 9], inIdx := 2 } : State).inIdx.toNat ∧ base.inp = none := by decide
theorem witness_HostTransactionsWriteBothRegisters :
    (0 : Operand).toInt = ((0 : Fin 16).val : Int) ∧ (15 : Operand).toInt = ((15 : Fin 16).val : Int) ∧
      base.hasHandle = false ∧ ({ base with hasHandle := true, answers := [(1, 2)] } : State).hasHandle = true ∧
      (0 : Fin 16) ≠ 15 := by decide

theorem witness_QuantizationRoundTrips :
    dequantize .unused [0, 1] 0 = some 0 ∧ dequantize .reg [0, 1] 15 = some 960 ∧ quantize .reg 1000 = 15 ∧
      dequantize .sel [0, 1] 1 = some 64 ∧ dequantize .imm [0, 1] (-500) = some 0 ∧ dequantize .imm [0, 1] 500 = some 1000 ∧
      dequantize .addr [0, 1] 1000 = some 1000 ∧ dequantize .pos [0, 1] 0 = some 0 := by decide
/-- A LOAD r15, [1000] in HSV and a HALT in RGB; then a COPY and a RET that decode, and fault with causes 3 and 6. -/
theorem witness_DecodedProgramsPassTheStaticChecks :
    decodeGrid .hsv 1 1 [0x4B0FA3E8] = .ok [0x0C000F03E8000000] ∧ decodeGrid .rgb 1 1 [0x00FF4000] = .ok [0x0100000000000000] ∧
      decodeGrid .hsv 2 1 [0x57800040, 0x89800000] = .ok [0x0E00000001000000, 0x1600000000000001] ∧
      decode 0x0E00000001000000 = .ok (.copy 0 1 p0) ∧ decode 0x1600000000000001 = .ok (.ret 0 0 ⟨0, 1⟩) ∧
      (regs 0 1024).state ≠ .faulted ∧ faultedWith (exec (.copy 0 1 p0) (regs 0 1024)) 3 1024 = true ∧
      faultedWith (exec (.ret 0 0 ⟨0, 1⟩) (regs 0 1024)) 6 0 = true := by decide
theorem witness_RgbConversionStaysInRange :
    redOf 0xFF808080 = greenOf 0xFF808080 ∧ greenOf 0xFF808080 = blueOf 0xFF808080 := by decide
/-- Two pixels, the second a reserved slot. -/
theorem witness_DecodeReportsTheFirstFailingPixel :
    0 < 2 ∧ 2 ≤ 1024 ∧ 0 < 1 ∧ 1 ≤ 1024 ∧ [0, 0x1C200000#32].length = 2 * 1 ∧
      decodeGrid .hsv 2 1 [0, 0x1C200000] = .error ⟨4, some ⟨0, 1⟩, 4⟩ ∧
      decodeHsvPixel 2 1 (toHsv .hsv 0x1C200000) = .error ⟨4, some ⟨0, 1⟩, 4⟩ := by decide
/-- An error without a position before a run from Ready, and one with a position on a Halted VM with nothing to follow. -/
theorem witness_AFailedDecodeLeavesNoProgram :
    (hosted [.decode .hsv 1 1 [], .run none]).call = none ∧
      (hosted [.decode .hsv 1 1 [], .run none]).cmds = .decode .hsv 1 1 [] :: .run none :: [] ∧
      (hosted [.decode .hsv 1 1 [], .run none]).state ≠ .running ∧ (hosted [.decode .hsv 1 1 [], .run none]).state = .ready ∧
      decodeGrid .hsv (1 : Word).toNat (1 : Word).toNat [] = .error ⟨2, none, 0⟩ ∧
      ({ hosted [.decode .hsv 1 1 [0x1C200000]] with state := .halted } : State).state ≠ .running ∧
      ({ hosted [.decode .hsv 1 1 [0x1C200000]] with state := .halted } : State).cmds = .decode .hsv 1 1 [0x1C200000] :: [] ∧
      decodeGrid .hsv (1 : Word).toNat (1 : Word).toNat [0x1C200000] = .error ⟨4, some ⟨0, 0⟩, 4⟩ := by decide
theorem witness_ASuccessfulDecodePublishesTheProgram :
    (hosted [.decode .hsv 2 1 [0, 0]]).call = none ∧
      (hosted [.decode .hsv 2 1 [0, 0]]).cmds = .decode .hsv 2 1 [0, 0] :: [] ∧
      (hosted [.decode .hsv 2 1 [0, 0]]).state ≠ .running ∧
      decodeGrid .hsv (2 : Word).toNat (1 : Word).toNat [0, 0] = .ok [0, 1] := by decide
/-- Two instructions in width 2, and one, padded, in width 2; then a list that encodes at each end of the widths, and lists that
do not: empty, too wide, too high, out of a pixel's range. -/
theorem witness_EncodedGridsDecodeToTheProgram :
    encodeGrid [0, 0x0100000000000001] 2 = .ok (1, [0, 0x06400000]) ∧ encodeGrid [0x0100000000000000] 2 = .ok (1, [0x06400000, 0]) ∧
      decodeGrid .hsv 2 1 [0, 0x06400000] = .ok [0, 0x0100000000000001] ∧
      (∀ w ∈ [1, 1024], 1 ≤ w ∧ w ≤ 1024 ∧ [Instr.lit 15 500 p0] ≠ [] ∧ ([Instr.lit 15 500 p0].length + w - 1) / w ≤ 1024 ∧
        ∀ i ∈ [Instr.lit 15 500 p0], i.pixelEncodable = true) ∧
      encodeGrid ([].map encode) 1 = .error ⟨1, none, 2⟩ ∧ encodeGrid ([Instr.lit 15 500 p0].map encode) 1025 = .error ⟨1, none, 0⟩ ∧
      encodeGrid ([Instr.lit 15 501 p0].map encode) 1 = .error ⟨6, some ⟨0, 0⟩, 2⟩ := by decide
theorem witness_EncodedGridsDecodeToTheProgram_height :
    encodeGrid ((List.replicate 1025 (Instr.nop 0 0 p0)).map encode) 1 = .error ⟨1, none, 1⟩ := by
  simp [encodeGrid, gridHeight, decCallError, DecCode.code]
theorem witness_TheCodecRestoresEveryGrid :
    (0 : Word).toNat ≤ 2 ∧ (1 : Word).toNat ≤ 2 ∧ (2 : Word).toNat ≤ 2 ∧ 0 < (3 : Word).toNat ∧ (3 : Word).toNat ≤ 1024 ∧ 0 < (2 : Word).toNat ∧
      (2 : Word).toNat ≤ 1024 ∧ g1.length = (3 : Word).toNat * (2 : Word).toNat := by decide
theorem witness_PaletteReductionIndexesEveryPixel :
    g1 ≠ [] ∧ g1[1]? = some 0x06400000 ∧ (paletteReduce g1).1[0]? = some 0x06400000 ∧ (paletteReduce g1).1[1]? = some 0 := by decide
/-- The rows of G1: two runs, then one. -/
theorem witness_RunsRebuildTheirRows : 0 < 3 ∧ g1.length = 3 * 2 ∧
    rleEncode 3 2 g1 = [[(0x06400000, 2), (0, 1)], [(0, 3)]].flatten := by decide
theorem witness_DecodedGridsAreConsistent : codDecode (bytesOfWords (buildArtifact .palette 3 2 g1)) = .ok (3, 2, g1) := by decide

end Sys2Proof.Tests
end

section
/-! SUPPORT. Everything an instruction can do, said once: `InstrOutcome` lists the states `exec` can answer, with the guard
each is answered under, and `exec_outcome` ties it to `exec`. The frame of an instruction and the invariant are read off
that list. -/

namespace Sys2Proof.Machine

/-- The state an instruction leaves when it completes at `target` with the effects of `s` done (R135). -/
def State.completed (s : State) (target : Word) : State := { s with pc := target, cycles := s.cycles + 1 }

/-- What instruction `i` can make of state `s`. -/
inductive InstrOutcome (i : Instr) (s : State) : State → Prop
  /-- A fault of the instruction: never InvalidOpcode or InvalidProgram, which no instruction raises (R251). -/
  | faulted (c : Cause) (aux : Int) (hc : 2 ≤ c.code.toNat ∧ c.code.toNat ≤ 10) :
      InstrOutcome i s (enterFault (some (encode i)) c aux s)
  | halted (hi : ∃ a b p, i = .halt a b p) : InstrOutcome i s { s with cycles := s.cycles + 1, state := .halted }
  | advanced : InstrOutcome i s (s.completed (s.pc + 1))
  | jumped (target : Word) (ht : target.toNat < s.hdr.length.toNat) : InstrOutcome i s (s.completed target)
  | called (target : Word) (ht : target.toNat < s.hdr.length.toNat) (hsp : s.sp ≠ 256#9) (hi : opcodeOf i = 21) :
      InstrOutcome i s ((s.push (s.pc + 1)).completed target)
  | returned (hsp : s.sp ≠ 0#9) (hi : opcodeOf i = 22) :
      InstrOutcome i s (s.pop.completed (s.entry (s.sp.toNat - 1)))
  | wroteReg (r : Fin 16) (v : Word) (hi : opcodeOf i ∈ [3, 6, 7, 8, 9, 10, 12]) :
      InstrOutcome i s ((s.setReg r v).completed (s.pc + 1))
  | wroteCell (a : Nat) (v : Word) (ha : a ≤ 1023) (hi : opcodeOf i ∈ [13, 14]) :
      InstrOutcome i s ((s.setCell a v).completed (s.pc + 1))
  | emitted (tag : OutTag) (v : Word) (hi : opcodeOf i ∈ [24, 25]) :
      InstrOutcome i s ((s.emit tag v).completed (s.pc + 1))
  | logged (e : DebugEvent) (hi : opcodeOf i = 2) :
      InstrOutcome i s (State.completed { s with dbg := s.dbg ++ [e] } (s.pc + 1))
  | tookInput (r : Fin 16) (v : Word) (hi : opcodeOf i = 26) :
      InstrOutcome i s (State.completed { s.setReg r v with inIdx := nextInIdx s.inIdx } (s.pc + 1))
  | transacted (k : Fin 5) (ra rb : Fin 16) (va vb : Word) (hi : opcodeOf i ∈ [30, 31, 32, 33, 34]) :
      InstrOutcome i s ((((s.transact k (s.reg ra) (s.reg rb)).setReg ra va).setReg rb vb).completed (s.pc + 1))

/-- The result is a next state, and one that `InstrOutcome` lists. -/
def AnswersOutcome (i : Instr) (s : State) (r : Result) : Prop := ∃ t, r = .next t ∧ InstrOutcome i s t

/-! ### The shared operations -/

section
variable {i : Instr} {s : State}

theorem raise_outcome {c : Cause} {aux : Int} (hc : 2 ≤ c.code.toNat ∧ c.code.toNat ≤ 10) :
    AnswersOutcome i s (raise i c aux s) := ⟨_, rfl, .faulted c aux hc⟩

theorem complete_outcome : AnswersOutcome i s (complete s) := ⟨_, rfl, .advanced⟩

theorem complete_setReg_outcome {r : Fin 16} {v : Word} (hi : opcodeOf i ∈ [3, 6, 7, 8, 9, 10, 12]) :
    AnswersOutcome i s (complete (s.setReg r v)) := ⟨_, rfl, .wroteReg r v hi⟩

theorem complete_setCell_outcome {a : Nat} {v : Word} (ha : a ≤ 1023) (hi : opcodeOf i ∈ [13, 14]) :
    AnswersOutcome i s (complete (s.setCell a v)) := ⟨_, rfl, .wroteCell a v ha hi⟩

theorem complete_emit_outcome {tag : OutTag} {v : Word} (hi : opcodeOf i ∈ [24, 25]) :
    AnswersOutcome i s (complete (s.emit tag v)) := ⟨_, rfl, .emitted tag v hi⟩

theorem completeAt_outcome {target : Word} (ht : target.toNat < s.hdr.length.toNat) :
    AnswersOutcome i s (completeAt target s) := ⟨_, rfl, .jumped target ht⟩

theorem withReg_outcome {op : Operand} {k : Fin 16 → Result} (hk : ∀ r, AnswersOutcome i s (k r)) :
    AnswersOutcome i s (withReg i op s k) := by
  rcases withReg_cases i op s k with ⟨r, -, e⟩ | ⟨-, e⟩
  · exact e ▸ hk r
  · exact e ▸ raise_outcome (by decide)

theorem withRegPair_outcome {op1 op2 : Operand} {k : Fin 16 → Fin 16 → Result} (hk : ∀ a b, AnswersOutcome i s (k a b)) :
    AnswersOutcome i s (withRegPair i op1 op2 s k) :=
  withReg_outcome fun a => withReg_outcome fun b => hk a b

theorem withSel_outcome {op : Operand} {k : OutTag → Result} (hk : ∀ tag, AnswersOutcome i s (k tag)) :
    AnswersOutcome i s (withSel i op s k) := by
  rcases withSel_cases i op s k with ⟨-, e⟩ | ⟨-, e⟩ | ⟨-, -, e⟩
  · exact e ▸ hk .int
  · exact e ▸ hk .chr
  · exact e ▸ raise_outcome (by decide)

theorem withCell_outcome {a : Int} {k : Nat → Result} (hk : ∀ n ≤ 1023, AnswersOutcome i s (k n)) :
    AnswersOutcome i s (withCell i a s k) := by
  rcases withCell_cases i a s k with ⟨n, -, hn, -, e⟩ | ⟨-, -, e⟩
  · exact e ▸ hk n hn
  · exact e ▸ raise_outcome (by decide)

/-- An index inside the program is not changed by being held in 32 bits. -/
theorem ofNat_toNat_lt_length {n : Nat} (h : n < s.hdr.length.toNat) :
    (BitVec.ofNat 32 n).toNat < s.hdr.length.toNat := by
  rw [BitVec.toNat_ofNat, Nat.mod_eq_of_lt (h.trans s.hdr.length.isLt)]
  exact h

theorem withAddrTarget_outcome {addr : Operand} {k : Word → Result}
    (hk : ∀ target : Word, target.toNat < s.hdr.length.toNat → AnswersOutcome i s (k target)) :
    AnswersOutcome i s (withAddrTarget i addr s k) := by
  rcases withAddrTarget_cases i addr s k with ⟨n, -, hn, e⟩ | ⟨-, e⟩
  · exact e ▸ hk _ (ofNat_toNat_lt_length hn)
  · exact e ▸ raise_outcome (by decide)

theorem withPosTarget_outcome {tx ty : Operand} {k : Word → Result}
    (hk : ∀ target : Word, target.toNat < s.hdr.length.toNat → AnswersOutcome i s (k target)) :
    AnswersOutcome i s (withPosTarget i tx ty s k) := by
  rcases withPosTarget_cases i tx ty s k with ⟨x, y, -, -, -, -, hn, e⟩ | ⟨aux, -, e⟩
  · exact e ▸ hk _ (ofNat_toNat_lt_length hn)
  · exact e ▸ raise_outcome (by decide)

theorem withDivisor_outcome {b : Int} {k : Result} (hk : AnswersOutcome i s k) :
    AnswersOutcome i s (withDivisor i b s k) := by
  unfold withDivisor
  split
  · exact raise_outcome (by decide)
  · exact hk

theorem writeExact_outcome {rd : Fin 16} {v : Int} (hi : opcodeOf i ∈ [3, 6, 7, 8, 9, 10, 12]) :
    AnswersOutcome i s (writeExact i rd v s) := by
  rcases writeExact_cases i rd v s with ⟨-, -, -, e⟩ | ⟨-, e⟩
  · exact e ▸ complete_setReg_outcome hi
  · exact e ▸ raise_outcome (by decide)

theorem hostTransaction_outcome {k : Fin 5} {op1 op2 : Operand} (hi : opcodeOf i ∈ [30, 31, 32, 33, 34]) :
    AnswersOutcome i s (hostTransaction k i op1 op2 s) := by
  refine withRegPair_outcome fun ra rb => ?_
  split
  · exact ⟨_, rfl, .transacted k ra rb _ _ hi⟩
  · exact complete_outcome

end

/-! ### The instructions -/

theorem execDebug_outcome (a b : Operand) (p : Pos) (s : State) :
    AnswersOutcome (.debug a b p) s (execDebug a b p s) := ⟨_, rfl, .logged _ rfl⟩

theorem execHalt_outcome (a b : Operand) (p : Pos) (s : State) : AnswersOutcome (.halt a b p) s (execHalt a b p s) :=
  ⟨_, rfl, .halted ⟨a, b, p, rfl⟩⟩

theorem execCopy_outcome (a b : Operand) (p : Pos) (s : State) : AnswersOutcome (.copy a b p) s (execCopy a b p s) :=
  withRegPair_outcome fun _ _ => withCell_outcome fun _ _ => withCell_outcome fun _ hdst =>
    complete_setCell_outcome hdst (by simp [opcodeOf])

theorem execJz_outcome (a b : Operand) (p : Pos) (s : State) : AnswersOutcome (.jz a b p) s (execJz a b p s) := by
  refine withReg_outcome fun r => ?_
  split
  · exact withAddrTarget_outcome fun _ => completeAt_outcome
  · exact complete_outcome

theorem execJnz_outcome (a b : Operand) (p : Pos) (s : State) : AnswersOutcome (.jnz a b p) s (execJnz a b p s) := by
  refine withReg_outcome fun r => ?_
  split
  · exact complete_outcome
  · exact withAddrTarget_outcome fun _ => completeAt_outcome

theorem execCall_outcome (a b : Operand) (p : Pos) (s : State) : AnswersOutcome (.call a b p) s (execCall a b p s) := by
  refine withPosTarget_outcome fun target ht => ?_
  split
  · exact raise_outcome (by decide)
  · rename_i hsp
    exact ⟨_, rfl, .called target ht hsp rfl⟩

theorem execRet_outcome (a b : Operand) (p : Pos) (s : State) : AnswersOutcome (.ret a b p) s (execRet a b p s) := by
  unfold execRet
  split
  · exact raise_outcome (by decide)
  · rename_i hsp
    exact ⟨_, rfl, .returned hsp rfl⟩

theorem execInput_outcome (a b : Operand) (p : Pos) (s : State) :
    AnswersOutcome (.input a b p) s (execInput a b p s) := by
  refine withReg_outcome fun r => ?_
  split
  · exact ⟨_, rfl, .tookInput r _ rfl⟩
  · exact complete_outcome

/-- Every instruction answers a next state, one that `InstrOutcome` lists. -/
theorem exec_outcome (i : Instr) (s : State) : AnswersOutcome i s (exec i s) := by
  cases i with
  | nop => exact complete_outcome
  | halt a b p => exact execHalt_outcome a b p s
  | debug a b p => exact execDebug_outcome a b p s
  | lit => exact withReg_outcome fun _ => complete_setReg_outcome (by simp [opcodeOf])
  | add => exact withRegPair_outcome fun _ _ => writeExact_outcome (by simp [opcodeOf])
  | sub => exact withRegPair_outcome fun _ _ => writeExact_outcome (by simp [opcodeOf])
  | mul => exact withRegPair_outcome fun _ _ => writeExact_outcome (by simp [opcodeOf])
  | div => exact withRegPair_outcome fun _ _ => withDivisor_outcome (writeExact_outcome (by simp [opcodeOf]))
  | mod => exact withRegPair_outcome fun _ _ => withDivisor_outcome (complete_setReg_outcome (by simp [opcodeOf]))
  | load => exact withReg_outcome fun _ => withCell_outcome fun _ _ => complete_setReg_outcome (by simp [opcodeOf])
  | store => exact withReg_outcome fun _ => withCell_outcome fun _ ha => complete_setCell_outcome ha (by simp [opcodeOf])
  | copy a b p => exact execCopy_outcome a b p s
  | jmp => exact withPosTarget_outcome fun _ => completeAt_outcome
  | jz a b p => exact execJz_outcome a b p s
  | jnz a b p => exact execJnz_outcome a b p s
  | call a b p => exact execCall_outcome a b p s
  | ret a b p => exact execRet_outcome a b p s
  | print => exact withReg_outcome fun _ => withSel_outcome fun _ => complete_emit_outcome (by simp [opcodeOf])
  | printi => exact withSel_outcome fun _ => complete_emit_outcome (by simp [opcodeOf])
  | input a b p => exact execInput_outcome a b p s
  | host0 => exact hostTransaction_outcome (by simp [opcodeOf])
  | host1 => exact hostTransaction_outcome (by simp [opcodeOf])
  | host2 => exact hostTransaction_outcome (by simp [opcodeOf])
  | host3 => exact hostTransaction_outcome (by simp [opcodeOf])
  | host4 => exact hostTransaction_outcome (by simp [opcodeOf])
  | nethook => exact complete_outcome

theorem exec_next {i : Instr} {s t : State} (h : exec i s = .next t) : InstrOutcome i s t := by
  obtain ⟨u, hu, ho⟩ := exec_outcome i s
  rw [h] at hu
  injection hu with e
  exact e ▸ ho

/-! ### What each outcome leaves unchanged -/

namespace InstrOutcome

variable {i : Instr} {s t : State}

theorem cells_same (h : InstrOutcome i s t) (hi : opcodeOf i ∉ [13, 14]) : CellsSameBut [] s t := by
  cases h with
  | wroteCell _ _ _ hop => exact absurd hop hi
  | _ => exact fun _ _ => rfl

theorem stack_same (h : InstrOutcome i s t) (hi : opcodeOf i ∉ [21, 22]) : StackSame s t := by
  cases h with
  | called _ _ _ hop => simp [hop] at hi
  | returned _ hop => simp [hop] at hi
  | _ => exact ⟨rfl, fun _ => rfl⟩

theorem out_same (h : InstrOutcome i s t) (hi : opcodeOf i ∉ [24, 25]) : t.out = s.out := by
  cases h with
  | emitted _ _ hop => exact absurd hop hi
  | _ => rfl

theorem dbg_same (h : InstrOutcome i s t) (hi : opcodeOf i ≠ 2) : t.dbg = s.dbg := by
  cases h with
  | logged _ hop => exact absurd hop hi
  | _ => rfl

theorem inIdx_same (h : InstrOutcome i s t) (hi : opcodeOf i ≠ 26) : t.inIdx = s.inIdx := by
  cases h with
  | tookInput _ _ hop => exact absurd hop hi
  | _ => rfl

theorem handle_same (h : InstrOutcome i s t) (hi : opcodeOf i ∉ [30, 31, 32, 33, 34]) : HandleSame s t := by
  cases h with
  | transacted _ _ _ _ _ hop => exact absurd hop hi
  | _ => exact ⟨rfl, rfl⟩

theorem regs_same (h : InstrOutcome i s t) (hi : opcodeOf i ∉ [3, 6, 7, 8, 9, 10, 12, 26, 30, 31, 32, 33, 34]) :
    RegsSameBut [] s t := by
  cases h with
  | wroteReg _ _ hop => simp_all
  | tookInput _ _ hop => simp_all
  | transacted _ _ _ _ _ hop => simp_all
  | _ => exact fun _ _ => rfl

/-- No outcome of an instruction touches what lies outside the VM (R51). -/
theorem outside_same (h : InstrOutcome i s t) : OutsideSame s t := by
  cases h <;> exact ⟨rfl, rfl, rfl, rfl, rfl, rfl, rfl, rfl⟩

theorem out_prefix (h : InstrOutcome i s t) : s.out <+: t.out := by
  cases h with
  | emitted => exact List.prefix_append _ _
  | _ => exact List.prefix_rfl

theorem dbg_prefix (h : InstrOutcome i s t) : s.dbg <+: t.dbg := by
  cases h with
  | logged => exact List.prefix_append _ _
  | _ => exact List.prefix_rfl

/-- The run state an instruction leaves: as it was, Faulted, or Halted by HALT (R18). -/
theorem state_cases (h : InstrOutcome i s t) :
    t.state = s.state ∨ t.state = .faulted ∨ t.state = .halted ∧ ∃ a b p, i = .halt a b p := by
  cases h with
  | faulted => exact .inr (.inl rfl)
  | halted hi => exact .inr (.inr ⟨rfl, hi⟩)
  | _ => exact .inl rfl

/-- `cycles` counts what completes, and a fault is what does not (R20). -/
theorem cycles_cases (h : InstrOutcome i s t) (hs : s.state ≠ .faulted) :
    (t.state = .faulted ∧ t.cycles = s.cycles) ∨ (t.state ≠ .faulted ∧ t.cycles = s.cycles + 1) := by
  cases h with
  | faulted => exact .inl ⟨rfl, rfl⟩
  | halted => exact .inr ⟨nofun, rfl⟩
  | _ => exact .inr ⟨hs, rfl⟩

end InstrOutcome

/-- Settles O19. -/
theorem cyclesCountsCompletedInstructions : Obligations.CyclesCountsCompletedInstructions :=
  fun _ _ _ h hs => (exec_next h).cycles_cases hs

/-- Settles O21: each part is the frame lemma of `InstrOutcome` for that piece of state. -/
theorem onlyTheNamedInstructionsTouchEachStore : Obligations.OnlyTheNamedInstructionsTouchEachStore := by
  intro i s t h
  have ho := exec_next h
  exact ⟨ho.cells_same, ho.stack_same, ho.out_same, ho.dbg_same, ho.inIdx_same, ho.handle_same, ho.regs_same⟩

end Sys2Proof.Machine
end

section
/-! SUPPORT. Everything one step of the machine can do, said once: `StepOutcome` lists the turns of a run call (R131, R132,
R136, R137) and the host's commands (R304), and `step_next` ties it to `step`. -/

namespace Sys2Proof.Machine

/-- Every piece of VM state is as before (R10). -/
structure VmSame (s t : State) : Prop where
  x : t.x = s.x := by rfl
  pc : t.pc = s.pc := by rfl
  mem : t.mem = s.mem := by rfl
  cs : t.cs = s.cs := by rfl
  sp : t.sp = s.sp := by rfl
  state : t.state = s.state := by rfl
  out : t.out = s.out := by rfl
  cycles : t.cycles = s.cycles := by rfl
  fault : t.fault = s.fault := by rfl
  inIdx : t.inIdx = s.inIdx := by rfl
  dbg : t.dbg = s.dbg := by rfl

/-- A change outside the VM: the program store stays in canonical form, and its header is not touched while Running
(R301, log 10). -/
structure OutsideChange (s t : State) : Prop extends VmSame s t where
  prog : sparseRising 0 Config.progCap s.prog = true → sparseRising 0 Config.progCap t.prog = true := by exact id
  hdr : s.state = .running → t.hdr = s.hdr := by exact fun _ => rfl

/-! ### The host's commands -/

theorem decodePixels_length {fmt : PixelFormat} {w i : Nat} {px : List Word} {words : List IWord}
    (h : decodePixels fmt w i px = .ok words) : words.length = px.length := by
  induction px generalizing i words with
  | nil => cases h; rfl
  | cons p px ih =>
    simp only [decodePixels] at h
    split at h
    · cases h
    · split at h
      · cases h
      · rename_i hrest
        cases h
        simp [ih hrest]

/-- A decoded program fits the program store (R5, R97). -/
theorem decodeGrid_length_le {fmt : PixelFormat} {w h : Nat} {px : List Word} {words : List IWord}
    (hd : decodeGrid fmt w h px = .ok words) : words.length ≤ Config.progCap := by
  unfold decodeGrid at hd
  split at hd
  · cases hd
  · split at hd
    · cases hd
    · split at hd
      · cases hd
      · rename_i hw hh hpx
        calc words.length = w * h := by rw [decodePixels_length hd]; omega
          _ ≤ Config.maxSide * Config.maxSide := Nat.mul_le_mul (by omega) (by omega)
          _ = Config.progCap := rfl

/-- Words listed from index `i` on, before a store that starts after them, are in canonical form. -/
theorem sparseRising_listedFrom_append {limit i : Nat} {words : List IWord} {tail : Sparse IWord}
    (hlen : i + words.length ≤ limit) (htail : sparseRising (i + words.length) limit tail = true) :
    sparseRising i limit (listedFrom i words ++ tail) = true := by
  induction words generalizing i with
  | nil => exact htail
  | cons w words ih =>
    simp only [List.length_cons] at hlen htail
    simp only [listedFrom, List.cons_append, sparseRising, Bool.and_eq_true, decide_eq_true_eq]
    exact ⟨by omega, ih (by omega) (by rwa [show i + 1 + words.length = i + (words.length + 1) by omega])⟩

/-- What a store lists from address `a` on is in canonical form, and starts at `a` or after. -/
theorem sparseRising_filter {α : Type} {lo limit a : Nat} {m : Sparse α} (h : sparseRising lo limit m = true) :
    sparseRising (max lo a) limit (m.filter fun c => decide (a ≤ c.1)) = true := by
  induction m generalizing lo with
  | nil => rfl
  | cons c rest ih =>
    simp only [sparseRising, Bool.and_eq_true, decide_eq_true_eq] at h
    obtain ⟨hc, hrest⟩ := h
    have hih := ih hrest
    by_cases ha : a ≤ c.1
    · rw [List.filter_cons_of_pos (by simpa using ha)]
      simp only [sparseRising, Bool.and_eq_true, decide_eq_true_eq]
      exact ⟨by omega, sparseRising_mono hih (by omega)⟩
    · rw [List.filter_cons_of_neg (by simpa using ha)]
      exact sparseRising_mono hih (by omega)

/-- Publishing a program that fits keeps the store in canonical form (R109). -/
theorem sparseRising_storeProgram {words : List IWord} {prog : Sparse IWord} (hlen : words.length ≤ Config.progCap)
    (h : sparseRising 0 Config.progCap prog = true) :
    sparseRising 0 Config.progCap (storeProgram words prog) = true := by
  refine sparseRising_listedFrom_append (by omega) ?_
  exact sparseRising_mono (sparseRising_filter (a := words.length) h) (by omega)

theorem decodeCall_outside (fmt : PixelFormat) (w h : Word) (px : List Word) {s : State} (hs : s.state ≠ .running) :
    OutsideChange s (decodeCall fmt w h px s) := by
  rcases decodeCall_cases fmt w h px s with ⟨words, hwords, e⟩ | ⟨err, -, e⟩
  · rw [e]
    exact { prog := sparseRising_storeProgram (decodeGrid_length_le hwords), hdr := fun hr => absurd hr hs }
  · rw [e]
    exact { prog := fun _ => rfl, hdr := fun hr => absurd hr hs }

theorem encodeCall_outside (ins : List IWord) (w : Word) (s : State) : OutsideChange s (encodeCall ins w s) := by
  rcases encodeCall_cases ins w s with ⟨h, px, -, e⟩ | ⟨err, -, e⟩ <;> exact e ▸ {}

theorem codEncodeCall_outside (method w h : Word) (g : List Word) (s : State) :
    OutsideChange s (codEncodeCall method w h g s) := by
  rcases codEncodeCall_cases method w h g s with ⟨bytes, -, e⟩ | ⟨err, -, e⟩ <;> exact e ▸ {}

theorem codDecodeCall_outside (bytes : List Byte) (s : State) : OutsideChange s (codDecodeCall bytes s) := by
  rcases codDecodeCall_cases bytes s with ⟨w, h, g, -, e⟩ | ⟨err, -, e⟩ <;> exact e ▸ {}

theorem writeProgCall_outside {index : Word} {word : IWord} {s t : State} (h : writeProgCall index word s = .next t) :
    OutsideChange s t := by
  obtain ⟨-, h⟩ := unlessRunning_next h
  split at h
  · rename_i hi
    cases h
    exact { prog := fun hp => sparseRising_set word hp (Nat.zero_le _) hi }
  · cases h

/-- No host command but `reset` touches the VM (R304). -/
theorem hostCommand_outside {c : HostCommand} {s t : State} (h : hostCommand c s = .next t) (hc : c ≠ .reset) :
    OutsideChange s t := by
  cases c with
  | run => cases h; exact {}
  | reset => exact absurd rfl hc
  | attachInput =>
    obtain ⟨-, h⟩ := unlessRunning_next h
    cases h; exact {}
  | attachHandle =>
    obtain ⟨-, h⟩ := unlessRunning_next h
    cases h; exact {}
  | writeProg => exact writeProgCall_outside h
  | writeHeader =>
    obtain ⟨hs, h⟩ := unlessRunning_next h
    cases h; exact { hdr := fun hr => absurd hr hs }
  | decode fmt w hgt px =>
    obtain ⟨hs, h⟩ := unlessRunning_next h
    cases h; exact decodeCall_outside fmt w hgt px hs
  | encode ins w => cases h; exact encodeCall_outside ins w s
  | codEncode m w hgt g => cases h; exact codEncodeCall_outside m w hgt g s
  | codDecode bytes => cases h; exact codDecodeCall_outside bytes s

/-! ### One step -/

/-- What one step can make of state `s`. -/
inductive StepOutcome (s : State) : State → Prop
  /-- Idle, a host command other than `reset`, or the return of a run call: the VM is not touched. -/
  | outside {t : State} (h : OutsideChange s t) : StepOutcome s t
  | reset (rest : List HostCommand) (h : CarriedOut .reset s) : StepOutcome s (vmReset { s with cmds := rest })
  | started (hs : s.state = .ready) (hhdr : headerAccepted s.hdr = true) : StepOutcome s { s with state := .running }
  | refusedHeader (hs : s.state = .ready) (hhdr : headerAccepted s.hdr ≠ true) :
      StepOutcome s (returnStatus .faulted
        { s with fault := faultRecord none .invalidProgram s.hdr.tag.toInt 0, state := .faulted })
  /-- A fault before any instruction executes: PcOutOfRange or InvalidOpcode (R133, R134). -/
  | notExecuted (iw? : Option IWord) (c : Cause) (aux : Int) (hs : s.state = .running) :
      StepOutcome s (countTurn (enterFault iw? c aux s))
  | executed {i : Instr} {u : State} (hs : s.state = .running) (hpc : s.pc.toNat < s.hdr.length.toNat)
      (hi : decode (progRead s s.pc.toNat) = .ok i) (hu : InstrOutcome i s u) : StepOutcome s (countTurn u)

/-- The fetch answers the word at `pc`, which then lies inside the program (R133). -/
theorem fetch_eq_some {s : State} {w : IWord} (h : fetch s = some w) :
    s.pc.toNat < s.hdr.length.toNat ∧ progRead s s.pc.toNat = w := by
  unfold fetch at h
  split at h
  · cases h
  · exact ⟨by omega, Option.some.inj h⟩

/-- All that a cycle can do: the fetch fails, the decode fails, or the instruction at `pc` executes. -/
theorem vmCycle_cases (s : State) :
    (∃ iw? c aux, vmCycle s = .next (enterFault iw? c aux s)) ∨
      (∃ i, s.pc.toNat < s.hdr.length.toNat ∧ decode (progRead s s.pc.toNat) = .ok i ∧ vmCycle s = exec i s) := by
  unfold vmCycle
  split
  · exact .inl ⟨_, _, _, rfl⟩
  · rename_i w hw
    obtain ⟨hpc, hread⟩ := fetch_eq_some hw
    split
    · rename_i i hi
      exact .inr ⟨i, hpc, hread ▸ hi, rfl⟩
    · exact .inl ⟨_, _, _, rfl⟩

theorem mapNext_next {f : State → State} {r : Result} {t : State} (h : mapNext f r = .next t) :
    ∃ u, r = .next u ∧ t = f u := by
  cases r with
  | next u => cases h; exact ⟨u, rfl, rfl⟩
  | fault => cases h
  | refused => cases h

theorem returnStatus_outside (st : RunStatus) (s : State) : OutsideChange s (returnStatus st s) := {}

theorem countTurn_outside (s : State) : OutsideChange s (countTurn s) := {}

/-- A turn that executes (R132). -/
theorem countedCycle_outcome {s t : State} (hs : s.state = .running) (h : mapNext countTurn (vmCycle s) = .next t) :
    StepOutcome s t := by
  obtain ⟨u, hu, rfl⟩ := mapNext_next h
  rcases vmCycle_cases s with ⟨iw?, c, aux, e⟩ | ⟨i, hpc, hi, e⟩
  · rw [e] at hu
    cases hu
    exact .notExecuted iw? c aux hs
  · exact .executed hs hpc hi (exec_next (e ▸ hu))

theorem startRun_outcome {s : State} (hs : s.state = .ready) : StepOutcome s (startRun s) := by
  unfold startRun
  split
  · exact .started hs ‹_›
  · exact .refusedHeader hs ‹_›

theorem runTurn_outcome {c : RunCall} {s t : State} (h : runTurn c s = .next t) : StepOutcome s t := by
  unfold runTurn at h
  split at h
  case h_1 hs => cases h; exact startRun_outcome hs
  case h_2 hs =>
    split at h
    · cases h; exact .outside (returnStatus_outside _ s)
    · exact countedCycle_outcome hs h
  case h_3 => cases h; exact .outside (returnStatus_outside _ s)
  case h_4 => cases h; exact .outside (returnStatus_outside _ s)

/-- Taking a command off the queue changes nothing a command's effect is measured by. -/
theorem OutsideChange.of_cmds {s t : State} {rest : List HostCommand} (h : OutsideChange { s with cmds := rest } t) :
    OutsideChange s t := { h with }

theorem hostTurn_outcome {s t : State} (hcall : s.call = none) (h : hostTurn s = .next t) : StepOutcome s t := by
  unfold hostTurn at h
  split at h
  · cases h; exact .outside {}
  · rename_i c rest hcmds
    by_cases hc : c = .reset
    · subst hc
      cases h
      exact .reset rest ⟨hcall, by simp [hcmds]⟩
    · exact .outside (hostCommand_outside h hc).of_cmds

/-- Every next state of a step is one that `StepOutcome` lists. -/
theorem step_next {s t : State} (h : step s = .next t) : StepOutcome s t := by
  change machineStep s = .next t at h
  unfold machineStep at h
  split at h
  · exact runTurn_outcome h
  · exact hostTurn_outcome ‹_› h

/-! ### The records and the run state over a step -/

/-- Settles O22: an instruction appends to a record, nothing else but a reset touches one. -/
theorem outputAndDebugRecordsOnlyGrow : Obligations.OutputAndDebugRecordsOnlyGrow := by
  intro s t h hreset
  cases step_next h with
  | outside ho => rw [ho.out, ho.dbg]; exact ⟨List.prefix_rfl, List.prefix_rfl⟩
  | reset _ hc => exact absurd hc hreset
  | started => exact ⟨List.prefix_rfl, List.prefix_rfl⟩
  | refusedHeader => exact ⟨List.prefix_rfl, List.prefix_rfl⟩
  | notExecuted => exact ⟨List.prefix_rfl, List.prefix_rfl⟩
  | executed _ _ _ hu => exact ⟨hu.out_prefix, hu.dbg_prefix⟩

/-- The header test in the spec's numbers (R131). -/
theorem headerAccepted_iff {hdr : Header} : headerAccepted hdr = true ↔ hdr.tag = 1 ∧ hdr.length.toNat ≤ 1048576 := by
  simp [headerAccepted]

/-- Settles O23: one transition for each outcome of a step. -/
theorem theRunStateMovesOnlyAsTheSpecLists : Obligations.TheRunStateMovesOnlyAsTheSpecLists := by
  intro s t h
  cases step_next h with
  | outside ho => exact .inl ho.state
  | reset _ hc => exact .inr (.inr (.inr (.inr (.inr ⟨rfl, hc⟩))))
  | started hs => exact .inr (.inl ⟨hs, rfl⟩)
  | refusedHeader hs hhdr => exact .inr (.inr (.inr (.inr (.inl ⟨hs, rfl, mt headerAccepted_iff.2 hhdr⟩))))
  | notExecuted _ _ _ hs => exact .inr (.inr (.inr (.inl ⟨hs, rfl⟩)))
  | executed hs _ hi hu =>
    rcases hu.state_cases with hst | hst | ⟨hst, a, b, p, rfl⟩
    · exact .inl hst
    · exact .inr (.inr (.inr (.inl ⟨hs, hst⟩)))
    · exact .inr (.inr (.inl ⟨hs, hst, a, b, p, hi⟩))

end Sys2Proof.Machine
end

section
/-! SUPPORT. The machine's invariant: it holds after a reset, every change outside the VM keeps it, a fault keeps it, and so
does every instruction that executes inside the program. -/

namespace Sys2Proof.Machine

/-- `pc` and the return indices in use are at most `bound` (R15). -/
def State.IndicesWithin (bound : Nat) (s : State) : Prop :=
  s.pc.toNat ≤ bound ∧ ∀ n < s.sp.toNat, (s.entry n).toNat ≤ bound

theorem State.IndicesWithin.mono {a b : Nat} {s : State} (h : s.IndicesWithin a) (hab : a ≤ b) : s.IndicesWithin b :=
  ⟨h.1.trans hab, fun n hn => (h.2 n hn).trans hab⟩

theorem length_le_progCap {hdr : Header} (h : headerAccepted hdr = true) : hdr.length.toNat ≤ Config.progCap :=
  (headerAccepted_iff.1 h).2

theorem Cause.code_ne_zero (c : Cause) : c.code ≠ 0 := by
  cases c <;> decide

theorem faultRecord_cause (iw? : Option IWord) (c : Cause) (aux : Int) (pc : Word) :
    (faultRecord iw? c aux pc).cause = c.code := by
  cases iw? <;> rfl

/-! ### Reset, and changes outside the VM -/

/-- A VM reset gives the invariant, whatever the VM held before (R33). -/
theorem vmReset_inv {s : State} (hprog : sparseRising 0 Config.progCap s.prog = true) : (vmReset s).Inv :=
  ⟨⟨rfl, rfl, hprog⟩, Nat.zero_le _, ⟨Nat.zero_le _, nofun⟩, nofun, fun _ => rfl, nofun, fun _ => rfl⟩

theorem VmSame.entry {s t : State} (h : VmSame s t) (n : Nat) : t.entry n = s.entry n := by
  simp only [State.entry, h.cs]

theorem VmSame.indicesWithin {s t : State} {bound : Nat} (h : VmSame s t) (hs : s.IndicesWithin bound) :
    t.IndicesWithin bound := by
  simpa only [State.IndicesWithin, h.pc, h.sp, h.entry] using hs

theorem VmSame.trans {s t u : State} (h : VmSame s t) (h' : VmSame t u) : VmSame s u where
  x := h'.x.trans h.x
  pc := h'.pc.trans h.pc
  mem := h'.mem.trans h.mem
  cs := h'.cs.trans h.cs
  sp := h'.sp.trans h.sp
  state := h'.state.trans h.state
  out := h'.out.trans h.out
  cycles := h'.cycles.trans h.cycles
  fault := h'.fault.trans h.fault
  inIdx := h'.inIdx.trans h.inIdx
  dbg := h'.dbg.trans h.dbg

/-- A state that a reset would not change is one whose VM part is that of `State.reset`. -/
theorem vmReset_eq_self_iff {s : State} : vmReset s = s ↔ VmSame State.reset s := by
  constructor
  · intro h
    have hreset : VmSame State.reset (vmReset s) := {}
    exact h ▸ hreset
  · rintro ⟨hx, hpc, hmem, hcs, hsp, hstate, hout, hcycles, hfault, hinIdx, hdbg⟩
    simp only [vmReset, ← hx, ← hpc, ← hmem, ← hcs, ← hsp, ← hstate, ← hout, ← hcycles, ← hfault, ← hinIdx, ← hdbg]

theorem VmSame.readyOk {s t : State} (h : VmSame s t) (hs : s.ReadyOk) : t.ReadyOk := fun ht =>
  vmReset_eq_self_iff.2 ((vmReset_eq_self_iff.1 (hs (h.state ▸ ht))).trans h)

theorem OutsideChange.inv {s t : State} (h : OutsideChange s t) (hs : s.Inv) : t.Inv := by
  obtain ⟨⟨hmem, hcs, hprog⟩, hsp, hidx, hrun, hready, hfault⟩ := hs
  refine ⟨⟨h.mem ▸ hmem, h.cs ▸ hcs, h.prog hprog⟩, ?_, h.indicesWithin hidx, ?_, h.readyOk hready, ?_⟩
  · simpa only [State.StackOk, h.sp] using hsp
  · intro ht
    have hs : s.state = .running := h.state ▸ ht
    obtain ⟨hhdr, hin⟩ := hrun hs
    rw [h.hdr hs]
    exact ⟨hhdr, h.indicesWithin hin⟩
  · simpa only [State.FaultOk, h.state, h.fault] using hfault

/-! ### Taking a fault, and starting a run -/

/-- A fault changes the run state and the record alone (R256). -/
theorem faulted_inv {s : State} {r : FaultRecord} (hr : r.cause ≠ 0) (hs : s.Inv) :
    State.Inv { s with fault := r, state := .faulted } := by
  obtain ⟨hstores, hsp, hidx, -⟩ := hs
  exact ⟨hstores, hsp, hidx, nofun, nofun, fun _ => hr, fun h => absurd rfl h⟩

theorem enterFault_inv (iw? : Option IWord) (c : Cause) (aux : Int) {s : State} (hs : s.Inv) :
    (enterFault iw? c aux s).Inv :=
  faulted_inv (by rw [faultRecord_cause]; exact c.code_ne_zero) hs

/-- A run starts at index 0 with an empty call stack, which lie in any program (R131). -/
theorem started_inv {s : State} (hs : s.Inv) (hstate : s.state = .ready) (hhdr : headerAccepted s.hdr = true) :
    State.Inv { s with state := .running } := by
  obtain ⟨hstores, hsp, hidx, -, hready, -, hfault⟩ := hs
  have hreset := hready hstate
  have hpc : s.pc = 0 := (congrArg State.pc hreset).symm
  have hsp0 : s.sp = 0 := (congrArg State.sp hreset).symm
  refine ⟨hstores, hsp, hidx, fun _ => ⟨hhdr, ?_, ?_⟩, nofun, nofun, fun _ => hfault (by simp [hstate])⟩
  · simp [hpc]
  · simp [hsp0]

/-! ### Executing an instruction -/

/-- A call stack that is not full has room for one more entry (R17). -/
theorem State.StackOk.sp_lt {s : State} (h : s.StackOk) (hfull : s.sp ≠ 256#9) : s.sp.toNat < Config.stackDepth :=
  Nat.lt_of_le_of_ne h fun e => hfull (BitVec.eq_of_toNat_eq e)

theorem State.StackOk.push_sp {s : State} (h : s.StackOk) (hfull : s.sp ≠ 256#9) :
    (s.sp + 1).toNat = s.sp.toNat + 1 := by
  have hlt := h.sp_lt hfull
  unfold Config.stackDepth at hlt
  rw [BitVec.toNat_add_of_lt] <;> simp
  omega

theorem pop_sp_toNat {s : State} (hempty : s.sp ≠ 0#9) : (s.sp - 1).toNat = s.sp.toNat - 1 ∧ 0 < s.sp.toNat := by
  bv_omega

theorem pc_add_one_toNat {s : State} (hpc : s.pc.toNat < s.hdr.length.toNat) : (s.pc + 1).toNat = s.pc.toNat + 1 := by
  bv_omega

namespace State.IndicesWithin

variable {s : State} {bound : Nat}

/-- An instruction that leaves the call stack alone and completes inside the bound keeps the indices inside it. -/
theorem completed {target : Word} (hs : s.IndicesWithin bound) (ht : target.toNat ≤ bound) :
    (s.completed target).IndicesWithin bound := ⟨ht, hs.2⟩

theorem push {v : Word} (hs : s.IndicesWithin bound) (hsp : s.StackOk) (hfull : s.sp ≠ 256#9) (hv : v.toNat ≤ bound) :
    (s.push v).IndicesWithin bound := by
  refine ⟨hs.1, fun n hn => ?_⟩
  rw [push_sp, hsp.push_sp hfull] at hn
  by_cases htop : n = s.sp.toNat
  · rw [htop, entry_push_self]
    exact hv
  · rw [entry_push_other s v htop]
    exact hs.2 n (by omega)

theorem pop (hs : s.IndicesWithin bound) (hempty : s.sp ≠ 0#9) : s.pop.IndicesWithin bound := by
  refine ⟨hs.1, fun n hn => hs.2 n ?_⟩
  rw [pop_sp, (pop_sp_toNat hempty).1] at hn
  omega

end State.IndicesWithin

namespace InstrOutcome

variable {i : Instr} {s t : State}

theorem storesOk (h : InstrOutcome i s t) (hsp : s.StackOk) (hs : s.StoresOk) : t.StoresOk := by
  obtain ⟨hmem, hcs, hprog⟩ := hs
  cases h with
  | wroteCell a v ha => exact ⟨memory_wf_write v hmem (Nat.lt_succ_of_le ha), hcs, hprog⟩
  | called _ _ hfull => exact ⟨hmem, memory_wf_write _ hcs (hsp.sp_lt hfull), hprog⟩
  | _ => exact ⟨hmem, hcs, hprog⟩

theorem stackOk (h : InstrOutcome i s t) (hs : s.StackOk) : t.StackOk := by
  cases h with
  | called _ _ hfull =>
    change (s.sp + 1).toNat ≤ Config.stackDepth
    rw [hs.push_sp hfull]
    exact hs.sp_lt hfull
  | returned hempty =>
    change (s.sp - 1).toNat ≤ Config.stackDepth
    rw [(pop_sp_toNat hempty).1]
    exact (Nat.sub_le _ _).trans hs
  | _ => exact hs

/-- Executed inside the program, an instruction leaves `pc` and the return indices in it or right behind it (R15): what
completes in sequence goes one further, a jump is checked, and RET goes to an index that was in the call stack. -/
theorem indicesWithin (h : InstrOutcome i s t) (hsp : s.StackOk) (hpc : s.pc.toNat < s.hdr.length.toNat)
    (hs : s.IndicesWithin s.hdr.length.toNat) : t.IndicesWithin s.hdr.length.toNat := by
  have hnext : (s.pc + 1).toNat ≤ s.hdr.length.toNat := (pc_add_one_toNat hpc).trans_le hpc
  cases h with
  | faulted => exact hs
  | halted => exact hs
  | jumped _ ht => exact hs.completed ht.le
  | called _ ht hfull => exact (hs.push hsp hfull hnext).completed ht.le
  | returned hempty => exact (hs.pop hempty).completed (hs.2 _ (by have := (pop_sp_toNat hempty).2; omega))
  | _ => exact State.IndicesWithin.completed hs hnext

/-- A fault is recorded exactly when the instruction ends in Faulted (R256). -/
theorem faultOk (h : InstrOutcome i s t) (hs : s.FaultOk) (hstate : s.state ≠ .faulted) : t.FaultOk := by
  have hnone := hs.2 hstate
  cases h with
  | faulted c => exact ⟨fun _ => c.code_ne_zero, fun h => absurd rfl h⟩
  | halted => exact ⟨nofun, fun _ => hnone⟩
  | _ => exact hs

theorem inv (h : InstrOutcome i s t) (hs : s.Inv) (hstate : s.state = .running)
    (hpc : s.pc.toNat < s.hdr.length.toNat) : t.Inv := by
  obtain ⟨hstores, hsp, -, hrun, -, hfault⟩ := hs
  obtain ⟨hhdr, hin⟩ := hrun hstate
  have hin' := h.indicesWithin hsp hpc hin
  obtain ⟨hsame, -⟩ := h.outside_same
  have hready : t.state ≠ .ready := by
    rcases h.state_cases with e | e | ⟨e, -⟩ <;> simp [e, hstate]
  refine ⟨h.storesOk hsp hstores, h.stackOk hsp, hin'.mono (length_le_progCap hhdr), fun _ => ?_,
    fun e => absurd e hready, h.faultOk hfault (by simp [hstate])⟩
  rw [hsame]
  exact ⟨hhdr, hin'⟩

end InstrOutcome

/-! ### The invariant over a step -/

/-- Settles O15: the state after power-on is a VM reset of itself. -/
theorem resetMeetsTheInvariant : Obligations.ResetMeetsTheInvariant :=
  vmReset_inv (s := State.reset) rfl

/-- Settles O16, outcome by outcome of a step. -/
theorem everyStepKeepsTheInvariant : Obligations.EveryStepKeepsTheInvariant := by
  intro s t hs h
  cases step_next h with
  | outside ho => exact ho.inv hs
  | reset _ _ =>
    obtain ⟨⟨-, -, hprog⟩, -⟩ := hs
    exact vmReset_inv hprog
  | started hstate hhdr => exact started_inv hs hstate hhdr
  | refusedHeader _ _ =>
    refine (returnStatus_outside _ _).inv (faulted_inv ?_ hs)
    rw [faultRecord_cause]
    exact Cause.code_ne_zero _
  | notExecuted iw? c aux _ => exact (countTurn_outside _).inv (enterFault_inv iw? c aux hs)
  | executed hstate hpc _ hu => exact (countTurn_outside _).inv (hu.inv hs hstate hpc)

/-! ### What the host reads -/

theorem hostView_eq_none_iff {s : State} : hostView s = none ↔ s.state = .running ∧ s.call ≠ none := by
  rw [Option.ne_none_iff_isSome]
  unfold hostView
  split <;> simp_all

/-- The view shows the call stack below `sp` only (R34). -/
theorem hostView_eq_some {s : State} {v : HostView} (h : hostView s = some v) :
    v = { x := s.x, mem := s.mem, pc := s.pc, sp := s.sp, cs := (List.range s.sp.toNat).map s.entry, state := s.state
          cycles := s.cycles, fault := s.fault, out := s.out, dbg := s.dbg, inIdx := s.inIdx } := by
  unfold hostView at h
  split at h
  · cases h
  · exact (Option.some.inj h).symm

/-- Settles O14. -/
theorem theHostSeesNothingOfARunningCall : Obligations.TheHostSeesNothingOfARunningCall := by
  refine fun s => ⟨hostView_eq_none_iff, fun v hv => ?_⟩
  obtain rfl := hostView_eq_some hv
  refine ⟨rfl, rfl, rfl, rfl, rfl, rfl, rfl, rfl, rfl, rfl, by simp, fun n hn => ?_⟩
  simp [List.getElem?_range hn]

end Sys2Proof.Machine
end

section
/-! SUPPORT. What the byte decoder reads back: the fields of an encoded word name the instruction again, and the bytes of a
word, low 32-bit word first (R41), are put together again as that word. -/

namespace Sys2Proof

/-! ### The decoder on an encoded word -/

theorem opcodeOf_lt (i : Instr) : opcodeOf i < 256 := by
  cases i <;> simp [opcodeOf]

@[simp] theorem opcodeField_encode_toNat (i : Instr) : (opcodeField (encode i)).toNat = opcodeOf i := by
  rw [encode, opcodeField_packWord, BitVec.toNat_ofNat, Nat.mod_eq_of_lt (opcodeOf_lt i)]

@[simp] theorem op1Field_encode (i : Instr) : op1Field (encode i) = i.op1 := by simp [encode]

@[simp] theorem op2Field_encode (i : Instr) : op2Field (encode i) = i.op2 := by simp [encode]

@[simp] theorem posField_encode (i : Instr) : posField (encode i) = i.pos := by simp [encode]

/-- Row by row, the decoder's table is the encoder's (R67). -/
theorem instrOfFields_opcodeOf (i : Instr) : instrOfFields (opcodeOf i) i.op1 i.op2 i.pos = .ok i := by
  cases i <;> rfl

@[simp] theorem decode_encode (i : Instr) : decode (encode i) = .ok i := by
  simp [decode, instrOfFields_opcodeOf]

/-! ### The decoder on bytes -/

@[simp] theorem iwordOfWords_halves (w : IWord) :
    iwordOfWords (w.extractLsb' 0 32) (w.extractLsb' 32 32) = w :=
  BitVec.extractLsb'_append_extractLsb' (w := 32)

/-- The byte decoder consumes one word's bytes and answers what `decode` answers for that word. -/
theorem decodeBytes_bytesOfIWord_append (w : IWord) (rest : List Byte) :
    decodeBytes (bytesOfIWord w ++ rest) = (decode w).map fun i => (i, rest) := by
  simp only [bytesOfIWord, bytesOfWord, List.cons_append, List.nil_append, decodeBytes, wordOfBytes_bytes,
    iwordOfWords_halves]
  cases decode w <;> rfl

end Sys2Proof

namespace Sys2Proof.Machine

/-- Settles O5. -/
theorem programBytesDecodeInOrder : Obligations.ProgramBytesDecodeInOrder := by
  intro i rest
  rw [decodeBytes_bytesOfIWord_append, decode_encode]
  rfl

end Sys2Proof.Machine
end

section
/-! SUPPORT. The memories' edges: no instruction reaches the program store (R51), and a data cell is named by exactly the
signed addresses that lie in the memory (R43). -/

namespace Sys2Proof.Machine

/-- Settles O20: no outcome an instruction can have writes outside the VM. -/
theorem noInstructionWritesTheProgramStore : Obligations.NoInstructionWritesTheProgramStore :=
  fun _ _ _ h => (exec_next h).outside_same

theorem cellIndex_eq_some {v : Int} {a : Nat} : cellIndex v = some a ↔ v = (a : Int) ∧ a ≤ 1023 := by
  unfold cellIndex
  split
  · rename_i hin
    rw [Option.some.injEq]
    omega
  · rename_i hout
    simp only [reduceCtorEq, false_iff]
    omega

/-- Settles O38. -/
theorem cellsAreNamedBySignedAddresses : Obligations.CellsAreNamedBySignedAddresses :=
  fun _ _ => cellIndex_eq_some

end Sys2Proof.Machine
end

section
/-! SUPPORT. The instruction word in both directions (R62, R67): the decoder's table read backwards, the numbers it
refuses (R71, R72), and a word as its five fields put together again. -/

namespace Sys2Proof

/-- The ten reserved hue slots (R71). -/
abbrev reservedOpcodes : List Nat := [4, 5, 11, 15, 16, 17, 23, 27, 28, 29]

theorem le_of_mem_reservedOpcodes {k : Nat} (h : k ∈ reservedOpcodes) : k ≤ 35 := by
  simp only [List.mem_cons, List.not_mem_nil, or_false] at h
  omega

/-- What the decoder's table can answer for a number: an instruction, reserved, or unassigned (R67, R71, R72). -/
theorem instrOfFields_cases (k : Nat) (a b : Operand) (p : Pos) :
    (k ≤ 35 ∧ k ∉ reservedOpcodes ∧ ∃ i, instrOfFields k a b p = .ok i) ∨
      (k ∈ reservedOpcodes ∧ instrOfFields k a b p = .error (.reservedOpcode k)) ∨
      (35 < k ∧ instrOfFields k a b p = .error (.unassignedOpcode k)) := by
  unfold instrOfFields
  split
  case h_27 =>
    split
    · refine .inr (.inl ⟨?_, rfl⟩)
      simp only [imp_false] at *
      simp only [List.mem_cons, List.not_mem_nil, or_false]
      omega
    · exact .inr (.inr ⟨by omega, rfl⟩)
  all_goals exact .inl ⟨by decide, by decide, _, rfl⟩

/-- An instruction read from a number and fields is the one that has them. -/
theorem instrOfFields_eq_ok {k : Nat} {a b : Operand} {p : Pos} {i : Instr} (h : instrOfFields k a b p = .ok i) :
    opcodeOf i = k ∧ i.op1 = a ∧ i.op2 = b ∧ i.pos = p := by
  unfold instrOfFields at h
  split at h
  case h_27 => split at h <;> cases h
  all_goals
    cases h
    exact ⟨rfl, rfl, rfl, rfl⟩

/-- A word is decoded, refused as reserved or refused as unassigned, by its opcode alone. -/
theorem decode_cases (w : IWord) :
    ((opcodeField w).toNat ≤ 35 ∧ (opcodeField w).toNat ∉ reservedOpcodes ∧ ∃ i, decode w = .ok i) ∨
      ((opcodeField w).toNat ∈ reservedOpcodes ∧ decode w = .error (.reservedOpcode (opcodeField w).toNat)) ∨
      (35 < (opcodeField w).toNat ∧ decode w = .error (.unassignedOpcode (opcodeField w).toNat)) :=
  instrOfFields_cases _ _ _ _

/-- The fields of a word, packed again, are the word: they lie next to each other and leave no bit out (R62). -/
theorem packWord_fields (w : IWord) : packWord (opcodeField w).toNat (op1Field w) (op2Field w) (posField w) = w := by
  have adjacent {start len len' : Nat} (start' : Nat) (h : start' = start + len) :
      w.extractLsb' start' len' ++ w.extractLsb' start len = w.extractLsb' start (len' + len) :=
    BitVec.extractLsb'_append_extractLsb'_eq_extractLsb' h
  have hop : BitVec.ofNat 8 (opcodeField w).toNat = opcodeField w := by simp
  rw [packWord, hop]
  simp only [opcodeField, op1Field, op2Field, posField, yField, xField]
  rw [adjacent 56 rfl, adjacent 40 rfl, adjacent 24 rfl, adjacent 12 rfl]
  exact BitVec.extractLsb'_eq_self

end Sys2Proof

namespace Sys2Proof.Machine

/-- Settles O1. -/
theorem decodeOfEncodeIsTheInstruction : Obligations.DecodeOfEncodeIsTheInstruction :=
  decode_encode

/-- Settles O2: the instruction has the word's fields, and the fields make up the word. -/
theorem encodeOfDecodeIsTheWord : Obligations.EncodeOfDecodeIsTheWord := by
  intro w i h
  obtain ⟨hk, ha, hb, hp⟩ := instrOfFields_eq_ok h
  rw [encode, hk, ha, hb, hp, packWord_fields]

/-- Settles O3: the three answers exclude each other, since a reserved number is at most 35. -/
theorem decoderRejectsExactlyTheUnassignedOpcodes : Obligations.DecoderRejectsExactlyTheUnassignedOpcodes := by
  intro w
  rcases decode_cases w with ⟨h35, hres, i, e⟩ | ⟨hres, e⟩ | ⟨h35, e⟩
  · exact ⟨by simp [e, hres], by simp [e, h35], by simp [e, h35, hres]⟩
  · exact ⟨by simp [e, hres], by simp [e, le_of_mem_reservedOpcodes hres], by simp [e, hres]⟩
  · have hres := mt le_of_mem_reservedOpcodes (Nat.not_le.2 h35)
    exact ⟨by simp [e, hres], by simp [e, h35], by simp [e, h35]⟩

end Sys2Proof.Machine
end

section
/-! SUPPORT. Two instructions run side by side: what an instruction reads of itself but its opcode and the operands in use
shows in the record of a fault and in a debug event alone. `ResultsAlike` says so of two results, each shared operation
keeps it, and `exec_alike` ties it to `exec`. -/

namespace Sys2Proof.Machine

/-- The pairs of states that instructions `i` and `j`, alike but for what takes no part in execution, make of state `s`. -/
inductive StatesAlike (i j : Instr) (s : State) : State → State → Prop
  | same (t : State) : StatesAlike i j s t t
  /-- The same fault, each with the word of its own instruction (R256). -/
  | faulted (c : Cause) (aux : Int) :
      StatesAlike i j s (enterFault (some (encode i)) c aux s) (enterFault (some (encode j)) c aux s)
  /-- A debug event each, with the position of its own instruction (R152). -/
  | logged (e e' : DebugEvent) (hi : opcodeOf i = 2) :
      StatesAlike i j s (State.completed { s with dbg := s.dbg ++ [e] } (s.pc + 1))
        (State.completed { s with dbg := s.dbg ++ [e'] } (s.pc + 1))

/-- Both results are next states, and a pair that `StatesAlike` lists. -/
def ResultsAlike (i j : Instr) (s : State) (r q : Result) : Prop :=
  ∃ t u, r = .next t ∧ q = .next u ∧ StatesAlike i j s t u

/-! ### The shared operations -/

section
variable {i j : Instr} {s : State}

theorem next_alike {t : State} : ResultsAlike i j s (.next t) (.next t) := ⟨t, t, rfl, rfl, .same t⟩

theorem raise_alike {c : Cause} {aux : Int} : ResultsAlike i j s (raise i c aux s) (raise j c aux s) :=
  ⟨_, _, rfl, rfl, .faulted c aux⟩

theorem ite_alike {c : Prop} [Decidable c] {r r' q q' : Result} (h : ResultsAlike i j s r q)
    (h' : ResultsAlike i j s r' q') : ResultsAlike i j s (if c then r else r') (if c then q else q') := by
  split
  · exact h
  · exact h'

theorem withReg_alike {op : Operand} {k k' : Fin 16 → Result} (hk : ∀ r, ResultsAlike i j s (k r) (k' r)) :
    ResultsAlike i j s (withReg i op s k) (withReg j op s k') := by
  unfold withReg
  cases regIndex op with
  | some r => exact hk r
  | none => exact raise_alike

theorem withRegPair_alike {op1 op2 : Operand} {k k' : Fin 16 → Fin 16 → Result}
    (hk : ∀ a b, ResultsAlike i j s (k a b) (k' a b)) :
    ResultsAlike i j s (withRegPair i op1 op2 s k) (withRegPair j op1 op2 s k') :=
  withReg_alike fun a => withReg_alike fun b => hk a b

theorem withSel_alike {op : Operand} {k k' : OutTag → Result} (hk : ∀ tag, ResultsAlike i j s (k tag) (k' tag)) :
    ResultsAlike i j s (withSel i op s k) (withSel j op s k') := by
  unfold withSel
  cases selTag op with
  | some tag => exact hk tag
  | none => exact raise_alike

theorem withCell_alike {a : Int} {k k' : Nat → Result} (hk : ∀ n, ResultsAlike i j s (k n) (k' n)) :
    ResultsAlike i j s (withCell i a s k) (withCell j a s k') := by
  unfold withCell
  cases cellIndex a with
  | some n => exact hk n
  | none => exact raise_alike

theorem withPosTarget_alike {tx ty : Operand} {k k' : Word → Result}
    (hk : ∀ target, ResultsAlike i j s (k target) (k' target)) :
    ResultsAlike i j s (withPosTarget i tx ty s k) (withPosTarget j tx ty s k') := by
  unfold withPosTarget
  cases resolvePos s.hdr (opValue tx) (opValue ty) with
  | ok target => exact hk _
  | error aux => exact raise_alike

theorem withAddrTarget_alike {addr : Operand} {k k' : Word → Result}
    (hk : ∀ target, ResultsAlike i j s (k target) (k' target)) :
    ResultsAlike i j s (withAddrTarget i addr s k) (withAddrTarget j addr s k') :=
  ite_alike (hk _) raise_alike

theorem withDivisor_alike {b : Int} {k k' : Result} (hk : ResultsAlike i j s k k') :
    ResultsAlike i j s (withDivisor i b s k) (withDivisor j b s k') :=
  ite_alike raise_alike hk

theorem writeExact_alike {rd : Fin 16} {v : Int} : ResultsAlike i j s (writeExact i rd v s) (writeExact j rd v s) :=
  ite_alike next_alike raise_alike

theorem hostTransaction_alike {k : Fin 5} {op1 op2 : Operand} :
    ResultsAlike i j s (hostTransaction k i op1 op2 s) (hostTransaction k j op1 op2 s) :=
  withRegPair_alike fun _ _ => ite_alike next_alike next_alike

end

/-! ### The instructions -/

theorem execRet_alike (a b c d : Operand) (p q : Pos) (s : State) :
    ResultsAlike (.ret a b p) (.ret c d q) s (execRet a b p s) (execRet c d q s) :=
  ite_alike raise_alike next_alike

theorem execInput_alike (a b d : Operand) (p q : Pos) (s : State) :
    ResultsAlike (.input a b p) (.input a d q) s (execInput a b p s) (execInput a d q s) := by
  refine withReg_alike fun r => ?_
  cases s.nextInput with
  | some v => exact next_alike
  | none => exact next_alike

theorem execJmp_alike (a b : Operand) (p q : Pos) (s : State) :
    ResultsAlike (.jmp a b p) (.jmp a b q) s (execJmp a b p s) (execJmp a b q s) :=
  withPosTarget_alike fun _ => next_alike

theorem execCall_alike (a b : Operand) (p q : Pos) (s : State) :
    ResultsAlike (.call a b p) (.call a b q) s (execCall a b p s) (execCall a b q s) :=
  withPosTarget_alike fun _ => ite_alike raise_alike next_alike

/-- Instructions with one opcode and the same operand fields, each at a position of its own, do alike. -/
theorem exec_alike {i j : Instr} (s : State) (hk : opcodeOf i = opcodeOf j) (h1 : i.op1 = j.op1) (h2 : i.op2 = j.op2) :
    ResultsAlike i j s (exec i s) (exec j s) := by
  have hj : instrOfFields (opcodeOf i) i.op1 i.op2 j.pos = .ok j := by rw [hk, h1, h2, instrOfFields_opcodeOf]
  generalize j.pos = q at hj
  cases i with
  | nop | halt | nethook => cases hj; exact next_alike
  | debug => cases hj; exact ⟨_, _, rfl, rfl, .logged _ _ rfl⟩
  | lit => cases hj; exact withReg_alike fun _ => next_alike
  | add | sub | mul => cases hj; exact withRegPair_alike fun _ _ => writeExact_alike
  | div => cases hj; exact withRegPair_alike fun _ _ => withDivisor_alike writeExact_alike
  | mod => cases hj; exact withRegPair_alike fun _ _ => withDivisor_alike next_alike
  | load | store => cases hj; exact withReg_alike fun _ => withCell_alike fun _ => next_alike
  | copy => cases hj; exact withRegPair_alike fun _ _ => withCell_alike fun _ => withCell_alike fun _ => next_alike
  | jmp a b p => cases hj; exact execJmp_alike a b p q s
  | jz => cases hj; exact withReg_alike fun _ => ite_alike (withAddrTarget_alike fun _ => next_alike) next_alike
  | jnz => cases hj; exact withReg_alike fun _ => ite_alike next_alike (withAddrTarget_alike fun _ => next_alike)
  | call a b p => cases hj; exact execCall_alike a b p q s
  | ret a b p => cases hj; exact execRet_alike a b a b p q s
  | print => cases hj; exact withReg_alike fun _ => withSel_alike fun _ => next_alike
  | printi => cases hj; exact withSel_alike fun _ => next_alike
  | input a b p => cases hj; exact execInput_alike a b b p q s
  | host0 | host1 | host2 | host3 | host4 => cases hj; exact hostTransaction_alike

/-! ### What a pair of alike states agrees in -/

namespace StatesAlike

variable {i j : Instr} {s t u : State}

/-- All but the fault record and the debug events; of the record cause, `pc` and aux; of the events their number. -/
theorem same_but_records (h : StatesAlike i j s t u) :
    { u with fault := t.fault, dbg := t.dbg } = t ∧ u.fault.cause = t.fault.cause ∧ u.fault.pc = t.fault.pc ∧
      u.fault.aux = t.fault.aux ∧ u.dbg.length = t.dbg.length := by
  cases h with
  | same => exact ⟨rfl, rfl, rfl, rfl, rfl⟩
  | faulted => exact ⟨rfl, by simp [faultRecord]⟩
  | logged => exact ⟨rfl, rfl, rfl, rfl, by simp [State.completed]⟩

/-- Two faults of instructions at one position differ in the recorded word alone. -/
theorem same_but_word (h : StatesAlike i j s t u) (hi : opcodeOf i ≠ 2) (hpos : i.pos = j.pos) :
    { u with fault := { u.fault with iw := t.fault.iw } } = t := by
  cases h with
  | same => rfl
  | faulted => simp [enterFault, faultRecord, hpos]
  | logged _ _ hop => exact absurd hop hi

end StatesAlike

/-- Settles O25. -/
theorem thePositionTakesNoPartInExecution : Obligations.ThePositionTakesNoPartInExecution := by
  intro i j s hk h1 h2
  obtain ⟨t, u, ht, hu, h⟩ := exec_alike s hk h1 h2
  exact ⟨t, u, ht, hu, h.same_but_records⟩

/-- Settles O26: NOP, HALT, DEBUG and NETHOOK do not look at their operand fields, and the word a fault records is all that
RET and INPUT make of theirs. -/
theorem unusedOperandFieldsAreIgnored : Obligations.UnusedOperandFieldsAreIgnored := by
  intro a b c d p s
  obtain ⟨t, u, ht, hu, hret⟩ := execRet_alike a b c d p p s
  obtain ⟨t', u', ht', hu', hinput⟩ := execInput_alike a b d p p s
  exact ⟨rfl, rfl, rfl, rfl, ⟨t, u, ht, hu, hret.same_but_word (by simp [opcodeOf]) rfl⟩,
    ⟨t', u', ht', hu', hinput.same_but_word (by simp [opcodeOf]) rfl⟩⟩

end Sys2Proof.Machine
end

section
/-! SUPPORT. The Registry's operand ranges (spec/40_registry_decoder.md R93, R106, R107): what `dequantize` accepts and
gives, and what `quantize` makes of it. Every kind's inverse is one affine map on its range. -/

namespace Sys2Proof.Machine

/-- The operand values of a kind that some channel value stands for (R68, R106), a selector's being 0 and 1. -/
def Carries : Kind → Int → Prop
  | .unused, v => v = 0
  | .reg, v => 0 ≤ v ∧ v ≤ 15
  | .sel, v => v = 0 ∨ v = 1
  | .imm, v => -500 ≤ v ∧ v ≤ 500
  | .addr, v => 0 ≤ v ∧ v ≤ 1000
  | .pos, v => 0 ≤ v ∧ v ≤ 1000

/-- The lower edge of the bin of a value (R106). -/
def lowerEdge : Kind → Int → Int
  | .unused, _ => 0
  | .reg, v => 64 * v
  | .sel, v => 64 * v
  | .imm, v => v + 500
  | .addr, v => v
  | .pos, v => v

/-- `dequantize` accepts the values in range and gives the lower edge. -/
theorem dequantize_eq_some {kind : Kind} {v : Int} {c : Nat} :
    dequantize kind [0, 1] v = some c ↔ Carries kind v ∧ (c : Int) = lowerEdge kind v := by
  cases kind with
  | unused | reg | sel | imm | addr | pos =>
    simp only [dequantize, Carries, lowerEdge, Option.ite_none_right_eq_some, Option.some.injEq, List.mem_cons,
      List.not_mem_nil, or_false, Config.uqMax]
    omega

theorem lowerEdge_nonneg {kind : Kind} {v : Int} (h : Carries kind v) : 0 ≤ lowerEdge kind v := by
  cases kind with
  | unused | reg | sel | imm | addr | pos =>
    simp only [Carries, lowerEdge] at *
    omega

/-- The lower edge lies in the channel's range and is quantized to the value it stands for. -/
theorem quantize_lowerEdge {kind : Kind} {v : Int} {c : Nat} (hv : Carries kind v) (hc : (c : Int) = lowerEdge kind v) :
    quantize kind c = v ∧ c ≤ 1000 := by
  cases kind with
  | unused | reg | sel | imm | addr | pos =>
    simp only [Carries, lowerEdge, quantize, Config.regDiv, Config.immBias] at *
    omega

/-- No channel value lies below the lower edge of its bin. -/
theorem lowerEdge_quantize_le (kind : Kind) (c : Nat) : lowerEdge kind (quantize kind c) ≤ c := by
  cases kind with
  | unused | reg | sel | imm | addr | pos =>
    simp only [lowerEdge, quantize, Config.regDiv, Config.immBias]
    omega

/-- Exactly the values in range are accepted. -/
theorem exists_dequantize_iff {kind : Kind} {v : Int} : (∃ c, dequantize kind [0, 1] v = some c) ↔ Carries kind v := by
  simp only [dequantize_eq_some, exists_and_left, and_iff_left_iff_imp]
  intro hv
  exact ⟨(lowerEdge kind v).toNat, Int.toNat_of_nonneg (lowerEdge_nonneg hv)⟩

theorem quantize_of_dequantize {kind : Kind} {v : Int} {c : Nat} (h : dequantize kind [0, 1] v = some c) :
    quantize kind c = v ∧ c ≤ 1000 :=
  quantize_lowerEdge (dequantize_eq_some.1 h).1 (dequantize_eq_some.1 h).2

/-- Settles O50: a canonical channel value is recovered because two values that it is the edge of are equal. -/
theorem quantizationRoundTrips : Obligations.QuantizationRoundTrips := by
  intro kind v c h
  refine ⟨(quantize_of_dequantize h).1, fun c' hc' => ⟨?_, ?_, ?_⟩⟩
  · have hedge := lowerEdge_quantize_le kind c'
    rw [hc', ← (dequantize_eq_some.1 h).2] at hedge
    exact Int.ofNat_le.1 hedge
  · rintro rfl
    exact ⟨v, h⟩
  · rintro ⟨u, hu⟩
    obtain rfl : u = v := (quantize_of_dequantize hu).1.symm.trans hc'
    exact Option.some.inj (h.symm.trans hu)

end Sys2Proof.Machine
end

section
/-! SUPPORT. The pixel words (spec/30_encoding.md R60): the components of a packed HSV word, and the conversion from RGB
(spec/40_registry_decoder.md R98, R99). -/

namespace Sys2Proof.Machine

/-! ### The components of a packed pixel -/

@[simp] theorem hueOf_hsvWord (h s v : Nat) : hueOf (hsvWord h s v) = BitVec.ofNat 12 h := by
  ext i hi
  simp only [hueOf, hsvWord, BitVec.getElem_extractLsb', BitVec.getLsbD_append]
  simp [show ¬ 20 + i < 10 by omega, show ¬ 20 + i - 10 < 10 by omega, show 20 + i - 10 - 10 = i by omega, hi]

@[simp] theorem satOf_hsvWord (h s v : Nat) : satOf (hsvWord h s v) = BitVec.ofNat 10 s := by
  ext i hi
  simp only [satOf, hsvWord, BitVec.getElem_extractLsb', BitVec.getLsbD_append]
  simp [show ¬ 10 + i < 10 by omega, hi]

@[simp] theorem valOf_hsvWord (h s v : Nat) : valOf (hsvWord h s v) = BitVec.ofNat 10 v := by
  ext i hi
  simp only [valOf, hsvWord, BitVec.getElem_extractLsb', BitVec.getLsbD_append]
  simp [hi]

/-- Components in range fit their fields. -/
theorem hsvWord_components {h s v : Nat} (hh : h ≤ 3599) (hs : s ≤ 1000) (hv : v ≤ 1000) :
    (hueOf (hsvWord h s v)).toNat = h ∧ (satOf (hsvWord h s v)).toNat = s ∧ (valOf (hsvWord h s v)).toNat = v := by
  simp only [hueOf_hsvWord, satOf_hsvWord, valOf_hsvWord, BitVec.toNat_ofNat]
  omega

/-- Components in range pass the colour range check (R100). -/
theorem colorRangeError_hsvWord {h s v : Nat} (hh : h ≤ 3599) (hs : s ≤ 1000) (hv : v ≤ 1000) :
    colorRangeError (hsvWord h s v) = none := by
  obtain ⟨eh, es, ev⟩ := hsvWord_components hh hs hv
  rw [colorRangeError, eh, es, ev, if_neg (Nat.not_lt.2 hh), if_neg (Nat.not_lt.2 hs), if_neg (Nat.not_lt.2 hv)]

/-! ### From RGB -/

/-- A channel difference scaled by the largest one, `d`, turns the hue by at most a sixth of the circle. -/
theorem sixth_bounds {a d : Int} (hd : 0 < d) (hlo : -d ≤ a) (hhi : a ≤ d) :
    -600 ≤ 600 * a / d ∧ 600 * a / d ≤ 600 :=
  ⟨Int.le_ediv_of_mul_le hd (by omega), Int.ediv_le_of_le_mul hd (by omega)⟩

/-- The hue lies in its sector: red's around 0, green's around 1200, blue's around 2400. -/
theorem hueOfRgb_bounds (r g b : Nat) : 0 ≤ hueOfRgb r g b ∧ hueOfRgb r g b ≤ 3599 := by
  unfold hueOfRgb
  extract_lets m d
  by_cases hd : d = 0
  · simp [hd]
  have hpos : 0 < d := by omega
  rw [if_neg hd]
  by_cases hr : m = r
  · have hsixth := sixth_bounds hpos (a := (g : Int) - b) (by omega) (by omega)
    rw [if_pos hr]
    split <;> omega
  by_cases hg : m = g
  · have hsixth := sixth_bounds hpos (a := (b : Int) - r) (by omega) (by omega)
    rw [if_neg hr, if_pos hg]
    omega
  · have hsixth := sixth_bounds hpos (a := (r : Int) - g) (by omega) (by omega)
    rw [if_neg hr, if_neg hg]
    omega

theorem satOfRgb_le (r g b : Nat) : satOfRgb r g b ≤ 1000 := by
  unfold satOfRgb
  split
  · exact Nat.zero_le _
  · exact Nat.div_le_of_le_mul (by rw [Nat.mul_comm]; exact Nat.mul_le_mul_right _ (Nat.sub_le _ _))

theorem valOfRgb_le {r g b : Nat} (hr : r < 256) (hg : g < 256) (hb : b < 256) : valOfRgb r g b ≤ 1000 := by
  unfold valOfRgb
  omega

/-- Equal channels have no hue and no saturation (R99). -/
theorem hueOfRgb_grey (c : Nat) : hueOfRgb c c c = 0 := by simp [hueOfRgb]

theorem satOfRgb_grey (c : Nat) : satOfRgb c c c = 0 := by simp [satOfRgb]

/-- Settles O52: the three components lie in their ranges. -/
theorem rgbConversionStaysInRange : Obligations.RgbConversionStaysInRange := by
  intro p
  constructor
  · have hhue := hueOfRgb_bounds (redOf p).toNat (greenOf p).toNat (blueOf p).toNat
    exact colorRangeError_hsvWord (by omega) (satOfRgb_le _ _ _)
      (valOfRgb_le (redOf p).isLt (greenOf p).isLt (blueOf p).isLt)
  · intro hrg hgb
    rw [rgbToHsv, hrg, hgb, hueOf_hsvWord, satOf_hsvWord, hueOfRgb_grey, satOfRgb_grey]
    exact ⟨rfl, rfl⟩

end Sys2Proof.Machine
end

section
/-! SUPPORT. A grid is decoded and a program encoded element by element (spec/40_registry_decoder.md R109, R111, R113): the
walk both have in common, when it succeeds and what it fails with, and from that what a decode command does. -/

namespace Sys2Proof.Machine

/-! ### Walking a list with its index -/

section
variable {α β γ ε : Type}

/-- `f` of each element and its index, the first one's index being `i`; the first failure ends the walk. -/
def walk (f : Nat → α → Except ε β) (i : Nat) : List α → Except ε (List β)
  | [] => .ok []
  | a :: as => (f i a).bind fun b => (walk f (i + 1) as).map fun bs => b :: bs

theorem walk_cons_eq_ok {f : Nat → α → Except ε β} {i : Nat} {a : α} {as : List α} {bs : List β} :
    walk f i (a :: as) = .ok bs ↔ ∃ b bs', bs = b :: bs' ∧ f i a = .ok b ∧ walk f (i + 1) as = .ok bs' := by
  rw [walk]
  cases f i a with
  | error e => simp [Except.bind]
  | ok b => cases walk f (i + 1) as <;> simp [Except.bind, Except.map, eq_comm]

theorem walk_cons_eq_error {f : Nat → α → Except ε β} {i : Nat} {a : α} {as : List α} {e : ε} :
    walk f i (a :: as) = .error e ↔ f i a = .error e ∨ ∃ b, f i a = .ok b ∧ walk f (i + 1) as = .error e := by
  rw [walk]
  cases f i a with
  | error e' => simp [Except.bind]
  | ok b => cases walk f (i + 1) as <;> simp [Except.bind, Except.map]

/-- A walk succeeds exactly when `f` does on every element, and gives what `f` gives. -/
theorem walk_eq_ok {f : Nat → α → Except ε β} {i : Nat} {as : List α} {bs : List β} :
    walk f i as = .ok bs ↔ as.mapIdx (fun j a => f (i + j) a) = bs.map .ok := by
  induction as generalizing i bs with
  | nil => simp [walk, eq_comm]
  | cons a as ih =>
    have shift (j : Nat) : i + 1 + j = i + (j + 1) := by omega
    simp only [walk_cons_eq_ok, ih, shift, List.mapIdx_cons, Nat.add_zero]
    constructor
    · rintro ⟨b, bs', rfl, hb, hbs⟩
      rw [hb, hbs, List.map_cons]
    · intro h
      obtain ⟨b, bs', rfl, hb, hbs⟩ := List.map_eq_cons_iff.1 h.symm
      exact ⟨b, bs', rfl, hb.symm, hbs.symm⟩

/-- A walk over two lists, one after the other. -/
theorem walk_append {f : Nat → α → Except ε β} {i : Nat} {as as' : List α} :
    walk f i (as ++ as') = (walk f i as).bind fun bs => (walk f (i + as.length) as').map fun bs' => bs ++ bs' := by
  induction as generalizing i with
  | nil => cases h : walk f i as' <;> simp [walk, h, Except.bind, Except.map]
  | cons a as ih =>
    rw [List.cons_append, walk, walk, ih, List.length_cons, Nat.add_right_comm, Nat.add_assoc]
    cases f i a with
    | error e => rfl
    | ok b =>
      cases walk f (i + 1) as with
      | error e => rfl
      | ok bs => cases walk f (i + (as.length + 1)) as' <;> rfl

/-- A walk over copies of an element that gives the same at every index. -/
theorem walk_replicate {f : Nat → α → Except ε β} {a : α} {b : β} (i n : Nat) (h : ∀ j, f j a = .ok b) :
    walk f i (List.replicate n a) = .ok (List.replicate n b) := by
  induction n generalizing i with
  | zero => rfl
  | succ n ih => exact walk_cons_eq_ok.2 ⟨b, _, rfl, h i, ih (i + 1)⟩

theorem walk_length {f : Nat → α → Except ε β} {i : Nat} {as : List α} {bs : List β} (h : walk f i as = .ok bs) :
    bs.length = as.length := by
  simpa using (congrArg List.length (walk_eq_ok.1 h)).symm

/-- Each result of a walk is what `f` gives for some element. -/
theorem walk_result_mem {f : Nat → α → Except ε β} {i : Nat} {as : List α} {bs : List β} (h : walk f i as = .ok bs)
    {b : β} (hb : b ∈ bs) : ∃ a j, a ∈ as ∧ f j a = .ok b := by
  have hmem : .ok b ∈ as.mapIdx fun j a => f (i + j) a := walk_eq_ok.1 h ▸ List.mem_map_of_mem hb
  obtain ⟨j, hj, hjb⟩ := List.mem_mapIdx.1 hmem
  exact ⟨as[j], i + j, List.getElem_mem hj, hjb⟩

/-- Where success does not depend on the index, a walk succeeds exactly when every element does. -/
theorem exists_walk_iff {f : Nat → α → Except ε β} {P : α → Prop} (hP : ∀ j a, (∃ b, f j a = .ok b) ↔ P a) {i : Nat}
    {as : List α} : (∃ bs, walk f i as = .ok bs) ↔ ∀ a ∈ as, P a := by
  induction as generalizing i with
  | nil => exact iff_of_true ⟨[], rfl⟩ nofun
  | cons a as ih =>
    rw [List.forall_mem_cons, ← hP i a, ← ih (i := i + 1)]
    simp only [walk_cons_eq_ok]
    constructor
    · rintro ⟨_, b, bs, -, hb, hbs⟩
      exact ⟨⟨b, hb⟩, bs, hbs⟩
    · rintro ⟨⟨b, hb⟩, bs, hbs⟩
      exact ⟨_, b, bs, rfl, hb, hbs⟩

/-- Where `g` makes `r` of each result of `f`, walking the results of a walk gives `r` of every element. -/
theorem walk_of_walk {f : Nat → α → Except ε β} {g : Nat → β → Except ε γ} {r : Nat → α → γ}
    (hg : ∀ j a b, f j a = .ok b → g j b = .ok (r j a)) {i : Nat} {as : List α} {bs : List β}
    (h : walk f i as = .ok bs) : walk g i bs = .ok (as.mapIdx fun j => r (i + j)) := by
  induction as generalizing i bs with
  | nil => cases h; rfl
  | cons a as ih =>
    obtain ⟨b, bs, rfl, hb, hbs⟩ := walk_cons_eq_ok.1 h
    have shift (j : Nat) : i + 1 + j = i + (j + 1) := by omega
    have hrest := ih hbs
    simp only [shift] at hrest
    rw [List.mapIdx_cons]
    exact walk_cons_eq_ok.2 ⟨_, _, rfl, hg i a b hb, hrest⟩

/-- A walk fails with the error of the first element that fails. -/
theorem walk_eq_error {f : Nat → α → Except ε β} {i : Nat} {as : List α} {e : ε} :
    walk f i as = .error e ↔
      ∃ (j : Nat) (a : α), as[j]? = some a ∧ f (i + j) a = .error e ∧
        ∀ (k : Nat) (b : α), k < j → as[k]? = some b → ∃ c, f (i + k) b = .ok c := by
  induction as generalizing i with
  | nil => simp [walk]
  | cons a as ih =>
    have shift (j : Nat) : i + 1 + j = i + (j + 1) := by omega
    simp only [walk_cons_eq_error, ih, shift]
    constructor
    · rintro (ha | ⟨c, ha, j, x, hx, hfail, hbefore⟩)
      · exact ⟨0, a, rfl, ha, fun k _ hk => absurd hk k.not_lt_zero⟩
      · refine ⟨j + 1, x, hx, hfail, fun k y hk hy => ?_⟩
        cases k with
        | zero => exact Option.some.inj hy ▸ ⟨c, ha⟩
        | succ k => exact hbefore k y (Nat.lt_of_succ_lt_succ hk) hy
    · rintro ⟨j, x, hx, hfail, hbefore⟩
      cases j with
      | zero => exact .inl (Option.some.inj hx ▸ hfail)
      | succ j =>
        obtain ⟨c, hc⟩ := hbefore 0 a j.succ_pos rfl
        exact .inr ⟨c, hc, j, x, hx, hfail, fun k y hk => hbefore (k + 1) y (Nat.succ_lt_succ hk)⟩

end

theorem decodePixels_eq_walk (fmt : PixelFormat) (w i : Nat) (px : List Word) :
    decodePixels fmt w i px = walk (fun j p => decodeHsvPixel w j (toHsv fmt p)) i px := by
  induction px generalizing i with
  | nil => rfl
  | cons p px ih =>
    rw [decodePixels, walk, ih]
    cases decodeHsvPixel w i (toHsv fmt p) with
    | error e => rfl
    | ok iw => cases walk (fun j p => decodeHsvPixel w j (toHsv fmt p)) (i + 1) px <;> rfl

theorem encodePixels_eq_walk (w i : Nat) (ins : List IWord) : encodePixels w i ins = walk (encodePixel w) i ins := by
  induction ins generalizing i with
  | nil => rfl
  | cons iw ins ih =>
    rw [encodePixels, walk, ih]
    cases encodePixel w i iw with
    | error e => rfl
    | ok p => cases walk (encodePixel w) (i + 1) ins <;> rfl

/-! ### A decode over pixels -/

/-- A grid of legal dimensions with the right number of pixels is decoded pixel by pixel. -/
theorem decodeGrid_legal {w h : Nat} {px : List Word} (hw : 0 < w) (hw' : w ≤ 1024) (hh : 0 < h) (hh' : h ≤ 1024)
    (hpx : px.length = w * h) (fmt : PixelFormat) : decodeGrid fmt w h px = decodePixels fmt w 0 px := by
  rw [decodeGrid, if_neg (not_or.2 ⟨hw.ne', Nat.not_lt.2 hw'⟩), if_neg (not_or.2 ⟨hh.ne', Nat.not_lt.2 hh'⟩),
    if_neg (not_not.2 hpx)]

/-- What decodes is a grid of legal dimensions with the right number of pixels. -/
theorem decodeGrid_ok {fmt : PixelFormat} {w h : Nat} {px : List Word} {words : List IWord}
    (hd : decodeGrid fmt w h px = .ok words) : w ≤ 1024 ∧ h ≤ 1024 ∧ words.length = w * h := by
  unfold decodeGrid at hd
  split at hd
  · cases hd
  split at hd
  · cases hd
  split at hd
  · cases hd
  · rename_i hw hh hpx
    rw [decodePixels_length hd]
    exact ⟨Nat.not_lt.1 (not_or.1 hw).2, Nat.not_lt.1 (not_or.1 hh).2, not_not.1 hpx⟩

/-- Settles O53: a decode is a walk over the pixels. -/
theorem decodeReportsTheFirstFailingPixel : Obligations.DecodeReportsTheFirstFailingPixel := by
  intro fmt w h px e hw hw' hh hh' hpx
  rw [decodeGrid_legal hw hw' hh hh' hpx, decodePixels_eq_walk, walk_eq_error]
  simp only [Nat.zero_add]

/-! ### The decode command -/

theorem VmSame.vmKept {s t : State} (h : VmSame s t) : VmKept s t :=
  ⟨h.x, h.mem, h.pc, h.sp, fun n _ => h.entry n, h.cycles, h.out, h.dbg, h.inIdx⟩

theorem VmKept.trans {s t u : State} (h : VmKept s t) (h' : VmKept t u) : VmKept s u := by
  obtain ⟨hx, hmem, hpc, hsp, hcs, hcycles, hout, hdbg, hinIdx⟩ := h
  obtain ⟨hx', hmem', hpc', hsp', hcs', hcycles', hout', hdbg', hinIdx'⟩ := h'
  exact ⟨hx'.trans hx, hmem'.trans hmem, hpc'.trans hpc, hsp'.trans hsp,
    fun n hn => (hcs' n (hsp ▸ hn)).trans (hcs n hn), hcycles'.trans hcycles, hout'.trans hout, hdbg'.trans hdbg,
    hinIdx'.trans hinIdx⟩

section
variable {s : State} {fmt : PixelFormat} {w h : Word} {px : List Word} {rest : List HostCommand}

/-- Outside Running and with no call in progress, a decode command is carried out in one step. -/
theorem step_decode (hcall : s.call = none) (hcmds : s.cmds = .decode fmt w h px :: rest) (hs : s.state ≠ .running) :
    step s = .next (decodeCall fmt w h px { s with cmds := rest }) :=
  (step_hostCommand hcall hcmds).trans (unlessRunning_ok hs)

theorem step_decode_ok {words : List IWord} (hcall : s.call = none) (hcmds : s.cmds = .decode fmt w h px :: rest)
    (hs : s.state ≠ .running) (hwords : decodeGrid fmt w.toNat h.toNat px = .ok words) :
    step s = .next (publishProgram (decRecord (.decode fmt w h px) none) w h words { s with cmds := rest }) := by
  rw [step_decode hcall hcmds hs]
  simp only [decodeCall, hwords]

theorem step_decode_error {e : DecError} (hcall : s.call = none) (hcmds : s.cmds = .decode fmt w h px :: rest)
    (hs : s.state ≠ .running) (herr : decodeGrid fmt w.toNat h.toNat px = .error e) :
    step s = .next (failDecode (decRecord (.decode fmt w h px) (some e)) { s with cmds := rest }) := by
  rw [step_decode hcall hcmds hs]
  simp only [decodeCall, herr]

end

/-- The state in which a run call from Ready on a store without a program returns (R131), `later` being the commands
still to come. -/
def refusedRun (later : List HostCommand) (t : State) : State :=
  { t with
    cmds := later
    call := none
    fault := faultRecord none .invalidProgram 0 0
    state := .faulted
    reply := some (.runStatus .faulted) }

/-- A run call from Ready on a store without a program: one step takes the command, one refuses the header. -/
theorem run_without_program {t : State} {b : Budget} {later : List HostCommand} (hcall : t.call = none)
    (hcmds : t.cmds = .run b :: later) (ht : t.state = .ready) (htag : t.hdr.tag = 0) :
    Host.Core.run Sys2Proof.core 2 t = .next (refusedRun later t) := by
  have htake : step t = .next { t with cmds := later, call := some { left := b } } := step_hostCommand hcall hcmds
  have hrefuse : step { t with cmds := later, call := some { left := b } } = .next (refusedRun later t) := by
    simp [step, machineStep, runTurn, ht, startRun, headerAccepted, htag, returnStatus, refusedRun]
  simp only [Host.Core.run, Sys2Proof.core, htake, hrefuse]

theorem refusedRun_vmKept (later : List HostCommand) (t : State) : VmKept t (refusedRun later t) :=
  ⟨rfl, rfl, rfl, rfl, fun _ _ => rfl, rfl, rfl, rfl, rfl⟩

/-- Settles O54. -/
theorem aFailedDecodeLeavesNoProgram : Obligations.AFailedDecodeLeavesNoProgram := by
  intro s fmt w h px e rest hcall hcmds hs herr
  have hkept : VmKept s (failDecode (decRecord (.decode fmt w h px) (some e)) { s with cmds := rest }) :=
    VmSame.vmKept {}
  refine ⟨_, _, step_decode_error hcall hcmds hs herr, rfl, rfl, decRecord_error_code _ e, decRecord_error_detail _ e,
    decRecord_noPos _, fun _ => decRecord_atPos _, hkept, rfl, rfl, ⟨rfl, rfl⟩, ?_⟩
  intro b later hrest hready
  exact ⟨_, run_without_program hcall hrest hready rfl, rfl, rfl, auxWord_word 0, hkept.trans (refusedRun_vmKept _ _),
    rfl, rfl⟩

/-- Words listed from index `i` on are read back at their indices, whatever the store lists after them. -/
theorem sparseGet?_listedFrom_append (i : Nat) {j : Nat} {words : List IWord} (tail : Sparse IWord)
    (hj : j < words.length) : sparseGet? (listedFrom i words ++ tail) (i + j) = words[j]? := by
  induction words generalizing i j with
  | nil => exact absurd hj j.not_lt_zero
  | cons w words ih =>
    cases j with
    | zero => simp [listedFrom, sparseGet?]
    | succ j =>
      rw [listedFrom, List.cons_append, sparseGet?, if_neg (by simp), ← Nat.add_assoc, Nat.add_right_comm,
        ih (i + 1) (Nat.lt_of_succ_lt_succ hj), List.getElem?_cons_succ]

/-- A published program is read back word by word (R109). -/
theorem progRead_publishProgram (r : DecRecord) (w h : Word) {words : List IWord} (s : State) {i : Nat}
    (hi : i < words.length) : some (progRead (publishProgram r w h words s) i) = words[i]? := by
  have hget : sparseGet? (publishProgram r w h words s).prog i = some words[i] := by
    have hlisted := sparseGet?_listedFrom_append 0 (s.prog.filter fun c => decide (words.length ≤ c.1)) hi
    rwa [Nat.zero_add, List.getElem?_eq_getElem hi] at hlisted
  rw [progRead, hget, List.getElem?_eq_getElem hi]

/-- Settles O55. -/
theorem aSuccessfulDecodePublishesTheProgram : Obligations.ASuccessfulDecodePublishesTheProgram := by
  intro s fmt w h px words rest hcall hcmds hs hwords
  obtain ⟨hw, hh, hlen⟩ := decodeGrid_ok hwords
  have harea : w.toNat * h.toNat < 2 ^ 32 := (Nat.mul_le_mul hw hh).trans_lt (by norm_num)
  have hlength : (BitVec.ofNat 32 (w.toNat * h.toNat)).toNat = w.toNat * h.toNat := by
    rw [BitVec.toNat_ofNat, Nat.mod_eq_of_lt harea]
  exact ⟨_, _, step_decode_ok hcall hcmds hs hwords, rfl, rfl, rfl, hlength,
    fun i hi => progRead_publishProgram _ w h _ hi, hlen, rfl, rfl, rfl, rfl, VmSame.vmKept {}, rfl, rfl, rfl, rfl⟩

end Sys2Proof.Machine
end

section
/-! SUPPORT. The encoder (spec/40_registry_decoder.md R106, R112 to R115): which words a pixel can carry, what the canonical
pixel decodes to, and the padded grid as the pixels of a program padded with NOP. -/

namespace Sys2Proof.Machine

/-! ### The Registry's rows -/

theorem registryAgrees (i : Instr) : Laws.RegistryAgrees.Statement i := by
  cases i <;> exact ⟨rfl, rfl⟩

theorem registryRow_of_ge {k : Nat} (hk : 36 ≤ k) : registryRow k = reservedRow .ext := List.getD_eq_default _ _ hk

/-- The slots that the Registry assigns are the opcodes of the instructions (R67). -/
theorem registryRow_assigned_iff {k : Nat} : (registryRow k).assigned = true ↔ k ≤ 35 ∧ k ∉ reservedOpcodes := by
  have hslots : ∀ k < 36, (registryRow k).assigned = true ↔ k ≤ 35 ∧ k ∉ reservedOpcodes := by decide
  rcases Nat.lt_or_ge k 36 with hk | hk
  · exact hslots k hk
  · rw [registryRow_of_ge hk]
    exact iff_of_false Bool.false_ne_true fun h => absurd h.1 (Nat.not_le.2 hk)

/-- Where an operand is a selector, its legal set is 0 and 1 (R90). -/
theorem registryRow_legalSel {k : Nat} (h : (registryRow k).kind1 = .sel ∨ (registryRow k).kind2 = .sel) :
    (registryRow k).legalSel = [0, 1] := by
  have hslots : ∀ k < 36, (registryRow k).kind1 = .sel ∨ (registryRow k).kind2 = .sel →
      (registryRow k).legalSel = [0, 1] := by decide
  rcases Nat.lt_or_ge k 36 with hk | hk
  · exact hslots k hk h
  · simp [registryRow_of_ge hk, reservedRow] at h

/-- The legal set matters for a selector only. -/
theorem dequantize_legalSel {kind : Kind} {legal : List Int} (h : kind = .sel → legal = [0, 1]) :
    dequantize kind legal = dequantize kind [0, 1] := by
  cases kind with
  | sel => rw [h rfl]
  | unused | reg | imm | addr | pos => rfl

theorem carries_sel {v : Int} : Carries .sel v ↔ v ∈ [0, 1] := by simp [Carries]

/-- Operands that quantize to values in range are accepted (R93). -/
theorem quantizeOperand_ok {k s10 v10 : Nat} (h1 : Carries (registryRow k).kind1 (quantize (registryRow k).kind1 s10))
    (h2 : Carries (registryRow k).kind2 (quantize (registryRow k).kind2 v10)) :
    quantizeOperand k s10 v10 = .ok (quantize (registryRow k).kind1 s10, quantize (registryRow k).kind2 v10) := by
  rw [quantizeOperand, if_neg, if_neg]
  · rintro ⟨hsel, hout⟩
    rw [registryRow_legalSel (.inr hsel)] at hout
    exact hout (carries_sel.1 (hsel ▸ h2))
  · rintro ⟨hsel, hout⟩
    rw [registryRow_legalSel (.inl hsel)] at hout
    exact hout (carries_sel.1 (hsel ▸ h1))

/-! ### One pixel -/

/-- An instruction word with the position of index `i` in a grid of width `w` (R110). -/
def restamped (w i : Nat) (iw : IWord) : IWord :=
  packWord (opcodeField iw).toNat (op1Field iw) (op2Field iw) (posOfIndex w i)

/-- What the encoder accepts of an instruction word, and the canonical pixel it gives (R75, R113). -/
theorem encodePixel_eq_ok {w i : Nat} {iw : IWord} {p : Word} :
    encodePixel w i iw = .ok p ↔
      (registryRow (opcodeField iw).toNat).assigned = true ∧
        ∃ c1 c2, dequantize (registryRow (opcodeField iw).toNat).kind1 [0, 1] (op1Field iw).toInt = some c1 ∧
          dequantize (registryRow (opcodeField iw).toNat).kind2 [0, 1] (op2Field iw).toInt = some c2 ∧
          hsvWord (100 * (opcodeField iw).toNat) c1 c2 = p := by
  rw [encodePixel, dequantize_legalSel fun h => registryRow_legalSel (.inl h),
    dequantize_legalSel fun h => registryRow_legalSel (.inr h)]
  cases (registryRow (opcodeField iw).toNat).assigned with
  | false => simp
  | true =>
    cases dequantize (registryRow (opcodeField iw).toNat).kind1 [0, 1] (op1Field iw).toInt with
    | none => simp
    | some c1 => cases dequantize (registryRow (opcodeField iw).toNat).kind2 [0, 1] (op2Field iw).toInt <;> simp

/-- The canonical pixel decodes to the word it was made from, at its own index (R107, R115). -/
theorem decodeHsvPixel_of_encodePixel {w i : Nat} {iw : IWord} {p : Word} (h : encodePixel w i iw = .ok p) :
    decodeHsvPixel w i p = .ok (restamped w i iw) := by
  obtain ⟨hassigned, c1, c2, h1, h2, rfl⟩ := encodePixel_eq_ok.1 h
  obtain ⟨hk, -⟩ := registryRow_assigned_iff.1 hassigned
  obtain ⟨hq1, hc1⟩ := quantize_of_dequantize h1
  obtain ⟨hq2, hc2⟩ := quantize_of_dequantize h2
  have hhue : 100 * (opcodeField iw).toNat ≤ 3599 := by omega
  obtain ⟨ehue, esat, eval⟩ := hsvWord_components hhue hc1 hc2
  have hslot : hueSlot (100 * (opcodeField iw).toNat) = (opcodeField iw).toNat :=
    Nat.mul_div_cancel_left _ (by norm_num)
  have hselect : select (100 * (opcodeField iw).toNat) = .opcode (opcodeField iw).toNat := by
    rw [select, hslot, if_pos hassigned]
  have hops := quantizeOperand_ok (hq1.symm ▸ (dequantize_eq_some.1 h1).1) (hq2.symm ▸ (dequantize_eq_some.1 h2).1)
  simp only [decodeHsvPixel, colorRangeError_hsvWord hhue hc1 hc2, ehue, esat, eval, hselect, hops, hq1, hq2]
  simp only [stampedWord, BitVec.ofInt_toInt, restamped]

/-- What the encoder accepts is the word of an instruction. -/
theorem encodePixel_instr {w i : Nat} {iw : IWord} {p : Word} (h : encodePixel w i iw = .ok p) :
    ∃ instr, encode instr = iw := by
  obtain ⟨hassigned, -⟩ := encodePixel_eq_ok.1 h
  obtain ⟨hk, hres⟩ := registryRow_assigned_iff.1 hassigned
  rcases decode_cases iw with ⟨-, -, instr, hi⟩ | ⟨hmem, -⟩ | ⟨hgt, -⟩
  · exact ⟨instr, encodeOfDecodeIsTheWord iw instr hi⟩
  · exact absurd hmem hres
  · omega

theorem encodable_iff (kind : Kind) (op : Operand) : kind.encodable op = true ↔ Carries kind op.toInt := by
  cases kind with
  | unused | reg | sel | imm | addr | pos => simp only [Kind.encodable, Carries, decide_eq_true_eq]

/-- The instructions that a pixel can carry are those that encode (R113). -/
theorem exists_encodePixel_iff (w j : Nat) (i : Instr) :
    (∃ p, encodePixel w j (encode i) = .ok p) ↔ i.pixelEncodable = true := by
  obtain ⟨hassigned, hkinds⟩ := registryAgrees i
  obtain ⟨hkind1, hkind2⟩ := Prod.ext_iff.1 hkinds
  rw [Instr.pixelEncodable, Bool.and_eq_true, encodable_iff, encodable_iff, ← hkind1, ← hkind2, ← exists_dequantize_iff,
    ← exists_dequantize_iff]
  simp only [encodePixel_eq_ok, opcodeField_encode_toNat, op1Field_encode, op2Field_encode, hassigned, true_and]
  constructor
  · rintro ⟨p, c1, c2, h1, h2, -⟩
    exact ⟨⟨c1, h1⟩, c2, h2⟩
  · rintro ⟨⟨c1, h1⟩, c2, h2⟩
    exact ⟨_, c1, c2, h1, h2, rfl⟩

/-! ### The padded grid -/

/-- The instruction words of a whole grid of width `w`: the list, then NOP (R114). -/
def padded (ins : List IWord) (w : Nat) : List IWord :=
  ins ++ List.replicate (w * gridHeight ins.length w - ins.length) (encode (.nop 0 0 ⟨0, 0⟩))

theorem length_le_mul_gridHeight (n : Nat) {w : Nat} (hw : 0 < w) : n ≤ w * gridHeight n w := by
  have hdiv := Nat.div_add_mod (n + w - 1) w
  have hmod := Nat.mod_lt (n + w - 1) hw
  unfold gridHeight
  omega

theorem gridHeight_pos {n w : Nat} (hw : 0 < w) (hn : 0 < n) : 0 < gridHeight n w :=
  Nat.div_pos (by omega) hw

theorem padded_length (ins : List IWord) {w : Nat} (hw : 0 < w) :
    (padded ins w).length = w * gridHeight ins.length w := by
  have hle := length_le_mul_gridHeight ins.length hw
  rw [padded, List.length_append, List.length_replicate]
  omega

/-- The padding pixel is the canonical one of NOP (R75). -/
theorem encodePixel_nop (w i : Nat) (pos : Pos) : encodePixel w i (encode (.nop 0 0 pos)) = .ok paddingPixel := by
  rw [encodePixel_eq_ok, opcodeField_encode_toNat, op1Field_encode, op2Field_encode]
  have hblack : hsvWord (100 * 0) 0 0 = paddingPixel := by decide
  exact ⟨rfl, 0, 0, rfl, rfl, hblack⟩

/-- The padded program encodes to the program's pixels, then padding pixels. -/
theorem encodePixels_padded (ins : List IWord) (w : Nat) :
    encodePixels w 0 (padded ins w) = (encodePixels w 0 ins).map fun px =>
      px ++ List.replicate (w * gridHeight ins.length w - ins.length) paddingPixel := by
  rw [encodePixels_eq_walk, encodePixels_eq_walk, padded, walk_append,
    walk_replicate _ _ fun j => encodePixel_nop w j ⟨0, 0⟩]
  rfl

/-- When `encode` succeeds (R113), and with what: the pixels of the padded program. -/
theorem encodeGrid_eq_ok {ins : List IWord} {w h : Nat} {grid : List Word} :
    encodeGrid ins w = .ok (h, grid) ↔
      0 < w ∧ w ≤ 1024 ∧ ins ≠ [] ∧ gridHeight ins.length w ≤ 1024 ∧ h = gridHeight ins.length w ∧
        encodePixels w 0 (padded ins w) = .ok grid := by
  rw [encodePixels_padded, encodeGrid]
  by_cases hw : w = 0 ∨ 1024 < w
  · rw [if_pos hw]
    exact iff_of_false nofun fun ⟨hpos, hle, _⟩ => hw.elim hpos.ne' (Nat.not_lt.2 hle)
  by_cases hins : ins.length = 0
  · rw [if_neg hw, if_pos hins]
    exact iff_of_false nofun fun ⟨_, _, hne, _⟩ => hne (List.length_eq_zero_iff.1 hins)
  by_cases hh : 1024 < gridHeight ins.length w
  · rw [if_neg hw, if_neg hins, if_pos hh]
    exact iff_of_false nofun fun ⟨_, _, _, hle, _⟩ => absurd hh (Nat.not_lt.2 hle)
  rw [if_neg hw, if_neg hins, if_neg hh]
  have hne : ins ≠ [] := mt List.length_eq_zero_iff.2 hins
  obtain ⟨hpos, hle⟩ := not_or.1 hw
  cases encodePixels w 0 ins with
  | error e => simp [Except.map]
  | ok px => simp [Except.map, Nat.pos_of_ne_zero hpos, Nat.not_lt.1 hle, hne, Nat.not_lt.1 hh, eq_comm]

/-- All that decoding an encoded grid gives (R115): the words of the padded program, each with the position of its index. -/
theorem decodeGrid_of_encodeGrid {ins : List IWord} {w h : Nat} {grid : List Word}
    (he : encodeGrid ins w = .ok (h, grid)) :
    decodeGrid .hsv w h grid = .ok ((padded ins w).mapIdx (restamped w)) := by
  obtain ⟨hw, hw', hne, hh, rfl, hpx⟩ := encodeGrid_eq_ok.1 he
  rw [encodePixels_eq_walk] at hpx
  have hlen : grid.length = w * gridHeight ins.length w := (walk_length hpx).trans (padded_length ins hw)
  rw [decodeGrid_legal hw hw' (gridHeight_pos hw (List.length_pos_iff.2 hne)) hh hlen, decodePixels_eq_walk]
  simpa only [Nat.zero_add] using
    walk_of_walk (g := fun j p => decodeHsvPixel w j (toHsv .hsv p)) (fun _ _ _ => decodeHsvPixel_of_encodePixel) hpx

theorem padded_word {ins : List IWord} {w i : Nat} {iw : IWord} (hi : ins[i]? = some iw) :
    ((padded ins w).mapIdx (restamped w))[i]? = some (restamped w i iw) := by
  rw [List.getElem?_mapIdx, padded, List.getElem?_append_left (List.getElem?_eq_some_iff.1 hi).1, hi, Option.map_some]

theorem padded_nop {ins : List IWord} {w i : Nat} (hi : ins.length ≤ i) (hi' : i < w * gridHeight ins.length w) :
    ((padded ins w).mapIdx (restamped w))[i]? = some (encode (.nop 0 0 (posOfIndex w i))) := by
  rw [List.getElem?_mapIdx, padded, List.getElem?_append_right hi,
    List.getElem?_replicate_of_lt (Nat.sub_lt_sub_right hi hi'), Option.map_some, restamped, opcodeField_encode_toNat,
    op1Field_encode, op2Field_encode]
  rfl

theorem decodeCall_hdr {w h : Nat} {grid : List Word} {words : List IWord} (hw : w ≤ 1024) (hh : h ≤ 1024)
    (hd : decodeGrid .hsv w h grid = .ok words) (s : State) :
    (decodeCall .hsv (BitVec.ofNat 32 w) (BitVec.ofNat 32 h) grid s).hdr =
      { tag := 1, width := BitVec.ofNat 32 w, height := BitVec.ofNat 32 h, length := BitVec.ofNat 32 (w * h) } := by
  have hw32 : (BitVec.ofNat 32 w).toNat = w := by rw [BitVec.toNat_ofNat]; omega
  have hh32 : (BitVec.ofNat 32 h).toNat = h := by rw [BitVec.toNat_ofNat]; omega
  simp only [decodeCall, hw32, hh32, hd, publishProgram]

/-- Every pixel of an encoded grid is the canonical pixel of some instruction (R107, R115). -/
theorem encodeGrid_canonical {ins : List IWord} {w h : Nat} {grid : List Word}
    (he : encodeGrid ins w = .ok (h, grid)) {p : Word} (hp : p ∈ grid) : ∃ i j, encodePixel w j (encode i) = .ok p := by
  obtain ⟨-, -, -, -, -, hpx⟩ := encodeGrid_eq_ok.1 he
  rw [encodePixels_eq_walk] at hpx
  obtain ⟨iw, j, -, hpixel⟩ := walk_result_mem hpx hp
  obtain ⟨i, rfl⟩ := encodePixel_instr hpixel
  exact ⟨i, j, hpixel⟩

/-- Whether a word encodes does not depend on where it stands. -/
theorem exists_encodePixel_index (w j : Nat) (iw : IWord) :
    (∃ p, encodePixel w j iw = .ok p) ↔ ∃ p, encodePixel w 0 iw = .ok p := by
  simp only [encodePixel_eq_ok]

theorem exists_encodePixels_iff (prog : List Instr) (w : Nat) :
    (∃ px, encodePixels w 0 (prog.map encode) = .ok px) ↔ ∀ i ∈ prog, i.pixelEncodable = true := by
  rw [encodePixels_eq_walk, exists_walk_iff (exists_encodePixel_index w), List.forall_mem_map]
  simp only [exists_encodePixel_iff]

theorem exists_encodePixels_padded_iff (ins : List IWord) (w : Nat) :
    (∃ grid, encodePixels w 0 (padded ins w) = .ok grid) ↔ ∃ px, encodePixels w 0 ins = .ok px := by
  rw [encodePixels_padded]
  cases encodePixels w 0 ins <;> simp [Except.map]

/-- Exactly which lists of instructions encode (R113). -/
theorem exists_encodeGrid_iff (prog : List Instr) (w : Nat) :
    (∃ h grid, encodeGrid (prog.map encode) w = .ok (h, grid)) ↔
      0 < w ∧ w ≤ 1024 ∧ prog ≠ [] ∧ gridHeight prog.length w ≤ 1024 ∧ ∀ i ∈ prog, i.pixelEncodable = true := by
  simp only [encodeGrid_eq_ok, exists_and_left, exists_eq_left, exists_encodePixels_padded_iff,
    exists_encodePixels_iff, List.length_map, ne_eq, List.map_eq_nil_iff]

/-- Settles O56: an encoded grid holds the pixels of the padded program, and each is undone by the decode of a pixel. -/
theorem encodedGridsDecodeToTheProgram : Obligations.EncodedGridsDecodeToTheProgram := by
  refine ⟨fun ins w h grid he => ?_, fun w h grid ws _ he p hp => encodeGrid_canonical he hp, fun prog w => ?_⟩
  · obtain ⟨hw, hw', hne, hh, rfl, -⟩ := encodeGrid_eq_ok.1 he
    have hd := decodeGrid_of_encodeGrid he
    exact ⟨_, hd, (decodeGrid_ok hd).2.2, length_le_mul_gridHeight _ hw, decodeCall_hdr hw' hh hd,
      fun i iw => padded_word, fun i => padded_nop⟩
  · rw [← gridHeight]
    refine Iff.trans ⟨?_, ?_⟩ (exists_encodeGrid_iff prog w)
    · rintro ⟨h, grid, he, -⟩
      exact ⟨h, grid, he⟩
    · rintro ⟨h, grid, he⟩
      obtain ⟨-, -, -, -, hh, -⟩ := encodeGrid_eq_ok.1 he
      rw [List.length_map] at hh
      exact ⟨h, grid, he, hh⟩

end Sys2Proof.Machine
end

section
/-! SUPPORT. A run call in progress: its step in each run state (R131, R132, R136, R137), what the fetch and the dispatch of a
cycle answer (R133, R134), and the bound on the steps of a call with a budget (R132, R136). -/

namespace Sys2Proof.Machine

/-! ### The fault record's `aux` for unsigned values -/

/-- A word read as unsigned is kept bit by bit (log 14). -/
theorem auxWord_toNat (v : Word) : auxWord v.toNat = v := by
  rw [auxWord_fits (by omega) (by have := v.isLt; omega), BitVec.ofInt_natCast, BitVec.ofNat_toNat, BitVec.setWidth_eq]

theorem auxWord_opcode (k : BitVec 8) : auxWord k.toNat = k.setWidth 32 := by
  rw [auxWord_fits (by omega) (by have := k.isLt; omega), BitVec.ofInt_natCast, BitVec.ofNat_toNat]

/-! ### The cycle: fetch and dispatch -/

section
variable {s : State} {w : IWord}

theorem fetch_outside (hpc : s.hdr.length.toNat ≤ s.pc.toNat) : fetch s = none := if_pos hpc

theorem fetch_stored (hpc : s.pc.toNat < s.hdr.length.toNat) (hw : sparseGet? s.prog s.pc.toNat = some w) :
    fetch s = some w := by
  simp only [fetch, Nat.not_le.2 hpc, if_false, progRead, hw]

theorem vmCycle_unfetched (hf : fetch s = none) : vmCycle s = .next (enterFault none .pcOutOfRange s.pc.toNat s) := by
  simp only [vmCycle, hf]

theorem vmCycle_decoded {i : Instr} (hf : fetch s = some w) (hi : decode w = .ok i) : vmCycle s = exec i s := by
  simp only [vmCycle, hf, hi]

theorem vmCycle_rejected {e : DecodeError} (hf : fetch s = some w) (he : decode w = .error e) :
    vmCycle s = .next (enterFault (some w) .invalidOpcode (opcodeField w).toNat s) := by
  simp only [vmCycle, hf, he]

/-- A reserved or unassigned opcode is one the decoder has no instruction for (R71, R72). -/
theorem exists_decode_eq_error (h : 35 < (opcodeField w).toNat ∨ (opcodeField w).toNat ∈ reservedOpcodes) :
    ∃ e, decode w = .error e := by
  rcases decode_cases w with ⟨h35, hres, -⟩ | ⟨-, e⟩ | ⟨-, e⟩
  · exact absurd h (not_or.2 ⟨Nat.not_lt.2 h35, hres⟩)
  · exact ⟨_, e⟩
  · exact ⟨_, e⟩

end

/-- A cycle always answers a next state; it leaves the call alone and never goes back to Ready. -/
theorem vmCycle_next (s : State) : ∃ u, vmCycle s = .next u ∧ u.call = s.call ∧ (s.state ≠ .ready → u.state ≠ .ready) := by
  rcases vmCycle_cases s with ⟨_, _, _, e⟩ | ⟨i, -, -, e⟩
  · exact ⟨_, e, rfl, nofun⟩
  · obtain ⟨u, hu, ho⟩ := exec_outcome i s
    obtain ⟨-, -, -, -, -, -, hcall, -⟩ := ho.outside_same
    refine ⟨u, e.trans hu, hcall, fun hs => ?_⟩
    rcases ho.state_cases with h | h | ⟨h, -⟩
    · exact h ▸ hs
    · simp [h]
    · simp [h]

/-! ### The step of a call in progress -/

section
variable {s : State} {c : RunCall}

theorem step_runTurn (hcall : s.call = some c) : step s = runTurn c s := by
  show machineStep s = _
  simp only [machineStep, hcall]

theorem step_ready (hcall : s.call = some c) (hs : s.state = .ready) : step s = .next (startRun s) := by
  simp only [step_runTurn hcall, runTurn, hs]

theorem step_halted (hcall : s.call = some c) (hs : s.state = .halted) : step s = .next (returnStatus .halted s) := by
  simp only [step_runTurn hcall, runTurn, hs]

theorem step_faulted (hcall : s.call = some c) (hs : s.state = .faulted) : step s = .next (returnStatus .faulted s) := by
  simp only [step_runTurn hcall, runTurn, hs]

theorem step_usedUp (hcall : s.call = some { left := some 0 }) (hs : s.state = .running) :
    step s = .next (returnStatus .budgetExceeded s) := by
  simp only [step_runTurn hcall, runTurn, hs, if_true]

theorem step_cycle {b : Budget} (hcall : s.call = some { left := b }) (hs : s.state = .running) (hb : b ≠ some 0) :
    step s = mapNext countTurn (vmCycle s) := by
  simp only [step_runTurn hcall, runTurn, hs, hb, if_false]

end

/-- Settles O6. -/
theorem stepRunsTheDecodedInstruction : Obligations.StepRunsTheDecodedInstruction := by
  intro s b w i hcall hs hb hpc hw hi
  rw [step_cycle hcall hs hb, vmCycle_decoded (fetch_stored hpc hw) hi]

/-- Settles O7: the fetch has no word, so the record has none. -/
theorem fetchOutsideTheProgramFaults : Obligations.FetchOutsideTheProgramFaults := by
  intro s b hcall hs hb hpc
  rw [step_cycle hcall hs hb, vmCycle_unfetched (fetch_outside hpc)]
  simp only [mapNext, enterFault, faultRecord, Cause.code, auxWord_toNat]

/-- Settles O8: the fetch has a word, and the decoder has no instruction for it. -/
theorem unassignedOpcodeFaultsAtDispatch : Obligations.UnassignedOpcodeFaultsAtDispatch := by
  intro s b w hcall hs hb hpc hw hop
  obtain ⟨e, he⟩ := exists_decode_eq_error hop
  rw [step_cycle hcall hs hb, vmCycle_rejected (fetch_stored hpc hw) he]
  simp only [mapNext, enterFault, faultRecord, Cause.code, auxWord_opcode]

/-- Settles O9: the two branches of the header test. -/
theorem runStartsOnlyOnAnAcceptedHeader : Obligations.RunStartsOnlyOnAnAcceptedHeader := by
  intro s c hcall hs
  rw [step_ready hcall hs, ← headerAccepted_iff, startRun]
  constructor
  · intro hhdr
    rw [if_pos hhdr]
  · intro hhdr
    rw [if_neg hhdr]
    simp only [returnStatus, faultRecord, Cause.code, auxWord_word]

/-- Settles O10. -/
theorem usedUpBudgetEndsTheCallOnly : Obligations.UsedUpBudgetEndsTheCallOnly :=
  fun _ hcall hs => step_usedUp hcall hs

/-- Settles O11. -/
theorem runOnATerminalStateExecutesNothing : Obligations.RunOnATerminalStateExecutesNothing :=
  fun _ _ hcall => ⟨step_halted hcall, step_faulted hcall⟩

/-! ### The end of a call with a budget -/

/-- At most `k` steps, all of them next states, lead from `s` to where a run call has returned. -/
def ReturnsWithin (k : Nat) (s : State) : Prop :=
  ∃ j ≤ k, ∃ t : State, ∃ st : RunStatus,
    Host.Core.run Sys2Proof.core j s = .next t ∧ t.call = none ∧ t.reply = some (.runStatus st)

theorem returnsWithin_zero_returnStatus (st : RunStatus) (s : State) : ReturnsWithin 0 (returnStatus st s) :=
  ⟨0, le_rfl, _, st, rfl, rfl, rfl⟩

theorem run_succ_of_step {s t : State} (h : step s = .next t) (k : Nat) :
    Host.Core.run Sys2Proof.core (k + 1) s = Host.Core.run Sys2Proof.core k t := by
  simp only [Host.Core.run, Sys2Proof.core, h]

theorem ReturnsWithin.mono {k l : Nat} {s : State} (h : ReturnsWithin k s) (hkl : k ≤ l) : ReturnsWithin l s := by
  obtain ⟨j, hj, hrun⟩ := h
  exact ⟨j, hj.trans hkl, hrun⟩

theorem ReturnsWithin.of_step {k : Nat} {s t : State} (h : ReturnsWithin k t) (hst : step s = .next t) :
    ReturnsWithin (k + 1) s := by
  obtain ⟨j, hj, u, st, hrun, hcall, hreply⟩ := h
  exact ⟨j + 1, Nat.succ_le_succ hj, u, st, (run_succ_of_step hst j).trans hrun, hcall, hreply⟩

theorem returnsWithin_of_return {k : Nat} {s : State} {st : RunStatus} (h : step s = .next (returnStatus st s)) :
    ReturnsWithin (k + 1) s :=
  ((returnsWithin_zero_returnStatus st s).of_step h).mono (by omega)

/-- A running call with budget left: one step, and the budget is one less. -/
theorem step_budgeted {s : State} {n : BitVec 64} (hcall : s.call = some { left := some n }) (hs : s.state = .running)
    (hn : n ≠ 0) : ∃ t, step s = .next t ∧ t.call = some { left := some (n - 1) } ∧ t.state ≠ .ready := by
  obtain ⟨u, hu, hucall, hustate⟩ := vmCycle_next s
  refine ⟨countTurn u, ?_, ?_, hustate (by simp [hs])⟩
  · rw [step_cycle hcall hs (by simpa using hn), hu, mapNext]
  · simp [hucall, hcall]

/-- A call that finds a terminal state returns in one step (R137). -/
theorem returnsWithin_of_terminal {s : State} {c : RunCall} (k : Nat) (hcall : s.call = some c) (hready : s.state ≠ .ready)
    (hrunning : s.state ≠ .running) : ReturnsWithin (k + 1) s := by
  cases hs : s.state with
  | ready => exact absurd hs hready
  | running => exact absurd hs hrunning
  | halted => exact returnsWithin_of_return (step_halted hcall hs)
  | faulted => exact returnsWithin_of_return (step_faulted hcall hs)

/-- Once started, a call with `n` instructions left returns: a terminal state or a used-up budget ends it in one step, and
each other step leaves one instruction less. -/
theorem returnsWithin_budget {s : State} {n : BitVec 64} {m : Nat} (hn : n.toNat = m)
    (hcall : s.call = some { left := some n }) (hready : s.state ≠ .ready) : ReturnsWithin (m + 1) s := by
  induction m generalizing s n with
  | zero =>
    by_cases hs : s.state = .running
    · obtain rfl : n = 0 := BitVec.eq_of_toNat_eq hn
      exact returnsWithin_of_return (step_usedUp hcall hs)
    · exact returnsWithin_of_terminal _ hcall hready hs
  | succ m ih =>
    by_cases hs : s.state = .running
    · have hpos : n ≠ 0 := by rintro rfl; simp at hn
      obtain ⟨t, hst, htcall, htready⟩ := step_budgeted hcall hs hpos
      have hm : (n - 1).toNat = m := by bv_omega
      exact (ih hm htcall htready).of_step hst
    · exact returnsWithin_of_terminal _ hcall hready hs

/-- Settles O12. -/
theorem aBudgetedCallEndsInTime : Obligations.ABudgetedCallEndsInTime :=
  fun _ _ hcall hs => returnsWithin_budget rfl hcall (by simp [hs])

end Sys2Proof.Machine
end

section
/-! SUPPORT. An instruction that completes: what its next state keeps of the state before, said once for completing without
an effect and once for completing with a register write. Then the system and data-literal instructions
(spec/42_system_data.md R150 to R153) and NETHOOK (spec/47_extension.md R207). -/

namespace Sys2Proof.Machine

/-! ### Completing without an effect, or with a register write -/

section
variable {i : Instr} {s : State}

theorem goesTo_of_completeAt {target : Word} (h : exec i s = completeAt target s) : Claims.GoesTo i s target :=
  ⟨_, h, fun _ _ => rfl, fun _ _ => rfl, ⟨rfl, fun _ => rfl⟩, ⟨rfl, rfl, rfl⟩, ⟨rfl, rfl⟩, rfl, rfl, rfl, rfl,
    (exec_next h).outside_same⟩

/-- Completing without an effect is going to the next index (R14). -/
theorem onlyAdvances_of_complete (h : exec i s = complete s) : Claims.OnlyAdvances i s := goesTo_of_completeAt h

theorem writesReg_of_complete {rd : Fin 16} {v : Word} (h : exec i s = complete (s.setReg rd v)) :
    Claims.WritesReg i s rd v.toInt :=
  ⟨_, h, congrArg BitVec.toInt (reg_setReg_self s rd v), fun _ hq => reg_setReg_other s v (List.ne_of_not_mem_cons hq),
    fun _ _ => rfl, ⟨rfl, fun _ => rfl⟩, ⟨rfl, rfl, rfl⟩, ⟨rfl, rfl⟩, rfl, rfl, rfl, rfl, (exec_next h).outside_same⟩

end

/-! ### The system and data-literal instructions, and NETHOOK -/

/-- A signed 16-bit immediate keeps its value as a register value (R70). -/
@[simp] theorem immWord_toInt (op : Operand) : (immWord op).toInt = op.toInt := by
  have hlo := op.le_toInt
  have hhi := op.toInt_lt
  rw [immWord, opValue, BitVec.toInt_ofInt]
  exact Int.bmod_eq_of_le (by omega) (by omega)

theorem exec_lit {op1 : Operand} {rd : Fin 16} (imm : Operand) (pos : Pos) (s : State) (h : op1.toInt = (rd.val : Int)) :
    exec (.lit op1 imm pos) s = complete (s.setReg rd (immWord imm)) := withReg_ok h

/-- Settles O30: both instructions are `complete`, whatever their operand fields and the handle. -/
theorem nopAndNethookOnlyAdvance : Obligations.NopAndNethookOnlyAdvance :=
  fun _ _ _ _ => ⟨onlyAdvances_of_complete rfl, onlyAdvances_of_complete rfl⟩

/-- Settles O31: HALT is `completeHalt`, which leaves `pc` alone. -/
theorem haltStopsWhereItStands : Obligations.HaltStopsWhereItStands := fun _ _ _ _ => rfl

/-- Settles O32: the event is the one effect, and the frame lemmas of `InstrOutcome` give what DEBUG cannot touch. -/
theorem debugRecordsItsPlace : Obligations.DebugRecordsItsPlace := by
  intro u1 u2 pos s
  have h : exec (.debug u1 u2 pos) s =
      .next (State.completed { s with dbg := s.dbg ++ [{ pc := s.pc, x := pos.x, y := pos.y }] } (s.pc + 1)) := rfl
  have ho := exec_next h
  exact ⟨_, h, rfl, rfl, rfl, ho.regs_same (by simp [opcodeOf]), ho.cells_same (by simp [opcodeOf]),
    ho.stack_same (by simp [opcodeOf]), ho.handle_same (by simp [opcodeOf]), rfl, rfl, rfl, rfl, ho.outside_same⟩

/-- Settles O33: the register check passes, and the immediate fits the register. -/
theorem litWritesItsImmediate : Obligations.LitWritesItsImmediate := by
  intro op1 imm pos rd s h
  rw [← immWord_toInt imm]
  exact writesReg_of_complete (exec_lit imm pos s h)

end Sys2Proof.Machine
end

section
/-! SUPPORT. The arithmetic instructions (spec/43_arithmetic.md R160 to R167): writing an exact result, the division by 0,
and the quotient and remainder of a division rounded toward zero. -/

namespace Sys2Proof.Machine

/-! ### What completing with an exact result, or raising, claims -/

section
variable {i : Instr} {s : State}

/-- A cause raised with an aux that fits the record is the fault taken (R256). -/
theorem faults_of_raise {c : Cause} {aux : Int} (haux : auxWord aux = BitVec.ofInt 32 aux)
    (h : exec i s = raise i c aux s) : Claims.Faults i c.code aux s := by
  obtain ⟨t, ht, htaken⟩ := raise_taken i c s haux
  exact ⟨t, h.trans ht, htaken⟩

/-- A register written with an integer that 32 signed bits hold then holds that integer (R7). -/
theorem writesReg_of_fits {rd : Fin 16} {r : Int} (hlo : intMin ≤ r) (hhi : r ≤ intMax)
    (h : exec i s = complete (s.setReg rd (BitVec.ofInt 32 r))) : Claims.WritesReg i s rd r := by
  have hr : (BitVec.ofInt 32 r).toInt = r := BitVec.toInt_ofInt_eq_self (by decide) hlo (Int.lt_add_one_of_le hhi)
  have hw := writesReg_of_complete h
  rwa [hr] at hw

theorem writesReg_of_writeExact {rd : Fin 16} {r : Int} (hlo : intMin ≤ r) (hhi : r ≤ intMax)
    (h : exec i s = writeExact i rd r s) : Claims.WritesReg i s rd r := by
  rcases writeExact_cases i rd r s with ⟨-, -, -, e⟩ | ⟨hfits, -⟩
  · exact writesReg_of_fits hlo hhi (h.trans e)
  · exact absurd ⟨hlo, hhi⟩ hfits

theorem faults_of_writeExact {rd : Fin 16} {r : Int} (hr : ¬(intMin ≤ r ∧ r ≤ intMax))
    (h : exec i s = writeExact i rd r s) : Claims.Faults i 9 0 s := by
  rcases writeExact_cases i rd r s with ⟨hlo, hhi, -, -⟩ | ⟨-, e⟩
  · exact absurd ⟨hlo, hhi⟩ hr
  · exact faults_of_raise rfl (h.trans e)

/-- `writeExact` writes the result if it fits, and takes ArithmeticOverflow if not (R166). -/
theorem writesReg_or_faults_of_writeExact {rd : Fin 16} {r : Int} (h : exec i s = writeExact i rd r s) :
    (intMin ≤ r ∧ r ≤ intMax → Claims.WritesReg i s rd r) ∧
      (¬(intMin ≤ r ∧ r ≤ intMax) → Claims.Faults i 9 0 s) :=
  ⟨fun ⟨hlo, hhi⟩ => writesReg_of_writeExact hlo hhi h, fun hr => faults_of_writeExact hr h⟩

end

/-! ### Addition, subtraction and multiplication -/

section
variable {op1 op2 : Operand} {rd rs : Fin 16} (pos : Pos) (s : State)

theorem exec_add (h1 : op1.toInt = (rd.val : Int)) (h2 : op2.toInt = (rs.val : Int)) :
    exec (.add op1 op2 pos) s = writeExact (.add op1 op2 pos) rd ((s.reg rd).toInt + (s.reg rs).toInt) s :=
  withRegPair_ok h1 h2

theorem exec_sub (h1 : op1.toInt = (rd.val : Int)) (h2 : op2.toInt = (rs.val : Int)) :
    exec (.sub op1 op2 pos) s = writeExact (.sub op1 op2 pos) rd ((s.reg rd).toInt - (s.reg rs).toInt) s :=
  withRegPair_ok h1 h2

theorem exec_mul (h1 : op1.toInt = (rd.val : Int)) (h2 : op2.toInt = (rs.val : Int)) :
    exec (.mul op1 op2 pos) s = writeExact (.mul op1 op2 pos) rd ((s.reg rd).toInt * (s.reg rs).toInt) s :=
  withRegPair_ok h1 h2

end

/-- Settles O34: with both registers named, each of the three is `writeExact` of its result. -/
theorem addSubMulWriteTheExactResult : Obligations.AddSubMulWriteTheExactResult :=
  ⟨fun _ _ pos _ _ s h1 h2 => writesReg_or_faults_of_writeExact (exec_add pos s h1 h2),
    fun _ _ pos _ _ s h1 h2 => writesReg_or_faults_of_writeExact (exec_sub pos s h1 h2),
    fun _ _ pos _ _ s h1 h2 => writesReg_or_faults_of_writeExact (exec_mul pos s h1 h2)⟩

/-! ### Division: the divisor -/

section
variable {op1 op2 : Operand} {rd rs : Fin 16} (pos : Pos) {s : State}

theorem exec_div_zero (h1 : op1.toInt = (rd.val : Int)) (h2 : op2.toInt = (rs.val : Int)) (hb : (s.reg rs).toInt = 0) :
    exec (.div op1 op2 pos) s = raise (.div op1 op2 pos) .divideByZero 0 s :=
  (withRegPair_ok h1 h2).trans (if_pos hb)

theorem exec_mod_zero (h1 : op1.toInt = (rd.val : Int)) (h2 : op2.toInt = (rs.val : Int)) (hb : (s.reg rs).toInt = 0) :
    exec (.mod op1 op2 pos) s = raise (.mod op1 op2 pos) .divideByZero 0 s :=
  (withRegPair_ok h1 h2).trans (if_pos hb)

theorem exec_div (h1 : op1.toInt = (rd.val : Int)) (h2 : op2.toInt = (rs.val : Int)) (hb : (s.reg rs).toInt ≠ 0) :
    exec (.div op1 op2 pos) s =
      writeExact (.div op1 op2 pos) rd (truncQuot (s.reg rd).toInt (s.reg rs).toInt) s :=
  (withRegPair_ok h1 h2).trans (if_neg hb)

theorem exec_mod (h1 : op1.toInt = (rd.val : Int)) (h2 : op2.toInt = (rs.val : Int)) (hb : (s.reg rs).toInt ≠ 0) :
    exec (.mod op1 op2 pos) s =
      complete (s.setReg rd (BitVec.ofInt 32 (truncRem (s.reg rd).toInt (s.reg rs).toInt))) :=
  (withRegPair_ok h1 h2).trans (if_neg hb)

end

/-- Settles O37: a divisor of 0 is raised right after the register checks. -/
theorem divisionByZeroIsAFault : Obligations.DivisionByZeroIsAFault :=
  fun _ _ pos _ _ _ h1 h2 hb =>
    ⟨faults_of_raise rfl (exec_div_zero pos h1 h2 hb), faults_of_raise rfl (exec_mod_zero pos h1 h2 hb)⟩

/-! ### Division: the quotient and the remainder -/

section
variable {a b : Int}

/-- A register holds an integer in INT_MIN..INT_MAX (R160). -/
theorem toInt_fits (v : Word) : intMin ≤ v.toInt ∧ v.toInt ≤ intMax := ⟨v.le_toInt, Int.le_of_lt_add_one v.toInt_lt⟩

theorem natAbs_truncQuot (a b : Int) : (truncQuot a b).natAbs = a.natAbs / b.natAbs := Int.natAbs_tdiv a b

/-- Operands of like sign have a quotient that is not negative (R167). -/
theorem truncQuot_nonneg (h : 0 ≤ a * b) : 0 ≤ truncQuot a b := by
  rcases mul_nonneg_iff.1 h with ⟨ha, hb⟩ | ⟨ha, hb⟩
  · exact Int.tdiv_nonneg ha hb
  · exact Int.tdiv_nonneg_of_nonpos_of_nonpos ha hb

/-- Operands of unlike sign have a quotient that is not positive: negating the dividend negates the quotient (R167). -/
theorem truncQuot_nonpos (h : a * b ≤ 0) : truncQuot a b ≤ 0 := by
  have hneg : 0 ≤ truncQuot (-a) b := truncQuot_nonneg (by rw [Int.neg_mul]; omega)
  rw [truncQuot, Int.neg_tdiv] at hneg
  exact Int.neg_nonneg.1 hneg

/-- The quotient of two register values fits a register but for INT_MIN / -1: a divisor other than 1 and -1 at least halves
the magnitude (R164). -/
theorem truncQuot_fits (hlo : intMin ≤ a) (hhi : a ≤ intMax) (hb : b ≠ 0) (h : ¬(a = intMin ∧ b = -1)) :
    intMin ≤ truncQuot a b ∧ truncQuot a b ≤ intMax := by
  by_cases hone : b = 1
  · subst hone
    rw [truncQuot, Int.tdiv_one]
    exact ⟨hlo, hhi⟩
  by_cases hnegOne : b = -1
  · subst hnegOne
    have hmin : a ≠ intMin := fun ha => h ⟨ha, rfl⟩
    rw [truncQuot, Int.tdiv_neg, Int.tdiv_one]
    simp only [intMin, intMax] at hlo hhi hmin ⊢
    omega
  · have hhalf : (truncQuot a b).natAbs ≤ a.natAbs / 2 :=
      (natAbs_truncQuot a b).trans_le (Nat.div_le_div_left (by omega) (by decide))
    simp only [intMin, intMax] at hlo hhi ⊢
    omega

theorem truncRem_eq_tmod (a b : Int) : truncRem a b = a.tmod b := (Int.tmod_def a b).symm

theorem dvd_sub_truncRem (a b : Int) : b ∣ a - truncRem a b :=
  ⟨truncQuot a b, Int.sub_sub_self a _⟩

theorem natAbs_truncRem_lt (a : Int) (hb : b ≠ 0) : (truncRem a b).natAbs < b.natAbs := by
  rw [truncRem_eq_tmod, Int.natAbs_tmod]
  exact Nat.mod_lt _ (Int.natAbs_pos.2 hb)

/-- The remainder has the dividend's sign, or is 0 (R167). -/
theorem truncRem_nonneg (ha : 0 ≤ a) : 0 ≤ truncRem a b := by
  rw [truncRem_eq_tmod]
  exact Int.tmod_nonneg b ha

theorem truncRem_nonpos (ha : a ≤ 0) : truncRem a b ≤ 0 := by
  have hneg : 0 ≤ truncRem (-a) b := truncRem_nonneg (Int.neg_nonneg.2 ha)
  rw [truncRem_eq_tmod, Int.neg_tmod] at hneg
  rw [truncRem_eq_tmod]
  exact Int.neg_nonneg.1 hneg

/-- The remainder of any integer by a register value that is not 0 fits a register, INT_MIN mod -1 included (R165). -/
theorem truncRem_fits (a : Int) {v : Word} (hv : v.toInt ≠ 0) :
    intMin ≤ truncRem a v.toInt ∧ truncRem a v.toInt ≤ intMax := by
  have hlt := natAbs_truncRem_lt a hv
  obtain ⟨hlo, hhi⟩ := toInt_fits v
  simp only [intMin, intMax] at hlo hhi ⊢
  omega

end

/-- Settles O35: the integer is `truncQuot`, and INT_MIN / -1 = 2^31 is the one quotient that does not fit. -/
theorem divTruncatesTowardZero : Obligations.DivTruncatesTowardZero := by
  intro op1 op2 pos rd rs s h1 h2 hb
  have hexec := exec_div pos h1 h2 hb
  constructor
  · intro hne
    obtain ⟨hlo, hhi⟩ := toInt_fits (s.reg rd)
    obtain ⟨hqlo, hqhi⟩ := truncQuot_fits hlo hhi hb hne
    exact ⟨_, natAbs_truncQuot _ _, truncQuot_nonneg, truncQuot_nonpos, writesReg_of_writeExact hqlo hqhi hexec⟩
  · rintro ⟨ha, hb'⟩
    rw [ha, hb'] at hexec
    exact faults_of_writeExact (by decide) hexec

/-- Settles O36: the integer is `truncRem`, which always fits. -/
theorem modTakesTheDividendsSign : Obligations.ModTakesTheDividendsSign := by
  intro op1 op2 pos rd rs s h1 h2 hb
  obtain ⟨hlo, hhi⟩ := truncRem_fits (s.reg rd).toInt hb
  exact ⟨_, dvd_sub_truncRem _ _, natAbs_truncRem_lt _ hb, truncRem_nonneg, truncRem_nonpos,
    writesReg_of_fits hlo hhi (exec_mod pos h1 h2 hb)⟩

end Sys2Proof.Machine
end

section
/-! SUPPORT. The memory instructions (spec/44_memory_ops.md R170 to R173): an address that names a cell, one that names
none, and completing with a cell write. -/

namespace Sys2Proof.Machine

/-! ### The bounds check, and completing with a cell write -/

section
variable {i : Instr} {s : State}

theorem withCell_ok {a : Int} {n : Nat} {k : Nat → Result} (h : cellIndex a = some n) : withCell i a s k = k n := by
  simp [withCell, h]

theorem withCell_bad {a : Int} {k : Nat → Result} (h : cellIndex a = none) :
    withCell i a s k = raise i .memoryOutOfBounds a s := by
  simp [withCell, h]

/-- An address that names no cell is the fault taken (R43), where the record can hold it. -/
theorem faults_of_withCell {a : Int} {k : Nat → Result} (haux : auxWord a = BitVec.ofInt 32 a)
    (hbad : cellIndex a = none) (h : exec i s = withCell i a s k) : Claims.Faults i 3 a s :=
  faults_of_raise haux (h.trans (withCell_bad hbad))

theorem writesCell_of_complete {a : Nat} {v : Word} (h : exec i s = complete (s.setCell a v)) :
    Claims.WritesCell i s a v :=
  ⟨_, h, cell_setCell_self s a v, fun _ hb => cell_setCell_other s v (List.ne_of_not_mem_cons hb), fun _ _ => rfl,
    ⟨rfl, fun _ => rfl⟩, ⟨rfl, rfl, rfl⟩, ⟨rfl, rfl⟩, rfl, rfl, rfl, rfl, (exec_next h).outside_same⟩

end

/-- A register value used as an address fits the fault record. -/
theorem auxWord_toInt (v : Word) : auxWord v.toInt = BitVec.ofInt 32 v.toInt :=
  (auxWord_word v).trans BitVec.ofInt_toInt.symm

/-! ### The instructions, their registers being named -/

section
variable {op1 op2 : Operand} {rd rs : Fin 16} (addr : Operand) (pos : Pos) (s : State)

theorem exec_load (h1 : op1.toInt = (rd.val : Int)) :
    exec (.load op1 addr pos) s =
      withCell (.load op1 addr pos) addr.toInt s fun a => complete (s.setReg rd (s.cell a)) :=
  withReg_ok h1

theorem exec_store (h1 : op1.toInt = (rs.val : Int)) :
    exec (.store op1 addr pos) s =
      withCell (.store op1 addr pos) addr.toInt s fun a => complete (s.setCell a (s.reg rs)) :=
  withReg_ok h1

/-- COPY checks the source address first (R172). -/
theorem exec_copy (h1 : op1.toInt = (rd.val : Int)) (h2 : op2.toInt = (rs.val : Int)) :
    exec (.copy op1 op2 pos) s =
      withCell (.copy op1 op2 pos) (s.reg rs).toInt s fun src =>
        withCell (.copy op1 op2 pos) (s.reg rd).toInt s fun dst => complete (s.setCell dst (s.cell src)) :=
  withRegPair_ok h1 h2

/-- Once the source address names a cell, COPY is the check of the destination address, then the write (R172). -/
theorem exec_copy_of_source {src : Nat} (h1 : op1.toInt = (rd.val : Int)) (h2 : op2.toInt = (rs.val : Int))
    (hsrc : cellIndex (s.reg rs).toInt = some src) :
    exec (.copy op1 op2 pos) s =
      withCell (.copy op1 op2 pos) (s.reg rd).toInt s fun dst => complete (s.setCell dst (s.cell src)) :=
  (exec_copy pos s h1 h2).trans (withCell_ok hsrc)

end

/-- Settles O39: the address passes the bounds check and the register is written, or it is the fault's aux. -/
theorem loadReadsTheCell : Obligations.LoadReadsTheCell := by
  intro op1 addr pos rd s h1
  have hexec := exec_load addr pos s h1
  exact ⟨fun a ha => writesReg_of_complete (hexec.trans (withCell_ok ha)),
    fun hbad => faults_of_withCell (auxWord_operand addr) hbad hexec⟩

/-- Settles O40: the address passes the bounds check and the cell is written, or it is the fault's aux. -/
theorem storeWritesTheCell : Obligations.StoreWritesTheCell := by
  intro op1 addr pos rs s h1
  have hexec := exec_store addr pos s h1
  exact ⟨fun a ha => writesCell_of_complete (hexec.trans (withCell_ok ha)),
    fun hbad => faults_of_withCell (auxWord_operand addr) hbad hexec⟩

/-- Settles O41: the first bounds check is the source's, the second the destination's. -/
theorem copyMovesOneCell : Obligations.CopyMovesOneCell := by
  intro op1 op2 pos rd rs s h1 h2
  refine ⟨fun src dst hsrc hdst => ?_, fun hbad => ?_, fun hsrc hbad => ?_⟩
  · exact writesCell_of_complete ((exec_copy_of_source pos s h1 h2 hsrc).trans (withCell_ok hdst))
  · exact faults_of_withCell (auxWord_toInt _) hbad (exec_copy pos s h1 h2)
  · obtain ⟨src, hsrc⟩ := Option.ne_none_iff_exists'.1 hsrc
    exact faults_of_withCell (auxWord_toInt _) hbad (exec_copy_of_source pos s h1 h2 hsrc)

end Sys2Proof.Machine
end

section
/-! SUPPORT. The control-flow instructions (spec/45_control.md R180 to R185): what `resolve_pos` answers in each of its four
cases, the two forms of target taken or refused, and completing with the call stack moved. -/

namespace Sys2Proof.Machine

/-! ### `resolve_pos` and the position-form target (R180 (a)) -/

section
variable {hdr : Header} {tx ty : Int} {x y : Nat}

theorem resolvePos_negative (h : tx < 0 ∨ ty < 0) : resolvePos hdr tx ty = .error (-1) := if_pos h

/-- Coordinates that are not negative pass the first check. -/
theorem resolvePos_natCast (hdr : Header) (x y : Nat) :
    resolvePos hdr x y =
      if hdr.width.toNat ≤ x ∨ hdr.height.toNat ≤ y then .error ((y : Int) * 4096 + x)
      else if hdr.length.toNat ≤ y * hdr.width.toNat + x then .error ((y : Int) * hdr.width.toNat + x)
      else .ok (y * hdr.width.toNat + x) := by
  have hneg : ¬((x : Int) < 0 ∨ (y : Int) < 0) := by omega
  rw [resolvePos, if_neg hneg]
  norm_cast

theorem resolvePos_outside (hx : tx = x) (hy : ty = y) (h : hdr.width.toNat ≤ x ∨ hdr.height.toNat ≤ y) :
    resolvePos hdr tx ty = .error ((y : Int) * 4096 + x) := by
  rw [hx, hy, resolvePos_natCast, if_pos h]

theorem resolvePos_pastEnd (hx : tx = x) (hy : ty = y) (hxw : x < hdr.width.toNat) (hyh : y < hdr.height.toNat)
    (hn : hdr.length.toNat ≤ y * hdr.width.toNat + x) :
    resolvePos hdr tx ty = .error ((y : Int) * hdr.width.toNat + x) := by
  rw [hx, hy, resolvePos_natCast, if_neg (by omega), if_pos hn]

theorem resolvePos_inside (hx : tx = x) (hy : ty = y) (hxw : x < hdr.width.toNat) (hyh : y < hdr.height.toNat)
    (hn : y * hdr.width.toNat + x < hdr.length.toNat) : resolvePos hdr tx ty = .ok (y * hdr.width.toNat + x) := by
  rw [hx, hy, resolvePos_natCast, if_neg (by omega), if_neg (by omega)]

end

section
variable {i : Instr} {tx ty : Operand} {s : State} {k : Word → Result}

theorem withPosTarget_ok {n : Nat} (h : resolvePos s.hdr tx.toInt ty.toInt = .ok n) :
    withPosTarget i tx ty s k = k (BitVec.ofNat 32 n) := by
  simp [withPosTarget, opValue, h]

theorem withPosTarget_error {aux : Int} (h : resolvePos s.hdr tx.toInt ty.toInt = .error aux) :
    withPosTarget i tx ty s k = raise i .invalidJumpTarget aux s := by
  simp [withPosTarget, opValue, h]

/-- What `resolve_pos` refuses is the fault taken, where the record can hold its aux. -/
theorem faults_of_withPosTarget {aux : Int} (hlo : -2147483648 ≤ aux) (hhi : aux < 4294967296)
    (hbad : resolvePos s.hdr tx.toInt ty.toInt = .error aux) (h : exec i s = withPosTarget i tx ty s k) :
    Claims.Faults i 7 aux s :=
  faults_of_raise (auxWord_fits hlo hhi) (h.trans (withPosTarget_error hbad))

theorem exec_jmp (tx ty : Operand) (pos : Pos) (s : State) :
    exec (.jmp tx ty pos) s = withPosTarget (.jmp tx ty pos) tx ty s fun t => completeAt t s := rfl

/-- CALL resolves its target first, then looks at the stack (R184). -/
theorem exec_call (tx ty : Operand) (pos : Pos) (s : State) :
    exec (.call tx ty pos) s = withPosTarget (.call tx ty pos) tx ty s fun t =>
      if s.sp = 256#9 then raise (.call tx ty pos) .stackOverflow s.sp.toNat s
      else completeAt t (s.push (s.pc + 1)) := rfl

/-- JMP and CALL both resolve their target before anything else (R181, R184). -/
theorem exec_posJump {pos : Pos} (hi : i ∈ [Instr.jmp tx ty pos, Instr.call tx ty pos]) :
    ∃ k, exec i s = withPosTarget i tx ty s k := by
  simp only [List.mem_cons, List.not_mem_nil, or_false] at hi
  rcases hi with rfl | rfl
  · exact ⟨_, exec_jmp tx ty pos s⟩
  · exact ⟨_, exec_call tx ty pos s⟩

end

/-- Settles O42: the position resolves, and JMP completes at what it resolves to. -/
theorem jmpGoesToThePixel : Obligations.JmpGoesToThePixel := by
  intro tx ty pos x y s hx hy hxw hyh hn
  have hpos := resolvePos_inside hx hy hxw hyh hn
  exact goesTo_of_completeAt ((exec_jmp tx ty pos s).trans (withPosTarget_ok hpos))

/-- Settles O43: each of the three refusals of `resolve_pos` is the fault taken, and its aux fits the record. -/
theorem jumpToAPlaceOutsideTheProgramFaults : Obligations.JumpToAPlaceOutsideTheProgramFaults := by
  intro tx ty pos s i hi
  obtain ⟨k, hexec⟩ := exec_posJump (s := s) hi
  refine ⟨fun hneg => ?_, fun x y hx hy => ⟨fun hout => ?_, fun hxw hyh hn hfit => ?_⟩⟩
  · exact faults_of_withPosTarget (by omega) (by omega) (resolvePos_negative hneg) hexec
  · have hxlt := tx.toInt_lt
    have hylt := ty.toInt_lt
    exact faults_of_withPosTarget (by omega) (by omega) (resolvePos_outside hx hy hout) hexec
  · have hlo : (0 : Int) ≤ y * s.hdr.width.toNat + x := by positivity
    exact faults_of_withPosTarget (by omega) (mod_cast hfit) (resolvePos_pastEnd hx hy hxw hyh hn) hexec

/-! ### The address-form target (R180 (b)) and the branches -/

section
variable {i : Instr} {addr : Operand} {s : State}

theorem goesTo_of_withAddrTarget {n : Nat} (ha : addr.toInt = (n : Int)) (hn : n < s.hdr.length.toNat)
    (h : exec i s = withAddrTarget i addr s fun t => completeAt t s) : Claims.GoesTo i s (BitVec.ofNat 32 n) := by
  rcases withAddrTarget_cases i addr s fun t => completeAt t s with ⟨m, hm, -, e⟩ | ⟨hbad, -⟩
  · obtain rfl : m = n := by omega
    exact goesTo_of_completeAt (h.trans e)
  · omega

theorem faults_of_withAddrTarget {k : Word → Result} (hbad : addr.toInt < 0 ∨ (s.hdr.length.toNat : Int) ≤ addr.toInt)
    (h : exec i s = withAddrTarget i addr s k) : Claims.Faults i 7 addr.toInt s := by
  rcases withAddrTarget_cases i addr s k with ⟨n, ha, hn, -⟩ | ⟨-, e⟩
  · omega
  · exact faults_of_raise (auxWord_operand addr) (h.trans e)

end

section
variable {op1 : Operand} {rs : Fin 16} (addr : Operand) (pos : Pos) {s : State}

theorem isZero_iff {v : Word} : isZero v = true ↔ v.toInt = 0 := decide_eq_true_iff

theorem exec_jz_zero (h1 : op1.toInt = (rs.val : Int)) (hz : (s.reg rs).toInt = 0) :
    exec (.jz op1 addr pos) s = withAddrTarget (.jz op1 addr pos) addr s fun t => completeAt t s :=
  (withReg_ok h1).trans (if_pos (isZero_iff.2 hz))

theorem exec_jz_nonzero (h1 : op1.toInt = (rs.val : Int)) (hz : (s.reg rs).toInt ≠ 0) :
    exec (.jz op1 addr pos) s = complete s :=
  (withReg_ok h1).trans (if_neg (mt isZero_iff.1 hz))

theorem exec_jnz_zero (h1 : op1.toInt = (rs.val : Int)) (hz : (s.reg rs).toInt = 0) :
    exec (.jnz op1 addr pos) s = complete s :=
  (withReg_ok h1).trans (if_pos (isZero_iff.2 hz))

theorem exec_jnz_nonzero (h1 : op1.toInt = (rs.val : Int)) (hz : (s.reg rs).toInt ≠ 0) :
    exec (.jnz op1 addr pos) s = withAddrTarget (.jnz op1 addr pos) addr s fun t => completeAt t s :=
  (withReg_ok h1).trans (if_neg (mt isZero_iff.1 hz))

end

/-- Settles O44: a branch not taken is `complete`; one taken is the check of its target. -/
theorem jzAndJnzBranchOnTheRegister : Obligations.JzAndJnzBranchOnTheRegister := by
  intro op1 addr pos rs s h1
  refine ⟨fun hz => ?_, fun hz => ?_, fun n ha hn => ⟨fun hz => ?_, fun hz => ?_⟩, fun hbad => ⟨fun hz => ?_, fun hz => ?_⟩⟩
  · exact onlyAdvances_of_complete (exec_jz_nonzero addr pos h1 hz)
  · exact onlyAdvances_of_complete (exec_jnz_zero addr pos h1 hz)
  · exact goesTo_of_withAddrTarget ha hn (exec_jz_zero addr pos h1 hz)
  · exact goesTo_of_withAddrTarget ha hn (exec_jnz_nonzero addr pos h1 hz)
  · exact faults_of_withAddrTarget hbad (exec_jz_zero addr pos h1 hz)
  · exact faults_of_withAddrTarget hbad (exec_jnz_nonzero addr pos h1 hz)

/-! ### CALL and RET -/

/-- An instruction that completes with the call stack moved has touched nothing else. -/
theorem completes_of_stackMove {i : Instr} {s : State} {target : Word} {cs : Memory} {sp : BitVec 9}
    (h : exec i s = completeAt target { s with cs := cs, sp := sp }) :
    ∃ t, exec i s = .next t ∧ t.sp = sp ∧ (∀ n, t.entry n = Memory.read cs n) ∧ RegsSameBut [] s t ∧
      CellsSameBut [] s t ∧ RecordsSame s t ∧ HandleSame s t ∧ CompletedAt target s t :=
  ⟨_, h, rfl, fun _ => rfl, fun _ _ => rfl, fun _ _ => rfl, ⟨rfl, rfl, rfl⟩, ⟨rfl, rfl⟩, rfl, rfl, rfl, rfl,
    (exec_next h).outside_same⟩

section
variable {tx ty : Operand} {s : State} {n : Nat} (pos : Pos)

theorem exec_call_room (hpos : resolvePos s.hdr tx.toInt ty.toInt = .ok n) (hsp : s.sp ≠ 256#9) :
    exec (.call tx ty pos) s = completeAt (BitVec.ofNat 32 n) (s.push (s.pc + 1)) :=
  ((exec_call tx ty pos s).trans (withPosTarget_ok hpos)).trans (if_neg hsp)

theorem exec_call_full (hpos : resolvePos s.hdr tx.toInt ty.toInt = .ok n) (hsp : s.sp = 256#9) :
    exec (.call tx ty pos) s = raise (.call tx ty pos) .stackOverflow s.sp.toNat s :=
  ((exec_call tx ty pos s).trans (withPosTarget_ok hpos)).trans (if_pos hsp)

end

section
variable (u1 u2 : Operand) (pos : Pos) {s : State}

theorem exec_ret (hsp : s.sp ≠ 0#9) : exec (.ret u1 u2 pos) s = completeAt (s.entry (s.sp.toNat - 1)) s.pop :=
  if_neg hsp

theorem exec_ret_empty (hsp : s.sp = 0#9) :
    exec (.ret u1 u2 pos) s = raise (.ret u1 u2 pos) .stackUnderflow s.sp.toNat s :=
  if_pos hsp

end

/-- Settles O45: the target resolves, and what the full check lets through is the push. -/
theorem callPushesTheNextIndex : Obligations.CallPushesTheNextIndex := by
  intro tx ty pos x y s hx hy hxw hyh hn
  have hpos := resolvePos_inside hx hy hxw hyh hn
  refine ⟨fun hroom => ?_, fun hfull => ?_⟩
  · obtain ⟨t, ht, hsp, hentry, hrest⟩ := completes_of_stackMove (exec_call_room pos hpos (by bv_omega))
    refine ⟨t, ht, ?_, ?_, fun n hne => ?_, hrest⟩
    · exact (hentry _).trans (entry_push_self s _)
    · rw [hsp]
      bv_omega
    · exact (hentry n).trans (entry_push_other s _ hne)
  · have hexec := exec_call_full pos hpos (BitVec.eq_of_toNat_eq hfull)
    rw [hfull] at hexec
    exact faults_of_raise rfl hexec

/-- Settles O46: past the empty check RET only lowers the pointer, so every entry is left in place. -/
theorem retPopsTheLastIndex : Obligations.RetPopsTheLastIndex := by
  intro u1 u2 pos s
  refine ⟨fun hused => ?_, fun hempty => ?_⟩
  · have hsp0 : s.sp ≠ 0#9 := fun e => hused (congrArg BitVec.toNat e)
    obtain ⟨t, ht, hsp, hentry, hrest⟩ := completes_of_stackMove (exec_ret u1 u2 pos hsp0)
    exact ⟨t, ht, (congrArg BitVec.toNat hsp).trans (pop_sp_toNat hsp0).1, hentry, hrest⟩
  · have hexec := exec_ret_empty u1 u2 pos (BitVec.eq_of_toNat_eq hempty)
    rw [hempty] at hexec
    exact faults_of_raise rfl hexec

end Sys2Proof.Machine
end

section
/-! SUPPORT. The I/O instructions (spec/46_io.md R190 to R193): a selector that names a tag, completing with an output
element or with a value taken from the input source, and what that source answers next. -/

namespace Sys2Proof.Machine

/-! ### PRINT and PRINTI (R191, R192) -/

section
variable {i : Instr} {s : State} {tag : OutTag}

/-- The selector check passes on the tag the selector names (R190). -/
theorem withSel_ok {op : Operand} {k : OutTag → Result} (h : op.toInt = 0 ∧ tag = .int ∨ op.toInt = 1 ∧ tag = .chr) :
    withSel i op s k = k tag := by
  rcases h with ⟨h0, rfl⟩ | ⟨h1, rfl⟩
  · simp [withSel, selTag, opValue, h0]
  · simp [withSel, selTag, opValue, h1]

theorem emits_of_complete {v : Word} (h : exec i s = complete (s.emit tag v)) : Claims.Emits i s tag v :=
  ⟨_, h, rfl, rfl, rfl, fun _ _ => rfl, fun _ _ => rfl, ⟨rfl, fun _ => rfl⟩, ⟨rfl, rfl⟩, rfl, rfl, rfl, rfl,
    (exec_next h).outside_same⟩

end

section
variable {op1 sel : Operand} {rs : Fin 16} {tag : OutTag} (pos : Pos) (s : State)

theorem exec_print (h1 : op1.toInt = (rs.val : Int)) (hsel : sel.toInt = 0 ∧ tag = .int ∨ sel.toInt = 1 ∧ tag = .chr) :
    exec (.print op1 sel pos) s = complete (s.emit tag (s.reg rs)) :=
  (withReg_ok h1).trans (withSel_ok hsel)

theorem exec_printi (imm : Operand) (hsel : sel.toInt = 0 ∧ tag = .int ∨ sel.toInt = 1 ∧ tag = .chr) :
    exec (.printi sel imm pos) s = complete (s.emit tag (immWord imm)) := withSel_ok hsel

end

/-- Settles O47: the operand checks pass, and the element emitted is the one effect. -/
theorem printAndPrintiAppendOneElement : Obligations.PrintAndPrintiAppendOneElement :=
  fun _ _ imm pos _ _ s h1 hsel =>
    ⟨emits_of_complete (exec_print pos s h1 hsel), emits_of_complete (exec_printi pos s imm hsel)⟩

/-! ### INPUT (R193) -/

section
variable {s : State}

/-- The source's next value is the one at `in_idx` (R22). -/
theorem nextInput_of_inp {vs : List Word} (h : s.inp = some vs) : s.nextInput = vs[s.inIdx.toNat]? := by
  simp [State.nextInput, h]

/-- There is no next value without a source, and none once `in_idx` is past its end. -/
theorem nextInput_eq_none (h : s.inp = none ∨ ∃ vs, s.inp = some vs ∧ vs.length ≤ s.inIdx.toNat) :
    s.nextInput = none := by
  rcases h with h | ⟨vs, h, hlen⟩
  · simp [State.nextInput, h]
  · exact (nextInput_of_inp h).trans (List.getElem?_eq_none hlen)

/-- `in_idx` is raised by 1 as long as its 32 bits can hold the result (R22, log 16). -/
theorem nextInIdx_toNat {n : Word} (h : n.toNat + 1 < 4294967296) : (nextInIdx n).toNat = n.toNat + 1 := by
  have hmax : n ≠ 4294967295#32 := by bv_omega
  rw [nextInIdx, if_neg hmax]
  bv_omega

end

section
variable {op1 : Operand} {rd : Fin 16} (u2 : Operand) (pos : Pos) {s : State}

/-- Once its register is named, INPUT does what the source's next value says. -/
theorem exec_input (s : State) (h1 : op1.toInt = (rd.val : Int)) :
    exec (.input op1 u2 pos) s =
      s.nextInput.elim (complete s) fun v => complete { s.setReg rd v with inIdx := nextInIdx s.inIdx } := by
  refine (withReg_ok h1).trans ?_
  cases s.nextInput <;> rfl

theorem exec_input_value {v : Word} (h1 : op1.toInt = (rd.val : Int)) (hv : s.nextInput = some v) :
    exec (.input op1 u2 pos) s = complete { s.setReg rd v with inIdx := nextInIdx s.inIdx } := by
  rw [exec_input u2 pos s h1, hv, Option.elim_some]

theorem exec_input_none (h1 : op1.toInt = (rd.val : Int)) (hv : s.nextInput = none) :
    exec (.input op1 u2 pos) s = complete s := by
  rw [exec_input u2 pos s h1, hv, Option.elim_none]

end

/-- Settles O48: the value at `in_idx` is written and counted; with no such value INPUT is `complete` alone. -/
theorem inputConsumesOneValue : Obligations.InputConsumesOneValue := by
  intro op1 u2 pos rd s h1
  refine ⟨fun vs v hinp hv => ?_, fun hnone => ?_⟩
  · have hexec := exec_input_value u2 pos h1 ((nextInput_of_inp hinp).trans hv)
    exact ⟨_, hexec, reg_setReg_self s rd v, fun _ hq => reg_setReg_other s v (List.ne_of_not_mem_cons hq),
      nextInIdx_toNat, rfl, rfl, fun _ _ => rfl, ⟨rfl, fun _ => rfl⟩, ⟨rfl, rfl⟩, rfl, rfl, rfl, rfl,
      (exec_next hexec).outside_same⟩
  · exact onlyAdvances_of_complete (exec_input_none u2 pos h1 (nextInput_eq_none hnone))

end Sys2Proof.Machine
end

section
/-! SUPPORT. The host transactions (spec/47_extension.md R201 to R206): HOST0 to HOST4 are one operation with or without a
handle, the handle's answer, and a state after two register writes. -/

namespace Sys2Proof.Machine

/-- After two register writes the second register holds its value, the first does unless it was overwritten, and every
other register reads as before. -/
theorem reg_setReg_setReg (s : State) (ra rb : Fin 16) (va vb : Word) :
    ((s.setReg ra va).setReg rb vb).reg rb = vb ∧ (ra ≠ rb → ((s.setReg ra va).setReg rb vb).reg ra = va) ∧
      RegsSameBut [ra, rb] s ((s.setReg ra va).setReg rb vb) := by
  refine ⟨reg_setReg_self _ rb vb, fun hne => ?_, fun q hq => ?_⟩
  · exact (reg_setReg_other _ vb hne).trans (reg_setReg_self s ra va)
  · have hqa : q ≠ ra := List.ne_of_not_mem_cons hq
    have hqb : q ≠ rb := List.ne_of_not_mem_cons (List.not_mem_of_not_mem_cons hq)
    exact (reg_setReg_other _ vb hqb).trans (reg_setReg_other s va hqa)

/-- As long as the host has fixed answers, the handle gives the first of them (log 6). -/
theorem handleAnswer_of_answers {s : State} {ans : Word × Word} {rest : List (Word × Word)} (k : Fin 5) (a b : Word)
    (h : s.answers = ans :: rest) : s.handleAnswer k a b = ans := by
  simp only [State.handleAnswer, h]

/-- The five instructions differ in the operation number alone (R202 to R206). -/
theorem exec_hostInstr (k : Fin 5) (op1 op2 : Operand) (pos : Pos) (s : State) :
    exec (Claims.hostInstr k op1 op2 pos) s = hostTransaction k (Claims.hostInstr k op1 op2 pos) op1 op2 s := by
  match k with
  | 0 | 1 | 2 | 3 | 4 => rfl

section
variable {k : Fin 5} {op1 op2 : Operand} {ra rb : Fin 16} (pos : Pos) {s : State}

theorem exec_hostInstr_noHandle (h1 : op1.toInt = (ra.val : Int)) (h2 : op2.toInt = (rb.val : Int))
    (hh : s.hasHandle = false) : exec (Claims.hostInstr k op1 op2 pos) s = complete s :=
  ((exec_hostInstr k op1 op2 pos s).trans (withRegPair_ok h1 h2)).trans (if_neg (Bool.eq_false_iff.1 hh))

theorem exec_hostInstr_handle (h1 : op1.toInt = (ra.val : Int)) (h2 : op2.toInt = (rb.val : Int))
    (hh : s.hasHandle = true) :
    exec (Claims.hostInstr k op1 op2 pos) s =
      complete (((s.transact k (s.reg ra) (s.reg rb)).setReg ra (s.handleAnswer k (s.reg ra) (s.reg rb)).1).setReg rb
        (s.handleAnswer k (s.reg ra) (s.reg rb)).2) :=
  ((exec_hostInstr k op1 op2 pos s).trans (withRegPair_ok h1 h2)).trans (if_pos hh)

end

/-- Settles O49: with a handle the two answers are written to the state after the one transaction, which itself leaves
the registers alone; without one the instruction is `complete`. -/
theorem hostTransactionsWriteBothRegisters : Obligations.HostTransactionsWriteBothRegisters := by
  intro k op1 op2 pos ra rb s h1 h2
  refine ⟨fun hh => onlyAdvances_of_complete (exec_hostInstr_noHandle pos h1 h2 hh), fun hh => ?_⟩
  have hexec := exec_hostInstr_handle (k := k) pos h1 h2 hh
  obtain ⟨hrb, hra, hregs⟩ := reg_setReg_setReg (s.transact k (s.reg ra) (s.reg rb)) ra rb
    (s.handleAnswer k (s.reg ra) (s.reg rb)).1 (s.handleAnswer k (s.reg ra) (s.reg rb)).2
  exact ⟨_, _, _, hexec, hrb, hra, fun _ _ hans => handleAnswer_of_answers k _ _ hans, rfl, rfl, hregs, fun _ _ => rfl,
    ⟨rfl, fun _ => rfl⟩, ⟨rfl, rfl, rfl⟩, rfl, rfl, rfl, rfl, (exec_next hexec).outside_same⟩

end Sys2Proof.Machine
end

section
/-! SUPPORT. The palette of a grid (spec/48_codec.md R213): the collection from a palette already there, which only
grows, whose indices name the pixels, and whose entries stand in the order in which the grid first shows them. -/

namespace Sys2Proof.Machine

theorem placeOf_eq_idxOf? (p : Word) (pal : List Word) : placeOf p pal = pal.idxOf? p := by
  induction pal with
  | nil => rfl
  | cons q pal ih => simp only [placeOf, ih, List.idxOf?_cons, beq_iff_eq, eq_comm (a := p)]

theorem getElem?_of_placeOf {p : Word} {pal : List Word} {j : Nat} (h : placeOf p pal = some j) : pal[j]? = some p := by
  rw [placeOf_eq_idxOf?, List.idxOf?_eq_some_iff] at h
  obtain ⟨hj, e, -⟩ := h
  exact List.getElem?_eq_some_iff.2 ⟨hj, e⟩

theorem notMem_of_placeOf {p : Word} {pal : List Word} (h : placeOf p pal = none) : p ∉ pal := by
  rwa [placeOf_eq_idxOf?, List.idxOf?_eq_none_iff] at h

/-! ### One pixel of the collection -/

section
variable {pal : List Word} {p : Word} (g : List Word)

theorem paletteFrom_seen {j : Nat} (h : placeOf p pal = some j) :
    paletteFrom pal (p :: g) = ((paletteFrom pal g).1, j :: (paletteFrom pal g).2) := by
  simp only [paletteFrom, h]

theorem paletteFrom_new (h : placeOf p pal = none) :
    paletteFrom pal (p :: g) =
      ((paletteFrom (pal ++ [p]) g).1, pal.length :: (paletteFrom (pal ++ [p]) g).2) := by
  simp only [paletteFrom, h]

end

/-! ### The whole collection -/

/-- Collecting goes on at the end of the palette already there. -/
theorem paletteFrom_prefix (pal g : List Word) : pal <+: (paletteFrom pal g).1 := by
  fun_induction paletteFrom pal g with
  | case1 pal => exact List.prefix_rfl
  | case2 pal p g j h ih => exact ih
  | case3 pal p g h ih => exact (List.prefix_append pal [p]).trans ih

theorem paletteFrom_length_le (pal g : List Word) : (paletteFrom pal g).1.length ≤ pal.length + g.length := by
  fun_induction paletteFrom pal g with
  | case1 pal => exact Nat.le_refl _
  | case2 pal p g j h ih => exact ih.trans (Nat.le_succ _)
  | case3 pal p g h ih =>
    refine ih.trans_eq ?_
    rw [List.length_append, List.length_singleton, List.length_cons, Nat.add_assoc, Nat.add_comm 1]

/-- What a palette holds at a place, one that continues it holds there too. -/
theorem getElem?_of_prefix {pal pal' : List Word} {j : Nat} {p : Word} (h : pal <+: pal') (hj : pal[j]? = some p) :
    pal'[j]? = some p := by
  obtain ⟨hlt, rfl⟩ := List.getElem?_eq_some_iff.1 hj
  exact List.prefix_iff_getElem?.1 h j hlt

/-- Each index names its pixel: it is the place of an entry of the palette so far, which later entries do not move. -/
theorem paletteFrom_names (pal g : List Word) :
    (paletteFrom pal g).2.map (fun j => (paletteFrom pal g).1[j]?) = g.map some := by
  induction g generalizing pal with
  | nil => rfl
  | cons p g ih =>
    cases h : placeOf p pal with
    | some j =>
      have hj : (paletteFrom pal g).1[j]? = some p :=
        getElem?_of_prefix (paletteFrom_prefix pal g) (getElem?_of_placeOf h)
      rw [paletteFrom_seen g h, List.map_cons, List.map_cons, hj, ih]
    | none =>
      have hlast : (paletteFrom (pal ++ [p]) g).1[pal.length]? = some p :=
        getElem?_of_prefix (paletteFrom_prefix (pal ++ [p]) g) List.getElem?_concat_length
      rw [paletteFrom_new g h, List.map_cons, List.map_cons, hlast, ih]

/-- Where `seen` is what has been collected from, the entries stand in the order of their first occurrence. -/
theorem paletteFrom_order {seen pal : List Word} (g : List Word) (hmem : ∀ p, p ∈ pal ↔ p ∈ seen)
    (hord : pal.Pairwise fun p q => seen.idxOf p < seen.idxOf q) :
    (paletteFrom pal g).1.Pairwise fun p q => (seen ++ g).idxOf p < (seen ++ g).idxOf q := by
  induction g generalizing seen pal with
  | nil => rwa [List.append_nil]
  | cons p g ih =>
    have hkept : pal.Pairwise fun q r => (seen ++ [p]).idxOf q < (seen ++ [p]).idxOf r :=
      hord.imp_of_mem fun hq hr hlt => by
        rwa [List.idxOf_append_of_mem ((hmem _).1 hq), List.idxOf_append_of_mem ((hmem _).1 hr)]
    rw [List.append_cons seen p g]
    cases h : placeOf p pal with
    | some j =>
      have hp : p ∈ seen := (hmem p).1 (List.mem_of_getElem? (getElem?_of_placeOf h))
      rw [paletteFrom_seen g h]
      refine ih (fun q => ?_) hkept
      rw [hmem, List.mem_append, List.mem_singleton]
      exact (or_iff_left_of_imp fun e => e ▸ hp).symm
    | none =>
      have hp : p ∉ seen := mt (hmem p).2 (notMem_of_placeOf h)
      rw [paletteFrom_new g h]
      refine ih (fun q => by simp only [hmem, List.mem_append])
        (List.pairwise_append.2 ⟨hkept, List.pairwise_singleton _ _, fun q hq r hr => ?_⟩)
      rw [List.mem_singleton.1 hr, List.idxOf_append_of_mem ((hmem q).1 hq), List.idxOf_append_of_notMem hp]
      exact Nat.lt_add_right _ (List.idxOf_lt_length_iff.2 ((hmem q).1 hq))

/-! ### The palette of a grid -/

theorem paletteReduce_names (g : List Word) :
    (paletteReduce g).2.map (fun j => (paletteReduce g).1[j]?) = g.map some := paletteFrom_names [] g

theorem paletteReduce_order (g : List Word) :
    (paletteReduce g).1.Pairwise fun p q => g.idxOf p < g.idxOf q :=
  paletteFrom_order (seen := []) g (fun _ => Iff.rfl) List.Pairwise.nil

theorem paletteReduce_palette_length_le (g : List Word) : (paletteReduce g).1.length ≤ g.length :=
  (paletteFrom_length_le [] g).trans_eq (Nat.zero_add _)

theorem paletteReduce_index_length (g : List Word) : (paletteReduce g).2.length = g.length := by
  simpa using congrArg List.length (paletteReduce_names g)

theorem paletteReduce_index_getElem? {g : List Word} {i : Nat} {p : Word} (h : g[i]? = some p) :
    ∃ j, (paletteReduce g).2[i]? = some j ∧ (paletteReduce g).1[j]? = some p := by
  have hnames := congrArg (·[i]?) (paletteReduce_names g)
  simp only [List.getElem?_map, h, Option.map_some, Option.map_eq_some_iff] at hnames
  exact hnames

theorem paletteReduce_palette_ne_nil {g : List Word} (h : g ≠ []) : (paletteReduce g).1 ≠ [] := by
  obtain ⟨j, -, hj⟩ := paletteReduce_index_getElem? (List.getElem?_eq_getElem (List.length_pos_iff.2 h))
  exact List.ne_nil_of_mem (List.mem_of_getElem? hj)

/-- Settles O58: two equal entries would contradict the order. -/
theorem paletteReductionIndexesEveryPixel : Obligations.PaletteReductionIndexesEveryPixel := by
  intro g
  have horder := paletteReduce_order g
  have hnodup : (paletteReduce g).1.Nodup := horder.imp fun hlt e => hlt.ne (congrArg (g.idxOf ·) e)
  refine ⟨hnodup, paletteReduce_palette_length_le g, paletteReduce_palette_ne_nil, paletteReduce_index_length g,
    fun i p => paletteReduce_index_getElem?, ?_⟩
  intro i j p q hp hq hij
  obtain ⟨hi, rfl⟩ := List.getElem?_eq_some_iff.1 hp
  obtain ⟨hj, rfl⟩ := List.getElem?_eq_some_iff.1 hq
  exact List.pairwise_iff_getElem.1 horder i j hi hj hij

end Sys2Proof.Machine
end

section
/-! SUPPORT. The runs of a sequence (spec/48_codec.md R214): what runs expand to, the runs of one row, and the rows of a
grid one after the other. -/

namespace Sys2Proof.Machine

/-- The values that runs stand for, in order (R226). -/
def expandRuns (runs : List (Word × Nat)) : List Word := runs.flatMap fun r => List.replicate r.2 r.1

theorem expandRuns_cons (r : Word × Nat) (runs : List (Word × Nat)) :
    expandRuns (r :: runs) = List.replicate r.2 r.1 ++ expandRuns runs := rfl

theorem expandRuns_append (rs runs : List (Word × Nat)) : expandRuns (rs ++ runs) = expandRuns rs ++ expandRuns runs :=
  List.flatMap_append

theorem expandRuns_length (runs : List (Word × Nat)) : (expandRuns runs).length = (runs.map fun r => r.2).sum := by
  simp only [expandRuns, List.length_flatMap, List.length_replicate]

theorem mem_expandRuns {r : Word × Nat} {runs : List (Word × Nat)} (h : r ∈ runs) (hr : 1 ≤ r.2) :
    r.1 ∈ expandRuns runs :=
  List.mem_flatMap.2 ⟨r, h, List.mem_replicate.2 ⟨Nat.ne_of_gt hr, rfl⟩⟩

/-- Runs that are not empty are no more than the values they stand for. -/
theorem length_le_expandRuns {runs : List (Word × Nat)} (h : ∀ r ∈ runs, 1 ≤ r.2) :
    runs.length ≤ (expandRuns runs).length := by
  rw [expandRuns_length, ← List.length_map (fun r : Word × Nat => r.2)]
  exact List.length_le_sum_of_one_le _ (List.forall_mem_map.2 h)

/-! ### One row -/

/-- Neighbouring runs have different values. -/
abbrev NeighboursDiffer (runs : List (Word × Nat)) : Prop := runs.IsChain fun a b => a.1 ≠ b.1

theorem expandRuns_rowRuns (row : List Word) : expandRuns (rowRuns row) = row := by
  fun_induction rowRuns row with
  | case1 => rfl
  | case2 v rest hruns ih => rw [← ih, hruns]; rfl
  | case3 rest v n runs hruns ih => rw [← ih, hruns]; rfl
  | case4 v rest u n runs hruns hv ih => rw [← ih, hruns]; rfl

theorem rowRuns_pos (row : List Word) : ∀ r ∈ rowRuns row, 1 ≤ r.2 := by
  fun_induction rowRuns row with
  | case1 => exact nofun
  | case2 v rest hruns ih => simp
  | case3 rest v n runs hruns ih =>
    rw [hruns, List.forall_mem_cons] at ih
    exact List.forall_mem_cons.2 ⟨Nat.le_add_left 1 n, ih.2⟩
  | case4 v rest u n runs hruns hv ih =>
    rw [hruns] at ih
    exact List.forall_mem_cons.2 ⟨Nat.le_refl 1, ih⟩

theorem rowRuns_neighboursDiffer (row : List Word) : NeighboursDiffer (rowRuns row) := by
  fun_induction rowRuns row with
  | case1 => exact .nil
  | case2 v rest hruns ih => exact .singleton _
  | case3 rest v n runs hruns ih =>
    rw [hruns] at ih
    cases runs with
    | nil => exact .singleton _
    | cons r runs => exact List.isChain_cons_cons.2 (List.isChain_cons_cons.1 ih)
  | case4 v rest u n runs hruns hv ih =>
    rw [hruns] at ih
    exact List.isChain_cons_cons.2 ⟨hv, ih⟩

theorem rowRuns_sum (row : List Word) : ((rowRuns row).map fun r => r.2).sum = row.length := by
  rw [← expandRuns_length, expandRuns_rowRuns]

theorem rowRuns_le_length {row : List Word} {r : Word × Nat} (h : r ∈ rowRuns row) : r.2 ≤ row.length := by
  rw [← rowRuns_sum]
  exact List.le_sum_of_mem (List.mem_map_of_mem h)

theorem rowRuns_ne_nil {row : List Word} (h : row ≠ []) : rowRuns row ≠ [] := by
  intro e
  exact h (by rw [← expandRuns_rowRuns row, e]; rfl)

/-! ### The rows of a grid -/

/-- Row `y` of a sequence in rows of `w` values. -/
def rowAt (w y : Nat) (g : List Word) : List Word := (g.drop (w * y)).take w

theorem rowAt_length {w h y : Nat} {g : List Word} (hg : g.length = w * h) (hy : y < h) : (rowAt w y g).length = w := by
  have hend : w * (y + 1) ≤ w * h := Nat.mul_le_mul_left w hy
  rw [Nat.mul_add_one] at hend
  rw [rowAt, List.length_take, List.length_drop, hg]
  omega

/-- The runs of each row. -/
def runsOfRows (w h : Nat) (g : List Word) : List (List (Word × Nat)) :=
  (List.range h).map fun y => rowRuns (rowAt w y g)

theorem runsOfRows_getElem? {w h y : Nat} {g : List Word} {row : List (Word × Nat)}
    (hrow : (runsOfRows w h g)[y]? = some row) : y < h ∧ rowRuns (rowAt w y g) = row := by
  obtain ⟨hy, e⟩ := List.getElem?_eq_some_iff.1 hrow
  rw [runsOfRows, List.length_map, List.length_range] at hy
  simp only [runsOfRows, List.getElem_map, List.getElem_range] at e
  exact ⟨hy, e⟩

theorem rleEncode_eq_flatten (w h : Nat) (g : List Word) : rleEncode w h g = (runsOfRows w h g).flatten := by
  induction h generalizing g with
  | zero => rfl
  | succ h ih =>
    have hrow (y : Nat) : rowAt w y (g.drop w) = rowAt w (y + 1) g := by
      rw [rowAt, rowAt, List.drop_drop, Nat.mul_add_one, Nat.add_comm w]
    rw [rleEncode, ih, runsOfRows, runsOfRows, List.range_succ_eq_map, List.map_cons, List.flatten_cons, List.map_map]
    simp only [hrow, Function.comp_def, Nat.succ_eq_add_one]
    rfl

theorem expandRuns_rleEncode (w h : Nat) (g : List Word) : expandRuns (rleEncode w h g) = g.take (w * h) := by
  induction h generalizing g with
  | zero => rfl
  | succ h ih => rw [rleEncode, expandRuns_append, expandRuns_rowRuns, ih, Nat.mul_add_one, Nat.add_comm, List.take_add]

section
variable {w h : Nat} {g : List Word}

theorem mem_rleEncode {r : Word × Nat} (hr : r ∈ rleEncode w h g) : ∃ y < h, r ∈ rowRuns (rowAt w y g) := by
  simpa [rleEncode_eq_flatten, runsOfRows] using hr

theorem rleEncode_run_length {r : Word × Nat} (hr : r ∈ rleEncode w h g) : 1 ≤ r.2 ∧ r.2 ≤ w := by
  obtain ⟨y, -, hy⟩ := mem_rleEncode hr
  exact ⟨rowRuns_pos _ r hy, (rowRuns_le_length hy).trans (List.length_take_le _ _)⟩

theorem expandRuns_rleEncode_full (hg : g.length = w * h) : expandRuns (rleEncode w h g) = g := by
  rw [expandRuns_rleEncode, ← hg, List.take_length]

/-- Every row has a run, and no run is empty. -/
theorem rleEncode_length_bounds (hw : 0 < w) (hg : g.length = w * h) :
    h ≤ (rleEncode w h g).length ∧ (rleEncode w h g).length ≤ w * h := by
  constructor
  · have hrows : ∀ n ∈ (runsOfRows w h g).map List.length, 1 ≤ n := by
      simp only [runsOfRows, List.forall_mem_map, List.mem_range]
      exact fun y hy => List.length_pos_iff.2
        (rowRuns_ne_nil (List.ne_nil_of_length_pos (hw.trans_eq (rowAt_length hg hy).symm)))
    have hle := List.length_le_sum_of_one_le _ hrows
    rwa [← List.length_flatten, ← rleEncode_eq_flatten, List.length_map, runsOfRows, List.length_map,
      List.length_range] at hle
  · have hle := length_le_expandRuns fun r hr => (rleEncode_run_length (w := w) (h := h) (g := g) hr).1
    rwa [expandRuns_rleEncode_full hg, hg] at hle

end

/-- Settles O59: the groups are the runs of the rows. -/
theorem runsRebuildTheirRows : Obligations.RunsRebuildTheirRows := by
  intro w h g hw hg
  obtain ⟨hlo, hhi⟩ := rleEncode_length_bounds hw hg
  refine ⟨⟨runsOfRows w h g, rleEncode_eq_flatten w h g, by simp [runsOfRows], fun y row hrow => ?_⟩,
    fun r => rleEncode_run_length, expandRuns_rleEncode_full hg, hlo, hhi⟩
  obtain ⟨hy, rfl⟩ := runsOfRows_getElem? hrow
  refine ⟨(rowRuns_sum _).trans (rowAt_length hg hy), fun k a b ha hb => ?_, expandRuns_rowRuns _⟩
  obtain ⟨_, rfl⟩ := List.getElem?_eq_some_iff.1 ha
  obtain ⟨hk, rfl⟩ := List.getElem?_eq_some_iff.1 hb
  exact List.isChain_iff_getElem.1 (rowRuns_neighboursDiffer _) k hk

end Sys2Proof.Machine
end

section
/-! SUPPORT. The artifact of a grid (spec/48_codec.md R212 to R227): its words as bytes, the two body scans, when a
decode succeeds, and the body of each method scanned back. -/

namespace Sys2Proof.Machine

/-! ### Words as bytes (R41) -/

@[simp] theorem wordsOfBytes_bytesOfWords (ws : List Word) : wordsOfBytes (bytesOfWords ws) = ws := by
  induction ws with
  | nil => rfl
  | cons w ws ih =>
    simp only [bytesOfWords, bytesOfWord, List.cons_append, List.nil_append, wordsOfBytes, wordOfBytes_bytes, ih]

theorem bytesOfWords_length (ws : List Word) : (bytesOfWords ws).length = 4 * ws.length := by
  induction ws with
  | nil => rfl
  | cons w ws ih =>
    rw [bytesOfWords, List.length_append, ih, List.length_cons, Nat.mul_add_one, Nat.add_comm]
    rfl

/-! ### The scan of indices -/

/-- A walk in which every element gives what `r` says of it, at whatever index. -/
theorem walk_map {α β ε : Type} {f : Nat → α → Except ε β} {r : α → β} (i : Nat) {as : List α}
    (h : ∀ a ∈ as, ∀ j, f j a = .ok (r a)) : walk f i as = .ok (as.map r) := by
  induction as generalizing i with
  | nil => rfl
  | cons a as ih =>
    rw [List.forall_mem_cons] at h
    exact walk_cons_eq_ok.2 ⟨r a, _, rfl, h.1 i, ih (i + 1) h.2⟩

theorem scanIndices_eq_walk (pal : List Word) (b : Nat) (body : List Word) :
    scanIndices pal b body = walk (paletteEntry pal) b body := by
  induction body generalizing b with
  | nil => rfl
  | cons j body ih =>
    rw [scanIndices, walk, ih]
    cases paletteEntry pal b j with
    | error e => rfl
    | ok p => cases walk (paletteEntry pal) (b + 1) body <;> rfl

/-! ### The scan of runs -/

section
variable {value : Nat → Word → Except CodError Word} {total words b t : Nat}

/-- Exactly the runs that the scan goes on from (R226). -/
theorem scanRuns_cons_eq_ok {v len : Word} {body g : List Word} :
    scanRuns value total words b t (v :: len :: body) = .ok g ↔
      ∃ p g', value b v = .ok p ∧ len ≠ 0 ∧ t + len.toNat ≤ total ∧
        scanRuns value total words (b + 2) (t + len.toNat) body = .ok g' ∧ g = List.replicate len.toNat p ++ g' := by
  constructor
  · intro h
    rw [scanRuns] at h
    split at h
    · cases h
    split at h
    · cases h
    split at h
    · cases h
    split at h
    · cases h
    · cases h
      rename_i p hp hlen htotal _ g' hg'
      exact ⟨p, g', hp, hlen, Nat.not_lt.1 htotal, hg', rfl⟩
  · rintro ⟨p, g', hp, hlen, htotal, hg', rfl⟩
    simp only [scanRuns, hp, if_neg hlen, if_neg (Nat.not_lt.2 htotal), hg']

/-- A scan that succeeds fills the grid. -/
theorem scanRuns_fills {b t : Nat} {body g : List Word} (h : scanRuns value total words b t body = .ok g) :
    t + g.length = total := by
  match body with
  | v :: len :: body =>
    obtain ⟨p, g', -, -, -, hrest, rfl⟩ := scanRuns_cons_eq_ok.1 h
    have ih := scanRuns_fills hrest
    rw [List.length_append, List.length_replicate]
    omega
  | [] | [_] =>
    rw [scanRuns] at h
    · split at h
      · cases h
      · cases h
        exact not_not.1 ‹_›
    · exact nofun

/-- Runs whose values are read as the colours `colour` gives are scanned to the colours of what they expand to. -/
theorem scanRuns_runWords {colour : Word → Word} {runs : List (Word × Nat)}
    (hvalue : ∀ r ∈ runs, ∀ b, value b r.1 = .ok (colour r.1)) (hlen : ∀ r ∈ runs, 1 ≤ r.2 ∧ r.2 < 4294967296)
    (htotal : t + (expandRuns runs).length = total) :
    scanRuns value total words b t (runWords runs) = .ok ((expandRuns runs).map colour) := by
  induction runs generalizing b t with
  | nil =>
    have hfull : t = total := htotal
    rw [runWords, scanRuns, if_neg (not_not.2 hfull)]
    · rfl
    · exact nofun
  | cons r runs ih =>
    obtain ⟨v, n⟩ := r
    rw [List.forall_mem_cons] at hvalue hlen
    obtain ⟨⟨hn, hn32⟩, hlen⟩ := hlen
    have htoNat : (BitVec.ofNat 32 n).toNat = n := by rw [BitVec.toNat_ofNat]; exact Nat.mod_eq_of_lt hn32
    have hne : BitVec.ofNat 32 n ≠ 0 := fun e => by rw [e] at htoNat; exact absurd htoNat.symm (Nat.ne_of_gt hn)
    rw [expandRuns_cons, List.length_append, List.length_replicate] at htotal
    refine scanRuns_cons_eq_ok.2 ⟨colour v, (expandRuns runs).map colour, hvalue.1 b, hne, ?_, ?_, ?_⟩
    · omega
    · exact ih hvalue.2 hlen (by omega)
    · rw [htoNat, expandRuns_cons, List.map_append, List.map_replicate]

end

/-! ### When a decode succeeds -/

theorem badSide_eq_false {n : Word} : badSide n = false ↔ 0 < n.toNat ∧ n.toNat ≤ 1024 := by
  rw [badSide, decide_eq_false_iff_not, not_or, Nat.not_lt, Nat.pos_iff_ne_zero, ← BitVec.toNat_inj]
  rfl

/-- The numbers of palette entries and of items that a grid of `total` pixels can have (R223). -/
def CountsOk : Method → Nat → Nat → Nat → Prop
  | .palette, total, p, n => (0 < p ∧ p ≤ total) ∧ n = total
  | .rle, total, p, n => p = 0 ∧ 0 < n ∧ n ≤ total
  | .hybrid, total, p, n => (0 < p ∧ p ≤ total) ∧ 0 < n ∧ n ≤ total

theorem countsError_eq_none {m : Method} {total p n : Nat} : countsError m total p n = none ↔ CountsOk m total p n := by
  cases m with
  | palette | rle | hybrid =>
    simp only [countsError, CountsOk, ite_eq_right_iff, reduceCtorEq, imp_false, ite_eq_iff, and_false, false_or]
    omega

/-- Exactly the artifacts that decode: each check in turn has passed (R222 to R227). -/
theorem decodeArtifact_eq_ok {a : List Word} {w h : Word} {g : List Word} :
    decodeArtifact a = .ok (w, h, g) ↔
      ∃ m mw p n rest, a = mw :: w :: h :: p :: n :: checkWord g :: rest ∧ methodOfWord mw = some m ∧
        badSide w = false ∧ badSide h = false ∧ countsError m (w.toNat * h.toNat) p.toNat n.toNat = none ∧
        a.length = expectedLength m p.toNat n.toNat ∧
        expandBody m (w.toNat * h.toNat) a.length p.toNat rest = .ok g := by
  constructor
  · intro hd
    unfold decodeArtifact at hd
    split at hd
    · split at hd
      · cases hd
      split at hd
      · cases hd
      split at hd
      · cases hd
      split at hd
      · cases hd
      split at hd
      · cases hd
      split at hd
      · cases hd
      split at hd
      · cases hd
      · cases hd
        rename_i m hm _ _ hw hh hc hl hcheck hb
        rw [not_not] at hl hcheck
        rw [Bool.not_eq_true] at hw hh
        exact ⟨m, _, _, _, _, by rw [hcheck], hm, hw, hh, hc, hl, hb⟩
    · cases hd
  · rintro ⟨m, mw, p, n, rest, rfl, hm, hw, hh, hcounts, hlen, hbody⟩
    simp only [decodeArtifact, hm, hw, hh, hcounts, hbody, if_neg (not_not.2 hlen), ne_eq, not_true_eq_false, if_false,
      Bool.false_eq_true]

theorem codDecode_eq_ok {bytes : List Byte} {r : Word × Word × List Word} :
    codDecode bytes = .ok r ↔ bytes.length % 4 = 0 ∧ decodeArtifact (wordsOfBytes bytes) = .ok r := by
  rw [codDecode]
  by_cases hframe : bytes.length % 4 = 0
  · rw [if_neg (not_not.2 hframe)]
    exact (and_iff_right hframe).symm
  · rw [if_pos hframe]
    exact iff_of_false nofun fun h => hframe h.1

/-- A body scanned whole gives as many pixels as the counts and the length announce. -/
theorem expandBody_length {m : Method} {total words p n : Nat} {rest g : List Word}
    (hcounts : countsError m total p n = none) (hlen : rest.length + 6 = expectedLength m p n)
    (hg : expandBody m total words p rest = .ok g) : g.length = total := by
  cases m with
  | palette =>
    have hn : n = total := (countsError_eq_none.1 hcounts).2
    have hscan : g.length = (rest.drop p).length := walk_length ((scanIndices_eq_walk _ _ _).symm.trans hg)
    rw [List.length_drop] at hscan
    simp only [expectedLength] at hlen
    omega
  | rle => exact (Nat.zero_add _).symm.trans (scanRuns_fills hg)
  | hybrid => exact (Nat.zero_add _).symm.trans (scanRuns_fills hg)

/-- Settles O60: each clause is one of the checks that a decode has passed. -/
theorem decodedGridsAreConsistent : Obligations.DecodedGridsAreConsistent := by
  intro bytes w h g hd
  obtain ⟨hframe, hart⟩ := codDecode_eq_ok.1 hd
  obtain ⟨m, mw, p, n, rest, hwords, -, hw, hh, hcounts, hlen, hbody⟩ := decodeArtifact_eq_ok.1 hart
  rw [hwords] at hlen ⊢
  obtain ⟨hw0, hw1⟩ := badSide_eq_false.1 hw
  obtain ⟨hh0, hh1⟩ := badSide_eq_false.1 hh
  exact ⟨rfl, rfl, hw0, hw1, hh0, hh1, expandBody_length hcounts hlen hbody, hframe, rfl⟩

/-! ### The body of each method, scanned back -/

/-- The colour an index word stands for. -/
def colourOf (pal : List Word) (j : Word) : Word := (pal[j.toNat]?).getD 0

section
variable {w h : Nat} {g : List Word}

theorem paletteReduce_index_lt {n : Nat} (hn : n ∈ (paletteReduce g).2) : n < (paletteReduce g).1.length := by
  have hmem := List.mem_map_of_mem (f := fun j => (paletteReduce g).1[j]?) hn
  rw [paletteReduce_names] at hmem
  obtain ⟨p, -, hp⟩ := List.mem_map.1 hmem
  exact (List.getElem?_eq_some_iff.1 hp.symm).1

/-- An index is not changed by being held in 32 bits. -/
theorem toNat_index (hg : g.length < 4294967296) {n : Nat} (hn : n ∈ (paletteReduce g).2) :
    (BitVec.ofNat 32 n).toNat = n := by
  have hlt := paletteReduce_index_lt hn
  have hle := paletteReduce_palette_length_le g
  rw [BitVec.toNat_ofNat]
  omega

theorem paletteEntry_index (hg : g.length < 4294967296) {j : Word} (hj : j ∈ indexWords (paletteReduce g).2) (b : Nat) :
    paletteEntry (paletteReduce g).1 b j = .ok (colourOf (paletteReduce g).1 j) := by
  obtain ⟨n, hn, rfl⟩ := List.mem_map.1 hj
  have hsome := List.getElem?_eq_getElem (paletteReduce_index_lt hn)
  simp only [paletteEntry, colourOf, toNat_index hg hn, hsome, Option.getD_some]

/-- The index words of a grid stand for its pixels. -/
theorem map_colourOf_indexWords (hg : g.length < 4294967296) :
    (indexWords (paletteReduce g).2).map (colourOf (paletteReduce g).1) = g := by
  have hcolour : ∀ n ∈ (paletteReduce g).2,
      (colourOf (paletteReduce g).1 ∘ BitVec.ofNat 32) n = ((paletteReduce g).1[n]?).getD 0 := fun n hn => by
    rw [Function.comp_apply, colourOf, toNat_index hg hn]
  calc (indexWords (paletteReduce g).2).map (colourOf (paletteReduce g).1)
      = ((paletteReduce g).2.map fun n => (paletteReduce g).1[n]?).map fun p? => p?.getD 0 := by
        rw [indexWords, List.map_map, List.map_congr_left hcolour, List.map_map]
        rfl
    _ = g := by
        rw [paletteReduce_names, List.map_map]
        exact List.map_id g

theorem indexWords_length (g : List Word) : (indexWords (paletteReduce g).2).length = g.length := by
  rw [indexWords, List.length_map, paletteReduce_index_length]

theorem runWords_length (runs : List (Word × Nat)) : (runWords runs).length = 2 * runs.length := by
  induction runs with
  | nil => rfl
  | cons r runs ih => rw [runWords, List.length_cons, List.length_cons, ih, List.length_cons, Nat.mul_add_one]

theorem scanIndices_indexWords (hg : g.length < 4294967296) (b : Nat) :
    scanIndices (paletteReduce g).1 b (indexWords (paletteReduce g).2) = .ok g := by
  rw [scanIndices_eq_walk, walk_map b fun j => paletteEntry_index hg, map_colourOf_indexWords hg]

/-- The runs of a sequence in rows of a legal width are scanned to its colours. -/
theorem scanRuns_rleEncode {value : Nat → Word → Except CodError Word} {colour : Word → Word} {words b : Nat}
    (hw : w ≤ 1024) (hg : g.length = w * h) (hvalue : ∀ v ∈ g, ∀ b, value b v = .ok (colour v)) :
    scanRuns value (w * h) words b 0 (runWords (rleEncode w h g)) = .ok (g.map colour) := by
  have hexpand := expandRuns_rleEncode_full hg
  have hruns : ∀ r ∈ rleEncode w h g, 1 ≤ r.2 ∧ r.2 < 4294967296 := fun r hr => by
    obtain ⟨hlo, hhi⟩ := rleEncode_run_length hr
    omega
  have hval : ∀ r ∈ rleEncode w h g, ∀ b, value b r.1 = .ok (colour r.1) := fun r hr =>
    hvalue r.1 (hexpand ▸ mem_expandRuns hr (hruns r hr).1)
  have hscan := scanRuns_runWords (total := w * h) (words := words) (b := b) (t := 0) hval hruns
    (by rw [hexpand, hg, Nat.zero_add])
  rwa [hexpand] at hscan

end

/-! ### The round trip -/

/-- What a decode needs of an artifact put together from its parts. -/
theorem decodeArtifact_artifactWords {m : Method} {w h : Word} {g pal body : List Word} {items : Nat}
    (hw : badSide w = false) (hh : badSide h = false) (hpal : pal.length < 4294967296) (hitems : items < 4294967296)
    (hcounts : countsError m (w.toNat * h.toNat) pal.length items = none)
    (hlen : expectedLength m pal.length items = 6 + pal.length + body.length)
    (hbody : ∀ words, expandBody m (w.toNat * h.toNat) words pal.length (pal ++ body) = .ok g) :
    decodeArtifact (artifactWords m w h pal items (checkWord g) body) = .ok (w, h, g) := by
  have hp : (BitVec.ofNat 32 pal.length).toNat = pal.length := (BitVec.toNat_ofNat _ _).trans (Nat.mod_eq_of_lt hpal)
  have hn : (BitVec.ofNat 32 items).toNat = items := (BitVec.toNat_ofNat _ _).trans (Nat.mod_eq_of_lt hitems)
  have hm : methodOfWord m.word = some m := by cases m <;> rfl
  refine decodeArtifact_eq_ok.2 ⟨m, _, _, _, _, rfl, hm, hw, hh, ?_, ?_, ?_⟩
  · rw [hp, hn]
    exact hcounts
  · rw [hp, hn, hlen]
    simp only [artifactWords, List.length_cons, List.length_append]
    omega
  · rw [hp]
    exact hbody _

/-- Every method's artifact of a grid decodes to the grid. -/
theorem decodeArtifact_buildArtifact (m : Method) {w h : Word} {g : List Word} (hw : badSide w = false)
    (hh : badSide h = false) (hg : g.length = w.toNat * h.toNat) :
    decodeArtifact (buildArtifact m w h g) = .ok (w, h, g) := by
  obtain ⟨hw0, hw1⟩ := badSide_eq_false.1 hw
  obtain ⟨hh0, hh1⟩ := badSide_eq_false.1 hh
  have harea : w.toNat * h.toNat ≤ 1024 * 1024 := Nat.mul_le_mul hw1 hh1
  have harea0 : 0 < w.toNat * h.toNat := Nat.mul_pos hw0 hh0
  have hg32 : g.length < 4294967296 := by omega
  have hpal := paletteReduce_palette_length_le g
  have hpal0 := List.length_pos_iff.2 (paletteReduce_palette_ne_nil (List.ne_nil_of_length_pos (hg ▸ harea0)))
  have hidx := (indexWords_length g).trans hg
  cases m with
  | palette =>
    have hitems := (paletteReduce_index_length g).trans hg
    refine decodeArtifact_artifactWords hw hh (by omega) (by omega)
      (countsError_eq_none.2 ⟨⟨hpal0, by omega⟩, hitems⟩) ?_ fun words => ?_
    · rw [expectedLength, hitems, hidx]
    · simp only [expandBody, List.take_left, List.drop_left, scanIndices_indexWords hg32]
  | rle =>
    obtain ⟨hlo, hhi⟩ := rleEncode_length_bounds hw0 hg
    refine decodeArtifact_artifactWords hw hh (by simp) (by omega)
      (countsError_eq_none.2 ⟨rfl, by omega, hhi⟩) ?_ fun words => ?_
    · rw [expectedLength, runWords_length]
    · have hscan := scanRuns_rleEncode (colour := id) (words := words) (b := 6) hw1 hg fun _ _ _ => rfl
      rwa [List.map_id] at hscan
  | hybrid =>
    obtain ⟨hlo, hhi⟩ := rleEncode_length_bounds hw0 hidx
    refine decodeArtifact_artifactWords (pal := (paletteReduce g).1) hw hh (by omega) (hhi.trans_lt (by omega))
      (countsError_eq_none.2 ⟨⟨hpal0, by omega⟩, hh0.trans_le hlo, hhi⟩) ?_ fun words => ?_
    · rw [hybridEncode, expectedLength, runWords_length]
    · simp only [expandBody, hybridEncode, List.take_left, List.drop_left]
      rw [scanRuns_rleEncode hw1 hidx fun j hj b => paletteEntry_index hg32 hj b, map_colourOf_indexWords hg32]

/-- The method words are 0, 1 and 2 (R212). -/
theorem exists_method {method : Word} (h : method.toNat ≤ 2) : ∃ m, methodOfWord method = some m := by
  obtain rfl | rfl | rfl : method = 0 ∨ method = 1 ∨ method = 2 := by bv_omega
  · exact ⟨.palette, rfl⟩
  · exact ⟨.rle, rfl⟩
  · exact ⟨.hybrid, rfl⟩

/-- Settles O57: each method's artifact is undone by the decode of its bytes. -/
theorem theCodecRestoresEveryGrid : Obligations.TheCodecRestoresEveryGrid := by
  intro method w h g hmethod hw0 hw1 hh0 hh1 hg
  obtain ⟨m, hm⟩ := exists_method hmethod
  have hw := badSide_eq_false.2 ⟨hw0, hw1⟩
  have hh := badSide_eq_false.2 ⟨hh0, hh1⟩
  refine ⟨bytesOfWords (buildArtifact m w h g), ?_, ?_⟩
  · simp only [codEncode, hm, hw, hh, if_neg (not_not.2 hg), Bool.false_eq_true, if_false]
  · refine codDecode_eq_ok.2 ⟨?_, ?_⟩
    · rw [bytesOfWords_length, Nat.mul_mod_right]
    · rw [wordsOfBytes_bytesOfWords, decodeArtifact_buildArtifact m hw hh hg]

end Sys2Proof.Machine
end

section
/-! SUPPORT. Faults (spec/60_exceptions.md R251 to R257): which outcome of an instruction is a fault, which steps leave
the fault record alone, and the static check of each operand as the first thing an instruction does (R253). -/

namespace Sys2Proof.Machine

/-- Settles O17. -/
theorem everyInstructionAnswersANextState : Obligations.EveryInstructionAnswersANextState :=
  fun i s => (exec_outcome i s).imp fun _ h => h.1

/-! ### The fault taken -/

/-- The only outcome that leads to Faulted is taking a fault. -/
theorem InstrOutcome.fault_taken {i : Instr} {s t : State} (h : InstrOutcome i s t) (hs : s.state ≠ .faulted)
    (ht : t.state = .faulted) :
    ∃ c aux, 2 ≤ c.code.toNat ∧ c.code.toNat ≤ 10 ∧ t = enterFault (some (encode i)) c aux s := by
  cases h with
  | faulted c aux hc => exact ⟨c, aux, hc.1, hc.2, rfl⟩
  | halted => cases ht
  | _ => exact absurd ht hs

/-- Settles O18. -/
theorem faultsArePrecise : Obligations.FaultsArePrecise := by
  intro i s t h hs ht
  obtain ⟨c, aux, hlo, hhi, rfl⟩ := (exec_next h).fault_taken hs ht
  exact ⟨rfl, hlo, hhi, rfl, rfl, rfl, xField_encode i, yField_encode i⟩

/-- Settles O24: in Faulted a step is a reset or touches nothing of the VM, since every other outcome of a step starts
from Ready or Running. -/
theorem theFaultRecordIsWrittenOncePerReset : Obligations.TheFaultRecordIsWrittenOncePerReset := by
  intro s t h hs hreset
  cases step_next h with
  | outside ho => exact ⟨ho.state.trans hs, ho.fault, ho.x, ho.mem, ho.pc, ho.cycles, ho.out⟩
  | reset _ hc => exact absurd hc hreset
  | started hready => exact absurd (hs.symm.trans hready) nofun
  | refusedHeader hready => exact absurd (hs.symm.trans hready) nofun
  | notExecuted _ _ _ hrun => exact absurd (hs.symm.trans hrun) nofun
  | executed hrun => exact absurd (hs.symm.trans hrun) nofun

/-! ### The static checks come first -/

section
variable {i : Instr} {s : State} {op : Operand}

theorem withSel_bad {k : OutTag → Result} (h0 : op.toInt ≠ 0) (h1 : op.toInt ≠ 1) :
    withSel i op s k = raise i .invalidOperand op.toInt s := by
  rcases withSel_cases i op s k with ⟨h, -⟩ | ⟨h, -⟩ | ⟨-, -, e⟩
  · exact absurd h h0
  · exact absurd h h1
  · exact e

/-- A legal register operand names a register. -/
theorem exists_register (h : 0 ≤ op.toInt ∧ op.toInt ≤ 15) : ∃ r : Fin 16, op.toInt = (r.val : Int) :=
  ⟨⟨op.toInt.toNat, by omega⟩, (Int.toNat_of_nonneg h.1).symm⟩

/-- A bad register index is the fault taken where its check is what the instruction does. -/
theorem faults_of_withReg {k : Fin 16 → Result} (hbad : op.toInt < 0 ∨ 15 < op.toInt)
    (h : exec i s = withReg i op s k) : Claims.Faults i 2 op.toInt s :=
  faults_of_raise (auxWord_operand op) (h.trans (withReg_bad hbad))

/-- A bad selector is the fault taken where its check is what the instruction does. -/
theorem faults_of_withSel {k : OutTag → Result} (h0 : op.toInt ≠ 0) (h1 : op.toInt ≠ 1)
    (h : exec i s = withSel i op s k) : Claims.Faults i 10 op.toInt s :=
  faults_of_raise (auxWord_operand op) (h.trans (withSel_bad h0 h1))

end

/-- An instruction whose first operand is a register checks it first. -/
theorem exec_reg_first {i : Instr} (h : i.format.kinds.1 = .reg) (s : State) : ∃ k, exec i s = withReg i i.op1 s k := by
  cases i with
  | nop | halt | debug | jmp | call | ret | printi | nethook => cases h
  | _ => exact ⟨_, rfl⟩

/-- An instruction whose first operand is a selector checks it first. -/
theorem exec_sel_first {i : Instr} (h : i.format.kinds.1 = .sel) (s : State) : ∃ k, exec i s = withSel i i.op1 s k := by
  cases i with
  | printi => exact ⟨_, rfl⟩
  | _ => cases h

/-- An instruction whose second operand is a register checks both operands first. -/
theorem exec_reg_second {i : Instr} (h : i.format.kinds.2 = .reg) (s : State) :
    i.format.kinds.1 = .reg ∧ ∃ k, exec i s = withRegPair i i.op1 i.op2 s k := by
  cases i with
  | add | sub | mul | div | mod | copy | host0 | host1 | host2 | host3 | host4 => exact ⟨rfl, _, rfl⟩
  | _ => cases h

/-- An instruction whose second operand is a selector checks a register, then the selector. -/
theorem exec_sel_second {i : Instr} (h : i.format.kinds.2 = .sel) (s : State) :
    i.format.kinds.1 = .reg ∧
      ∃ k : Fin 16 → OutTag → Result, exec i s = withReg i i.op1 s fun r => withSel i i.op2 s (k r) := by
  cases i with
  | print => exact ⟨rfl, _, rfl⟩
  | _ => cases h

/-- Settles O27. -/
theorem theStaticCheckOfOperandOneComesFirst : Obligations.TheStaticCheckOfOperandOneComesFirst := by
  intro i s
  constructor
  · intro hkind hbad
    obtain ⟨k, hexec⟩ := exec_reg_first hkind s
    exact faults_of_withReg hbad hexec
  · intro hkind h0 h1
    obtain ⟨k, hexec⟩ := exec_sel_first hkind s
    exact faults_of_withSel h0 h1 hexec

/-- Settles O28: the first operand names a register, so the second check is what is left. -/
theorem theStaticCheckOfOperandTwoComesSecond : Obligations.TheStaticCheckOfOperandTwoComesSecond := by
  intro i s hop1
  constructor
  · intro hkind hbad
    obtain ⟨hkind1, k, hexec⟩ := exec_reg_second hkind s
    obtain ⟨r, hr⟩ := exists_register (hop1 hkind1)
    exact faults_of_withReg hbad (hexec.trans (withReg_ok hr))
  · intro hkind h0 h1
    obtain ⟨hkind1, k, hexec⟩ := exec_sel_second hkind s
    obtain ⟨r, hr⟩ := exists_register (hop1 hkind1)
    exact faults_of_withSel h0 h1 (hexec.trans (withReg_ok hr))

end Sys2Proof.Machine
end

section
/-! SUPPORT. What a decode call gives (spec/40_registry_decoder.md R93, R103 to R105, R108; spec/60_exceptions.md R252):
words of instructions that a pixel can carry, and the faults that such an instruction can still take. -/

namespace Sys2Proof.Machine

/-! ### The words of a decoded grid -/

/-- A channel in range quantizes to a value that the kind carries; for a selector that is left to the legal set. -/
theorem carries_quantize {kind : Kind} {c : Nat} (hc : c ≤ 1000) (hsel : kind = .sel → quantize kind c ∈ [0, 1]) :
    Carries kind (quantize kind c) := by
  cases kind with
  | sel => exact carries_sel.2 (hsel rfl)
  | unused => rfl
  | reg | imm | addr | pos =>
    simp only [Carries, quantize, Config.regDiv, Config.immBias]
    omega

/-- The operands of a pixel whose components are in range are values that their kinds carry (R93). -/
theorem carries_of_quantizeOperand {k s10 v10 : Nat} {ops : Int × Int} (hs : s10 ≤ 1000) (hv : v10 ≤ 1000)
    (h : quantizeOperand k s10 v10 = .ok ops) :
    Carries (registryRow k).kind1 ops.1 ∧ Carries (registryRow k).kind2 ops.2 := by
  unfold quantizeOperand at h
  split at h
  · cases h
  split at h
  · cases h
  · cases h
    rename_i h1 h2
    constructor
    · refine carries_quantize hs fun hsel => ?_
      exact registryRow_legalSel (.inl hsel) ▸ not_not.1 fun hout => h1 ⟨hsel, hout⟩
    · refine carries_quantize hv fun hsel => ?_
      exact registryRow_legalSel (.inr hsel) ▸ not_not.1 fun hout => h2 ⟨hsel, hout⟩

theorem colorRangeError_eq_none {p : Word} (h : colorRangeError p = none) :
    (satOf p).toNat ≤ 1000 ∧ (valOf p).toNat ≤ 1000 := by
  unfold colorRangeError at h
  split at h
  · cases h
  split at h
  · cases h
  split at h
  · cases h
  · exact ⟨Nat.not_lt.1 ‹_›, Nat.not_lt.1 ‹_›⟩

theorem select_eq_opcode {h10 k : Nat} (h : select h10 = .opcode k) : (registryRow k).assigned = true := by
  unfold select at h
  split at h
  · cases h
    assumption
  · cases h

/-- What decodes to a word: an assigned slot with operands that its kinds carry (R108). -/
theorem decodeHsvPixel_ok {w i : Nat} {p : Word} {iw : IWord} (h : decodeHsvPixel w i p = .ok iw) :
    ∃ k ops, (registryRow k).assigned = true ∧ Carries (registryRow k).kind1 ops.1 ∧
      Carries (registryRow k).kind2 ops.2 ∧ iw = stampedWord k ops w i := by
  unfold decodeHsvPixel at h
  split at h
  · cases h
  split at h
  · cases h
  split at h
  · cases h
  · cases h
    rename_i hcolor _ k hselect _ ops hops
    obtain ⟨hs, hv⟩ := colorRangeError_eq_none hcolor
    obtain ⟨h1, h2⟩ := carries_of_quantizeOperand hs hv hops
    exact ⟨k, ops, select_eq_opcode hselect, h1, h2, rfl⟩

/-- A value that a kind carries fits an operand field. -/
theorem toInt_ofInt_of_carries {kind : Kind} {v : Int} (h : Carries kind v) : (BitVec.ofInt 16 v).toInt = v := by
  have hbounds : -500 ≤ v ∧ v ≤ 1000 := by
    cases kind with
    | unused | reg | sel | imm | addr | pos =>
      simp only [Carries] at h
      omega
  exact BitVec.toInt_ofInt_eq_self (by decide) (by omega) (by omega)

/-- An assigned slot stamped with operands that its kinds carry is the word of an instruction that a pixel can carry. -/
theorem decode_stampedWord {k w j : Nat} {ops : Int × Int} (hk : (registryRow k).assigned = true)
    (h1 : Carries (registryRow k).kind1 ops.1) (h2 : Carries (registryRow k).kind2 ops.2) :
    ∃ i, decode (stampedWord k ops w j) = .ok i ∧ i.pixelEncodable = true := by
  obtain ⟨hle, hres⟩ := registryRow_assigned_iff.1 hk
  have hk8 : (BitVec.ofNat 8 k).toNat = k := (BitVec.toNat_ofNat _ _).trans (Nat.mod_eq_of_lt (by omega))
  rcases instrOfFields_cases k (BitVec.ofInt 16 ops.1) (BitVec.ofInt 16 ops.2) (posOfIndex w j) with
    ⟨-, -, i, hi⟩ | ⟨hmem, -⟩ | ⟨hgt, -⟩
  · obtain ⟨hop, hop1, hop2, -⟩ := instrOfFields_eq_ok hi
    obtain ⟨hkind1, hkind2⟩ := Prod.ext_iff.1 (registryAgrees i).2
    refine ⟨i, by simp only [decode, stampedWord, opcodeField_packWord, op1Field_packWord, op2Field_packWord,
      posField_packWord, hk8, hi], ?_⟩
    rw [Instr.pixelEncodable, Bool.and_eq_true, encodable_iff, encodable_iff, ← hkind1, ← hkind2, hop, hop1, hop2,
      toInt_ofInt_of_carries h1, toInt_ofInt_of_carries h2]
    exact ⟨h1, h2⟩
  · exact absurd hmem hres
  · omega

theorem decodePixels_of_decodeGrid {fmt : PixelFormat} {w h : Nat} {px : List Word} {ws : List IWord}
    (hd : decodeGrid fmt w h px = .ok ws) : decodePixels fmt w 0 px = .ok ws := by
  unfold decodeGrid at hd
  split at hd
  · cases hd
  split at hd
  · cases hd
  split at hd
  · cases hd
  · exact hd

/-- Every word that a decode call gives is one of an instruction that a pixel can carry. -/
theorem decodeGrid_word {fmt : PixelFormat} {w h : Nat} {px : List Word} {ws : List IWord}
    (hd : decodeGrid fmt w h px = .ok ws) {iw : IWord} (hiw : iw ∈ ws) :
    ∃ i, decode iw = .ok i ∧ i.pixelEncodable = true := by
  have hpx := decodePixels_of_decodeGrid hd
  rw [decodePixels_eq_walk] at hpx
  obtain ⟨p, j, -, hpixel⟩ := walk_result_mem hpx hiw
  obtain ⟨k, ops, hk, h1, h2, rfl⟩ := decodeHsvPixel_ok hpixel
  exact decode_stampedWord hk h1 h2

/-! ### What a pixel can carry passes the static checks -/

theorem legal_of_encodable {kind : Kind} {op : Operand} (h : kind.encodable op = true) : kind.legal op = true := by
  cases kind with
  | reg | sel => exact h
  | unused | imm | addr | pos => rfl

theorem wellFormed_iff {i : Instr} :
    i.wellFormed = true ↔ i.format.kinds.1.legal i.op1 = true ∧ i.format.kinds.2.legal i.op2 = true :=
  Bool.and_eq_true_iff

theorem pixelEncodable_iff {i : Instr} :
    i.pixelEncodable = true ↔ i.format.kinds.1.encodable i.op1 = true ∧ i.format.kinds.2.encodable i.op2 = true :=
  Bool.and_eq_true_iff

theorem wellFormed_of_pixelEncodable {i : Instr} (h : i.pixelEncodable = true) : i.wellFormed = true := by
  obtain ⟨h1, h2⟩ := pixelEncodable_iff.1 h
  exact wellFormed_iff.2 ⟨legal_of_encodable h1, legal_of_encodable h2⟩

/-- LOAD and STORE from a pixel name a cell: a channel's values end at 1000. -/
theorem cellIndex_of_pixelEncodable {i : Instr} (h : i.pixelEncodable = true) (hi : opcodeOf i ∈ [12, 13]) :
    cellIndex (opValue i.op2) ≠ none := by
  have hkind : i.format.kinds.2 = .addr := by
    cases i with
    | load | store => rfl
    | _ => exact absurd hi (by simp [opcodeOf])
  obtain ⟨-, h2⟩ := pixelEncodable_iff.1 h
  rw [hkind, encodable_iff] at h2
  obtain ⟨hlo, hhi⟩ : 0 ≤ i.op2.toInt ∧ i.op2.toInt ≤ 1000 := h2
  rw [cellIndex, opValue, if_pos ⟨hlo, by omega⟩]
  exact Option.some_ne_none _

/-! ### The faults left after the static checks -/

/-- The causes of a fault that come from values and not from the instruction's own fields. -/
def ValueCause (i : Instr) (c : Cause) : Prop :=
  c ∈ [.divideByZero, .stackOverflow, .stackUnderflow, .invalidJumpTarget, .arithmeticOverflow] ∨
    c = .memoryOutOfBounds ∧ opcodeOf i = 14

/-- A fault that this result of `i` is in a state that was not Faulted has such a cause. -/
def FaultsOnValues (i : Instr) (s : State) (r : Result) : Prop :=
  ∀ t, r = .next t → s.state ≠ .faulted → t.state = .faulted → ∃ c, ValueCause i c ∧ t.fault.cause = c.code

section
variable {i : Instr} {s : State}

theorem raise_onValues {c : Cause} {aux : Int} (hc : ValueCause i c) : FaultsOnValues i s (raise i c aux s) := by
  rintro t ⟨⟩ - -
  exact ⟨c, hc, rfl⟩

theorem completeAt_onValues {u : State} (target : Word) (hu : u.state = s.state) :
    FaultsOnValues i s (completeAt target u) := by
  rintro t ⟨⟩ hs ht
  exact absurd (hu.symm.trans ht) hs

theorem complete_onValues {u : State} (hu : u.state = s.state) : FaultsOnValues i s (complete u) :=
  completeAt_onValues (u.pc + 1) hu

theorem withReg_onValues {op : Operand} {k : Fin 16 → Result} (hop : Kind.legal .reg op = true)
    (hk : ∀ r, FaultsOnValues i s (k r)) : FaultsOnValues i s (withReg i op s k) := by
  obtain ⟨r, hr⟩ := exists_register (decide_eq_true_iff.1 hop)
  rw [withReg_ok hr]
  exact hk r

theorem withRegPair_onValues {op1 op2 : Operand} {k : Fin 16 → Fin 16 → Result} (h1 : Kind.legal .reg op1 = true)
    (h2 : Kind.legal .reg op2 = true) (hk : ∀ a b, FaultsOnValues i s (k a b)) :
    FaultsOnValues i s (withRegPair i op1 op2 s k) :=
  withReg_onValues h1 fun a => withReg_onValues h2 fun b => hk a b

theorem withSel_onValues {op : Operand} {k : OutTag → Result} (hop : Kind.legal .sel op = true)
    (hk : ∀ tag, FaultsOnValues i s (k tag)) : FaultsOnValues i s (withSel i op s k) := by
  rcases decide_eq_true_iff.1 hop with h0 | h1
  · rw [withSel_ok (.inl ⟨h0, rfl⟩)]
    exact hk _
  · rw [withSel_ok (.inr ⟨h1, rfl⟩)]
    exact hk _

theorem withCell_onValues {a : Int} {k : Nat → Result} (ha : cellIndex a = none → opcodeOf i = 14)
    (hk : ∀ n, FaultsOnValues i s (k n)) : FaultsOnValues i s (withCell i a s k) := by
  rcases withCell_cases i a s k with ⟨n, -, -, -, e⟩ | ⟨-, hnone, e⟩
  · exact e ▸ hk n
  · exact e ▸ raise_onValues (.inr ⟨rfl, ha hnone⟩)

theorem withAddrTarget_onValues {addr : Operand} {k : Word → Result} (hk : ∀ target, FaultsOnValues i s (k target)) :
    FaultsOnValues i s (withAddrTarget i addr s k) := by
  rcases withAddrTarget_cases i addr s k with ⟨n, -, -, e⟩ | ⟨-, e⟩
  · exact e ▸ hk _
  · exact e ▸ raise_onValues (.inl (by decide))

theorem withPosTarget_onValues {tx ty : Operand} {k : Word → Result} (hk : ∀ target, FaultsOnValues i s (k target)) :
    FaultsOnValues i s (withPosTarget i tx ty s k) := by
  rcases withPosTarget_cases i tx ty s k with ⟨x, y, -, -, -, -, -, e⟩ | ⟨aux, -, e⟩
  · exact e ▸ hk _
  · exact e ▸ raise_onValues (.inl (by decide))

theorem withDivisor_onValues {b : Int} {k : Result} (hk : FaultsOnValues i s k) :
    FaultsOnValues i s (withDivisor i b s k) := by
  unfold withDivisor
  split
  · exact raise_onValues (.inl (by decide))
  · exact hk

theorem writeExact_onValues (rd : Fin 16) (v : Int) : FaultsOnValues i s (writeExact i rd v s) := by
  rcases writeExact_cases i rd v s with ⟨-, -, -, e⟩ | ⟨-, e⟩
  · exact e ▸ complete_onValues rfl
  · exact e ▸ raise_onValues (.inl (by decide))

theorem hostTransaction_onValues {k : Fin 5} {op1 op2 : Operand} (h1 : Kind.legal .reg op1 = true)
    (h2 : Kind.legal .reg op2 = true) : FaultsOnValues i s (hostTransaction k i op1 op2 s) := by
  refine withRegPair_onValues h1 h2 fun ra rb => ?_
  split
  · exact complete_onValues rfl
  · exact complete_onValues rfl

end

/-- An instruction that passes the static checks, with a named cell where its address is a literal, faults on values
alone. -/
theorem exec_onValues {i : Instr} (s : State) (h1 : i.format.kinds.1.legal i.op1 = true)
    (h2 : i.format.kinds.2.legal i.op2 = true) (hcell : opcodeOf i ∈ [12, 13] → cellIndex (opValue i.op2) ≠ none) :
    FaultsOnValues i s (exec i s) := by
  cases i with
  | nop => exact complete_onValues rfl
  | halt => rintro t ⟨⟩ - ht; cases ht
  | debug => exact complete_onValues rfl
  | lit => exact withReg_onValues h1 fun _ => complete_onValues rfl
  | add => exact withRegPair_onValues h1 h2 fun a _ => writeExact_onValues a _
  | sub => exact withRegPair_onValues h1 h2 fun a _ => writeExact_onValues a _
  | mul => exact withRegPair_onValues h1 h2 fun a _ => writeExact_onValues a _
  | div => exact withRegPair_onValues h1 h2 fun a _ => withDivisor_onValues (writeExact_onValues a _)
  | mod => exact withRegPair_onValues h1 h2 fun _ _ => withDivisor_onValues (complete_onValues rfl)
  | load =>
    exact withReg_onValues h1 fun _ =>
      withCell_onValues (fun h => absurd h (hcell (by simp [opcodeOf]))) fun _ => complete_onValues rfl
  | store =>
    exact withReg_onValues h1 fun _ =>
      withCell_onValues (fun h => absurd h (hcell (by simp [opcodeOf]))) fun _ => complete_onValues rfl
  | copy =>
    exact withRegPair_onValues h1 h2 fun _ _ =>
      withCell_onValues (fun _ => rfl) fun _ => withCell_onValues (fun _ => rfl) fun _ => complete_onValues rfl
  | jmp => exact withPosTarget_onValues fun target => completeAt_onValues target rfl
  | jz =>
    refine withReg_onValues h1 fun _ => ?_
    split
    · exact withAddrTarget_onValues fun target => completeAt_onValues target rfl
    · exact complete_onValues rfl
  | jnz =>
    refine withReg_onValues h1 fun _ => ?_
    split
    · exact complete_onValues rfl
    · exact withAddrTarget_onValues fun target => completeAt_onValues target rfl
  | call =>
    rw [exec, execCall]
    refine withPosTarget_onValues fun target => ?_
    split
    · exact raise_onValues (.inl (by decide))
    · exact completeAt_onValues target rfl
  | ret =>
    rw [exec, execRet]
    split
    · exact raise_onValues (.inl (by decide))
    · exact completeAt_onValues _ rfl
  | print => exact withReg_onValues h1 fun _ => withSel_onValues h2 fun _ => complete_onValues rfl
  | printi => exact withSel_onValues h1 fun _ => complete_onValues rfl
  | input =>
    refine withReg_onValues h1 fun _ => ?_
    split
    · exact complete_onValues rfl
    · exact complete_onValues rfl
  | host0 => exact hostTransaction_onValues h1 h2
  | host1 => exact hostTransaction_onValues h1 h2
  | host2 => exact hostTransaction_onValues h1 h2
  | host3 => exact hostTransaction_onValues h1 h2
  | host4 => exact hostTransaction_onValues h1 h2
  | nethook => exact complete_onValues rfl

/-- The codes of these causes (R251, R252). -/
theorem ValueCause.code_spec {i : Instr} {c : Cause} (h : ValueCause i c) :
    c.code ∉ [1, 2, 10, 11] ∧ (c.code = 3 → opcodeOf i = 14) := by
  have hcodes : ∀ c ∈ [Cause.divideByZero, .stackOverflow, .stackUnderflow, .invalidJumpTarget, .arithmeticOverflow],
      c.code ∉ [1, 2, 10, 11] ∧ c.code ≠ 3 := by decide
  rcases h with hc | ⟨rfl, hi⟩
  · obtain ⟨hstatic, hmem⟩ := hcodes c hc
    exact ⟨hstatic, fun e => absurd e hmem⟩
  · exact ⟨by decide, fun _ => hi⟩

/-- Settles O51. -/
theorem decodedProgramsPassTheStaticChecks : Obligations.DecodedProgramsPassTheStaticChecks := by
  intro fmt w h px ws hd iw hiw
  obtain ⟨i, hi, henc⟩ := decodeGrid_word hd hiw
  have hwf := wellFormed_of_pixelEncodable henc
  have hcell := cellIndex_of_pixelEncodable henc
  obtain ⟨h1, h2⟩ := wellFormed_iff.1 hwf
  refine ⟨i, hi, hwf, hcell, fun s t hexec hs ht => ?_⟩
  obtain ⟨c, hc, hcause⟩ := exec_onValues s h1 h2 hcell t hexec hs ht
  exact hcause ▸ hc.code_spec

end Sys2Proof.Machine
end

section
/-! SUPPORT. Commands of the host between two calls (spec/70_reset_and_hazards.md R290, R301, R302), and the words that
spec/95_test_vectors.md writes out. -/

namespace Sys2Proof.Machine

/-- After a reset every register reads 0 (R33). -/
theorem reg_vmReset (s : State) (r : Fin 16) : (vmReset s).reg r = 0 := by
  simp [State.reg, State.reset]

/-- Settles O13. -/
theorem resetGivesTheResetValues : Obligations.ResetGivesTheResetValues := by
  intro s rest hcall hcmds
  exact ⟨_, step_hostCommand hcall hcmds, reg_vmReset _, fun _ => rfl, rfl, rfl, rfl, rfl, rfl, rfl, rfl, rfl, rfl, rfl,
    rfl, rfl, rfl, rfl⟩

/-- While Running, a command that is guarded is refused by its name (U3, U4, log 10). -/
theorem unlessRunning_refused {r : Refusal} {s : State} {k : Result} (h : s.state = .running) :
    unlessRunning r s k = .refused r := if_pos h

/-- Settles O29. -/
theorem theHostMustNotTouchARunningProgram : Obligations.TheHostMustNotTouchARunningProgram := by
  intro s c rest hcall hcmds hs
  have hstep := step_hostCommand hcall hcmds
  constructor
  · rintro (⟨i, w, rfl⟩ | ⟨hdr, rfl⟩ | ⟨fmt, w, h, px, rfl⟩)
    · exact hstep.trans (unlessRunning_refused hs)
    · exact hstep.trans (unlessRunning_refused hs)
    · exact hstep.trans (unlessRunning_refused hs)
  · rintro (⟨inp, rfl⟩ | ⟨attached, answers, rfl⟩)
    · exact hstep.trans (unlessRunning_refused hs)
    · exact hstep.trans (unlessRunning_refused hs)

/-- Settles O4: each word is the encoding of its instruction, worked out field by field. -/
theorem sampleWordsDecodeAsTheSpecWritesThem : Obligations.SampleWordsDecodeAsTheSpecWritesThem := by
  have hlit : encode (.lit 2 0xFFFF ⟨0, 2⟩) = 0x030002FFFF000002 := by decide
  have hjnz : encode (.jnz 0 3 ⟨1, 2⟩) = 0x1400000003001002 := by decide
  have hcall : encode (.call 0 1 ⟨0, 1⟩) = 0x1500000001000001 := by decide
  have hprinti : encode (.printi 1 72 ⟨0, 0⟩) = 0x1900010048000000 := by decide
  exact ⟨hlit ▸ decode_encode _, hjnz ▸ decode_encode _, hcall ▸ decode_encode _, hprinti ▸ decode_encode _⟩

end Sys2Proof.Machine
end
